-- ==== Sys2Proof/Word.lean ====
section
/-! DEFINITION. The word types of RFIDMETER-CORE (00_scope.md R10, R11, R14): every value is unsigned. -/

namespace Sys2Proof

/-- One byte: of the serial stream, of the NV byte space, of an identifier. -/
abbrev Byte := BitVec 8

/-- A hex digit's value (00_scope.md glossary). -/
abbrev Nibble := BitVec 4

/-- A clock reading or an elapsed time in milliseconds (00_scope.md R10: 32 bits). -/
abbrev Millis := BitVec 32

/-- A command word on `cmd_data` (30_encoding.md R85). -/
abbrev CmdWord := BitVec 64

/-- `sat32(x)` of 00_scope.md R12: the smaller of `x` and `0xFFFFFFFF`, with no intermediate wrap. -/
def sat32 (x : Nat) : Millis := BitVec.ofNat 32 (min x 0xFFFFFFFF)

end Sys2Proof
end

