-- ==== Sys2Proof/Syntax.lean ====
section
/-! DEFINITION. The operations of RFIDMETER-CORE: one constructor per row of spec/opcode_table.json. -/

namespace Sys2Proof

/-- A TagIdentifier: five bytes, `b0` the one decoded from frame positions 1-2, `b4` from positions
9-10 (00_scope.md R14). Two identifiers are equal exactly when all five bytes are. -/
structure TagId where
  b0 : Byte
  b1 : Byte
  b2 : Byte
  b3 : Byte
  b4 : Byte
deriving DecidableEq, Repr, Inhabited

/-- The operations: the decoder's one (40_tag_decoder.md R110) and the store's five
(41_store_commands.md). -/
inductive Instr where
  /-- RX: consume one byte of the serial stream (R110). -/
  | rx (b : Byte)
  /-- INIT R, NOW: `initialize(resetRequested)` (R150). -/
  | init (resetRequested : Bool) (now : Millis)
  /-- ADVANCE NOW: `advanceClock(nowMillis)` (R155). -/
  | advance (now : Millis)
  /-- CHECK ID: `checkAndUpdate(id)` (R160). -/
  | check (id : TagId)
  /-- ADD ID, INTERVAL: `add(id, intervalHours)` (R170). -/
  | add (id : TagId) (interval : Byte)
  /-- CLEAR: `clear()` (R175). -/
  | clear
deriving DecidableEq, Repr

/-- What one port carries to one agent: a byte on `rx_data` (10_state.md R36) or a word on `cmd_data`
(10_state.md R37). RFIDMETER-CORE fetches nothing (R21); these are what it decodes. -/
inductive PortWord where
  | rxByte (b : Byte)
  | cmdWord (w : CmdWord)
deriving DecidableEq, Repr

end Sys2Proof
end

