-- ==== Sys2Proof/Config.lean ====
section
/-! DEFINITION. What an implementation fixes (00_scope.md R7) and the free values: what the spec leaves
unspecified. -/

namespace Sys2Proof

/-- The accepted hex-digit characters (00_scope.md R7). Only `af` is a configuration a model runs;
`az` is refused (R9). -/
inductive HexAlphabet where
  | af
  | az
deriving DecidableEq, Repr

/-- The parameters of 00_scope.md R7. They are chosen when the block is built and no operation changes
them. -/
structure Config where
  /-- `TOTAL_BYTES`, the size of the persistent byte store. -/
  totalBytes : Nat
  /-- `TIME_UNIT_S`, seconds per unit of `intervalHours`. -/
  timeUnitS : Nat
  /-- `HEX_ALPHABET`. -/
  hexAlphabet : HexAlphabet
  /-- `NV_ADDR_W`, the width of the address port in bits. -/
  nvAddrW : Nat
  /-- `NV_INIT`, the contents of the persistent byte store at the first power-up, address 0 first. -/
  nvInit : List Byte
deriving DecidableEq, Repr

/-- `CAPACITY = floor((TOTAL_BYTES - 1) / 6)` (00_scope.md R8). -/
def Config.capacity (c : Config) : Nat := (c.totalBytes - 1) / 6

/-- What an address of the NV byte space reads as while nothing has been written to it: its byte of
`NV_INIT` (20_memory.md R57). Addresses at which `NV_INIT` has no byte do not exist; 0xFF stands there
so that the function is total (log entry 5). -/
def Config.initByte (init : List Byte) (a : Nat) : Byte := init.getD a 0xFF

/-- The configuration of `State.reset`. `TIME_UNIT_S`, `HEX_ALPHABET` and `NV_ADDR_W` are the spec's
defaults (00_scope.md R7). DESIGN CHOICE (log entries 4 and 5, unsafe): `TOTAL_BYTES` = 19 and blank
media of 0xFF bytes, the common configuration of 95_test_vectors.md. -/
def Config.default : Config where
  totalBytes := 19
  timeUnitS := 3600
  hexAlphabet := .af
  nvAddrW := 16
  nvInit := List.replicate 19 0xFF

/-! ### Free values

Each is a value the spec calls unspecified. Its argument is the drawing agent's counter at the draw (log
entry 11). They have no body, so nothing can be proved of one of them. -/

/-- `dec_status` while `dec_valid = 0` (10_state.md R25; log entry 8). -/
opaque Config.freeDecStatus (draw : Nat) : BitVec 2

/-- `dec_id` in a cycle that carries no OK result (10_state.md R25, 40_tag_decoder.md R111; log entry
8). -/
opaque Config.freeDecId (draw : Nat) : BitVec 40

/-- `DEC.buf[j]` after a hardware reset (10_state.md R35; log entry 7). -/
opaque Config.freeDecBuf (draw j : Nat) : Byte

/-- `DEC.pos` between power-up and the first reset edge (70_reset_and_hazards.md R231; log entry 14). -/
opaque Config.freeDecPos (draw : Nat) : BitVec 4

/-- `dec_valid` between power-up and the first reset edge (70_reset_and_hazards.md R231; log entry 14). -/
opaque Config.freeDecValid (draw : Nat) : Bool

/-- `rsp_code` while `rsp_valid = 0` (10_state.md R30; log entry 9). -/
opaque Config.freeRspCode (draw : Nat) : BitVec 4

/-- `rsp_info` while `rsp_valid = 0` (10_state.md R30; log entry 9). -/
opaque Config.freeRspInfo (draw : Nat) : Byte

/-- `rsp_flag` while `rsp_valid = 0` (10_state.md R30; log entry 9). -/
opaque Config.freeRspFlag (draw : Nat) : Bool

/-- `nv_we` while `nv_req = 0` (10_state.md R35; log entry 10). -/
opaque Config.freeNvWe (draw : Nat) : Bool

/-- `nv_addr` while `nv_req = 0` (10_state.md R35; log entry 10), before it is cut to the port's
width. -/
opaque Config.freeNvAddr (draw : Nat) : Nat

/-- `nv_wdata` while `nv_req = 0` and during a read (10_state.md R35; log entry 10). -/
opaque Config.freeNvWdata (draw : Nat) : Byte

/-- `STORE.nowReg` after a hardware reset (10_state.md R35; log entry 7). -/
opaque Config.freeNowReg (draw : Nat) : Millis

/-- `T[k].id` after a hardware reset (10_state.md R35; log entry 7). -/
opaque Config.freeSlotId (draw k : Nat) : TagId

/-- `T[k].interval` after a hardware reset (10_state.md R35; log entry 7). -/
opaque Config.freeSlotInterval (draw k : Nat) : Byte

/-- `T[k].carry` after a hardware reset (10_state.md R35; log entry 7). -/
opaque Config.freeSlotCarry (draw k : Nat) : Millis

/-- `T[k].lastGrant` after a hardware reset (10_state.md R35; log entry 7). -/
opaque Config.freeSlotLastGrant (draw k : Nat) : Millis

/-- `STORE.initialized` between power-up and the first reset edge (R231; log entry 14). -/
opaque Config.freeInitialized (draw : Nat) : Bool

/-- `STORE.fault` between power-up and the first reset edge (R231; log entry 14). -/
opaque Config.freeFault (draw : Nat) : BitVec 4

/-- `STORE.busy` between power-up and the first reset edge (R231; log entry 14). -/
opaque Config.freeBusy (draw : Nat) : Bool

/-- `STORE.numEntries` between power-up and the first reset edge (R231; log entry 14). -/
opaque Config.freeNumEntries (draw : Nat) : Byte

/-- `rsp_valid` between power-up and the first reset edge (R231; log entry 14). -/
opaque Config.freeRspValid (draw : Nat) : Bool

/-- `nv_req` between power-up and the first reset edge (R231; log entry 14). -/
opaque Config.freeNvReq (draw : Nat) : Bool

end Sys2Proof
end

