-- ==== Sys2Proof/WellFormed.lean ====
section
/-! DEFINITION. Which configurations and which operations are well-formed. -/

namespace Sys2Proof

/-- `1 ≤ CAPACITY ≤ 255`, that is `7 ≤ TOTAL_BYTES ≤ 1531` (00_scope.md R7, R9). -/
def Config.sizeOk (c : Config) : Bool := decide (7 ≤ c.totalBytes ∧ c.totalBytes ≤ 1531)

/-- `TIME_UNIT_S ∈ {1, 3600}` (00_scope.md R9). -/
def Config.timeUnitOk (c : Config) : Bool := decide (c.timeUnitS = 1 ∨ c.timeUnitS = 3600)

/-- `HEX_ALPHABET = AF` (00_scope.md R9). -/
def Config.alphabetOk (c : Config) : Bool := decide (c.hexAlphabet = .af)

/-- `2^NV_ADDR_W ≥ TOTAL_BYTES` (00_scope.md R7). -/
def Config.addrWidthOk (c : Config) : Bool := decide (c.totalBytes ≤ 2 ^ c.nvAddrW)

/-- `NV_INIT` is a byte array of length `TOTAL_BYTES` (00_scope.md R7). -/
def Config.nvInitOk (c : Config) : Bool := decide (c.nvInit.length = c.totalBytes)

/-- A configuration a model runs (00_scope.md R7, R9). The last two checks are R7's ranges, which R9
does not repeat (DEDUCED, log entry 13). -/
def Config.wellFormed (c : Config) : Bool :=
  c.sizeOk && c.timeUnitOk && c.alphabetOk && c.addrWidthOk && c.nvInitOk

/-- Every operand's width is its type's, and every value of that width is legal: any byte for RX
(40_tag_decoder.md R110), any NOW, ID and INTERVAL for the commands (30_encoding.md R85). So no term of
`Instr` is ill-formed. -/
def Instr.wellFormed : Instr → Bool
  | .rx _ => true
  | .init _ _ => true
  | .advance _ => true
  | .check _ => true
  | .add _ _ => true
  | .clear => true

end Sys2Proof
end

