-- ==== Sys2Proof/Decode.lean ====
section
/-! DEFINITION. Decoding and encoding (30_encoding.md): the 40-bit identifier field, the command word,
the byte of the serial stream. -/

namespace Sys2Proof

/-- The identifier as one 40-bit field: `id[i]` in bits `[39-8i : 32-8i]` (00_scope.md R14). -/
def TagId.toField (t : TagId) : BitVec 40 := t.b0 ++ t.b1 ++ t.b2 ++ t.b3 ++ t.b4

/-- The identifier a 40-bit field carries (00_scope.md R14). -/
def TagId.ofField (f : BitVec 40) : TagId where
  b0 := f.extractLsb' 32 8
  b1 := f.extractLsb' 24 8
  b2 := f.extractLsb' 16 8
  b3 := f.extractLsb' 8 8
  b4 := f.extractLsb' 0 8

/-- A row of the command table: a word is the row's command iff `W AND mask = match`
(30_encoding.md R91). -/
structure CmdRow where
  mask : CmdWord
  pattern : CmdWord
deriving DecidableEq, Repr

/-- INIT's row (30_encoding.md R86). -/
def rowInit : CmdRow := ⟨0xFFFF00000000FFEF#64, 0x0000000000000001#64⟩

/-- ADVANCE's row (30_encoding.md R87). -/
def rowAdvance : CmdRow := ⟨0xFFFF00000000FFFF#64, 0x0000000000000002#64⟩

/-- CHECK's row (30_encoding.md R88). -/
def rowCheck : CmdRow := ⟨0xFF0000000000FFFF#64, 0x0000000000000003#64⟩

/-- ADD's row (30_encoding.md R89). -/
def rowAdd : CmdRow := ⟨0x000000000000FFFF#64, 0x0000000000000004#64⟩

/-- CLEAR's row (30_encoding.md R90). -/
def rowClear : CmdRow := ⟨0xFFFFFFFFFFFFFFFF#64, 0x0000000000000005#64⟩

/-- The word satisfies the row. -/
def CmdRow.matches (r : CmdRow) (w : CmdWord) : Bool := (w &&& r.mask) == r.pattern

/-- The rows of 30_encoding.md R86-R90. -/
def cmdRows : List CmdRow := [rowInit, rowAdvance, rowCheck, rowAdd, rowClear]

/-- A word is legal iff it satisfies one of the rows (30_encoding.md R91). -/
def legalWord (w : CmdWord) : Bool := cmdRows.any (·.matches w)

/-- OP, bits `[3:0]` of every word (30_encoding.md R85). -/
def fieldOp (w : CmdWord) : BitVec 4 := w.extractLsb' 0 4

/-- R, bit `[4]` (30_encoding.md R85). -/
def fieldR (w : CmdWord) : Bool := w.getLsbD 4

/-- NOW, bits `[47:16]` (30_encoding.md R85). -/
def fieldNow (w : CmdWord) : Millis := w.extractLsb' 16 32

/-- ID, bits `[55:16]` (30_encoding.md R85). -/
def fieldId (w : CmdWord) : TagId := .ofField (w.extractLsb' 16 40)

/-- INTERVAL, bits `[63:56]` (30_encoding.md R85). -/
def fieldInterval (w : CmdWord) : Byte := w.extractLsb' 56 8

/-- Why a command word is no command (30_encoding.md R91). The hardware answers both with
ILLEGAL_CMD. -/
inductive DecodeError where
  /-- OP is 0x0 or 0x6-0xF. -/
  | illegalOpcode (op : BitVec 4)
  /-- OP is legal and a reserved bit is 1. -/
  | reservedBits (op : BitVec 4)
deriving DecidableEq, Repr

/-- The command a word stands for (30_encoding.md R86-R91). -/
def decodeCmd (w : CmdWord) : Except DecodeError Instr :=
  if rowInit.matches w then .ok (.init (fieldR w) (fieldNow w))
  else if rowAdvance.matches w then .ok (.advance (fieldNow w))
  else if rowCheck.matches w then .ok (.check (fieldId w))
  else if rowAdd.matches w then .ok (.add (fieldId w) (fieldInterval w))
  else if rowClear.matches w then .ok .clear
  else if 1 ≤ (fieldOp w).toNat ∧ (fieldOp w).toNat ≤ 5 then .error (.reservedBits (fieldOp w))
  else .error (.illegalOpcode (fieldOp w))

/-- What a port's word stands for. Every byte is an RX (40_tag_decoder.md R110). -/
def decode : PortWord → Except DecodeError Instr
  | .rxByte b => .ok (.rx b)
  | .cmdWord w => decodeCmd w

/-- The words of an operation, field by field from bit 63 down (30_encoding.md R86-R90). -/
def encode : Instr → PortWord
  | .rx b => .rxByte b
  | .init r now => .cmdWord (0#16 ++ now ++ 0#11 ++ BitVec.ofBool r ++ 0x1#4)
  | .advance now => .cmdWord (0#16 ++ now ++ 0#12 ++ 0x2#4)
  | .check id => .cmdWord (0#8 ++ id.toField ++ 0#12 ++ 0x3#4)
  | .add id interval => .cmdWord (interval ++ id.toField ++ 0#12 ++ 0x4#4)
  | .clear => .cmdWord (0#60 ++ 0x5#4)

/-- The port's word that `nbits` bits of value `w` are: 8 bits are a byte of the serial stream, 64 bits
a command word; there are no others (30_encoding.md R94). -/
def portWordOf (nbits w : Nat) : Option PortWord :=
  if nbits = 8 then some (.rxByte (BitVec.ofNat 8 w))
  else if nbits = 64 then some (.cmdWord (BitVec.ofNat 64 w))
  else none

/-- The operation the decoder reads from `nbits` bits of value `w`, none where it refuses. -/
def decodeTableWord (nbits w : Nat) : Option Instr :=
  match portWordOf nbits w with
  | none => none
  | some p =>
    match decode p with
    | .ok i => some i
    | .error _ => none

end Sys2Proof
end

