-- ==== Sys2Proof/Machine/State.lean ====
section
/-! DEFINITION. The state of RFIDMETER-CORE (10_state.md), its environment's schedule, and the machine
right after reset. -/

namespace Sys2Proof.Machine

/-- The contents of the NV byte space as what differs from `NV_INIT`: (address, byte) pairs, addresses
strictly rising, no byte equal to the `NV_INIT` byte of its address (20_memory.md R57; log entry 5). -/
abbrev Memory := List Host.Cell

/-- A table slot's four fields (10_state.md R26). -/
structure Entry where
  id : TagId
  interval : Byte
  carry : Millis
  lastGrant : Millis
deriving DecidableEq, Repr, Inhabited

/-- What a slot holds in `State.reset`. DESIGN CHOICE (log entry 6, unsafe): the spec leaves it
unspecified. -/
def Entry.blank : Entry := ⟨⟨0, 0, 0, 0, 0⟩, 0, 0, 0⟩

/-- The tag frame decoder (10_state.md R22, R25). -/
structure Decoder where
  /-- `DEC.pos`, the position of the next byte. -/
  pos : BitVec 4
  /-- `DEC.buf[0..5]`. -/
  buf : Vector Byte 6
  /-- `dec_valid`. -/
  valid : Bool
  /-- `dec_status`. -/
  status : BitVec 2
  /-- `dec_id`. -/
  id : BitVec 40
  /-- The model's own: free values this agent has drawn (log entry 11). -/
  draws : Nat
deriving DecidableEq, Repr

/-- The response registers (10_state.md R30). -/
structure Response where
  valid : Bool
  code : BitVec 4
  info : Byte
  flag : Bool
deriving DecidableEq, Repr

/-- The outputs of the NV port (10_state.md R37). `addr` stays below `2^NV_ADDR_W` (log entry 19). -/
structure NvPort where
  req : Bool
  we : Bool
  addr : Nat
  wdata : Byte
deriving DecidableEq, Repr

/-- One NV access of a command (20_memory.md R55, 41_store_commands.md R145, R150, R175). -/
inductive Access where
  /-- `MemWrite(addr, 1, v)`. -/
  | write (addr : Nat) (v : Byte)
  /-- `n <- MemRead(0, 1)`, INIT's read of the entry count. -/
  | readCount
  /-- `MemRead(1 + 6k + i, 1)`, INIT's read of byte `i` of entry `k`: an identifier byte for `i` in
  `0..4`, the interval for `i = 5`. -/
  | readEntry (k i : Nat)
deriving DecidableEq, Repr

/-- What an accepted command does once the NV accesses it is making are complete (log entry 21). -/
inductive Job where
  /-- INIT with R = 1, writing the empty-table marker. -/
  | initEmpty (now : Millis)
  /-- INIT with R = 0, reading the count. -/
  | initCount (now : Millis)
  /-- INIT with R = 0 and a count of `n`, reading the entries. -/
  | initEntries (now : Millis) (n : Byte)
  /-- ADD, persisting the slot it wrote. -/
  | add (slot : Nat) (evicted : Bool)
  /-- CLEAR, writing the zero-count marker. -/
  | clear
deriving DecidableEq, Repr

/-- An accepted command that has not responded: the accesses still to complete, the outstanding one
first (20_memory.md R59; log entry 21). -/
structure InFlight where
  job : Job
  todo : List Access
deriving DecidableEq, Repr

/-- The metered tag store (10_state.md R24, R30, R37). -/
structure Store where
  /-- `STORE.initialized`. -/
  initialized : Bool
  /-- `STORE.fault`: 0, or a sticky fault code (60_exceptions.md R201). -/
  fault : BitVec 4
  /-- `STORE.busy`. -/
  busy : Bool
  /-- `STORE.nowReg`. -/
  nowReg : Millis
  /-- `STORE.numEntries`. -/
  numEntries : Byte
  /-- `STORE.T`, slot 0 first; `CAPACITY` slots. -/
  table : List Entry
  /-- `rsp_valid`, `rsp_code`, `rsp_info`, `rsp_flag`. -/
  rsp : Response
  /-- `nv_req`, `nv_we`, `nv_addr`, `nv_wdata`. -/
  port : NvPort
  /-- The command in progress, if any. -/
  inFlight : Option InFlight
  /-- The model's own: free values this agent has drawn (log entry 11). -/
  draws : Nat
deriving DecidableEq, Repr

/-- What the NV responder puts on the port while an access is outstanding (20_memory.md R58). Neither
pulse: the access does not complete in this step. Both: it has failed. `landed` says whether a write
that fails here left the new byte rather than the old one (R60; log entry 15). -/
structure NvSample where
  ack : Bool
  err : Bool
  landed : Bool
deriving DecidableEq, Repr

/-- What the environment does in one step (log entry 2). -/
inductive Input where
  /-- `rst_n = 1`: the byte offered on `rx_data`, if `rx_valid = 1`, and the word offered on `cmd_data`,
  if `cmd_valid = 1`. -/
  | cycle (rx : Option Byte) (cmd : Option CmdWord)
  /-- `rst_n = 0` (70_reset_and_hazards.md R230), with what is offered at that edge. `landed` says
  whether an NV write in progress left the new byte (log entry 15). -/
  | reset (rx : Option Byte) (cmd : Option CmdWord) (landed : Bool)
  /-- Power is lost and comes back (20_memory.md R67, 70_reset_and_hazards.md R231). -/
  | powerLoss (landed : Bool)
deriving DecidableEq, Repr

/-- The whole machine, its NV byte space and its environment's schedule. -/
structure State where
  /-- The build's parameters (00_scope.md R7); no step changes them. -/
  cfg : Config
  /-- The tag frame decoder. -/
  dec : Decoder
  /-- The metered tag store. -/
  store : Store
  /-- The NV byte space (20_memory.md R57). -/
  nv : Memory
  /-- A reset edge has come since power was applied (70_reset_and_hazards.md R231). -/
  resetSeen : Bool
  /-- The model's own: what the environment does next, one entry a step; an empty list stands for
  cycles that offer nothing (log entry 2). -/
  inputs : List Input
  /-- The model's own: the NV responder's next samples (log entry 3). -/
  nvSamples : List NvSample
  /-- The model's own: the sample the NV responder gives for ever once `nvSamples` is used up. A
  responder that never completes an access gives neither pulse (20_memory.md R58; log entry 3). -/
  nvRest : NvSample
deriving DecidableEq, Repr

/-- Why a step has no next state. None of these is a store fault of 60_exceptions.md R201: those are
next states. -/
inductive Fault where
  /-- Raised by an NV access outside `0 .. TOTAL_BYTES-1`, which 20_memory.md R52 says no command makes
  (log entry 12). Safe: the model stops where the spec has no such address. -/
  | nvAddressAbsent
deriving DecidableEq, Repr

/-- Why the model declines to give a step a meaning. -/
inductive Refusal where
  /-- An instruction that has no meaning in `exec`. Raised by no arm: all six have one. Safe. -/
  | notModelled (mnemonic : String)
  /-- Raised by every step of a machine whose configuration is not well-formed: 'a model refuses any
  configuration that breaks one of these' (00_scope.md R9; log entry 13). Safe. -/
  | configurationRefused
deriving DecidableEq, Repr

/-- What a step or an operation answers. -/
abbrev Result := Host.Outcome State Fault Refusal

/-- The decoder after reset (10_state.md R35). The zeros of `buf`, `status` and `id` are DESIGN CHOICE
(log entry 6, unsafe). -/
def Decoder.atReset : Decoder where
  pos := 0
  buf := Vector.replicate 6 0
  valid := false
  status := 0
  id := 0
  draws := 0

/-- The store after reset (10_state.md R35), with `CAPACITY` slots. The zeros of `nowReg`, `table`, of
`rsp` but its `valid` and of `port` but its `req` are DESIGN CHOICE (log entry 6, unsafe). -/
def Store.atReset (capacity : Nat) : Store where
  initialized := false
  fault := 0
  busy := false
  nowReg := 0
  numEntries := 0
  table := List.replicate capacity Entry.blank
  rsp := ⟨false, 0, 0, false⟩
  port := ⟨false, false, 0, 0⟩
  inFlight := none
  draws := 0

/-- The machine built with `cfg`, right after the reset edge that follows its first power-up
(70_reset_and_hazards.md R231, R232), with nothing scheduled and an NV responder that acknowledges
(log entries 2 and 3). -/
def State.resetOf (cfg : Config) : State where
  cfg := cfg
  dec := .atReset
  store := .atReset cfg.capacity
  nv := []
  resetSeen := true
  inputs := []
  nvSamples := []
  nvRest := ⟨true, false, true⟩

/-- The machine right after reset (10_state.md R35), built with the default configuration. -/
def State.reset : State := .resetOf .default

end Sys2Proof.Machine
end

