-- ==== Sys2Proof/Machine/Operands.lean ====
section
/-! DEFINITION. What the operations compute from their operands: frame bytes, digits and nibbles; the
identifier's bytes and the NV layout; slots, elapsed time, lookup and the eviction arbiter. -/

namespace Sys2Proof.Machine

/-! ### The wire frame -/

/-- The start marker STX (00_scope.md R10). -/
def markSTX : Byte := 0x02
/-- The carriage-return marker CR (00_scope.md R10). -/
def markCR : Byte := 0x0D
/-- The line-feed marker LF (00_scope.md R10). -/
def markLF : Byte := 0x0A
/-- The end marker ETX (00_scope.md R10). -/
def markETX : Byte := 0x03

/-- `hexval` of 30_encoding.md R82 with the alphabet AF: the nibble of '0'-'9' (0x30-0x39) and of
'A'-'F' (0x41-0x46), none for every other byte. -/
def hexval (b : Byte) : Option Nibble :=
  if 0x30 ≤ b.toNat ∧ b.toNat ≤ 0x39 then some (BitVec.ofNat 4 (b.toNat - 0x30))
  else if 0x41 ≤ b.toNat ∧ b.toNat ≤ 0x46 then some (BitVec.ofNat 4 (b.toNat - 0x41 + 10))
  else none

/-- The byte with its bits `[7:4]` replaced (30_encoding.md R83). -/
def withHighNibble (old : Byte) (v : Nibble) : Byte := v ++ old.extractLsb' 0 4

/-- The byte with its bits `[3:0]` replaced (30_encoding.md R83). -/
def withLowNibble (old : Byte) (v : Nibble) : Byte := old.extractLsb' 4 4 ++ v

/-- `DEC.buf[j]`. -/
def bufByte (buf : Vector Byte 6) (j : Nat) : Byte := buf[j]?.getD 0

/-- STORE_NIBBLE of 40_tag_decoder.md R114: the digit at position `p` goes into byte `(p - 1) div 2`,
into the high nibble for odd `p`, into the low one for even `p`. -/
def storeNibble (p : Nat) (v : Nibble) (buf : Vector Byte 6) : Vector Byte 6 :=
  let j := (p - 1) / 2
  buf.setIfInBounds j
    (if p % 2 = 1 then withHighNibble (bufByte buf j) v else withLowNibble (bufByte buf j) v)

/-- The exclusive-or of the five data bytes (30_encoding.md R84). -/
def xorData (buf : Vector Byte 6) : Byte :=
  bufByte buf 0 ^^^ bufByte buf 1 ^^^ bufByte buf 2 ^^^ bufByte buf 3 ^^^ bufByte buf 4

/-- The identifier in the buffer, `buf[0]` its first byte (40_tag_decoder.md R118). -/
def bufTag (buf : Vector Byte 6) : TagId :=
  ⟨bufByte buf 0, bufByte buf 1, bufByte buf 2, bufByte buf 3, bufByte buf 4⟩

/-! ### Identifier bytes and the persistent layout -/

/-- `id[i]`, for `i` in `0..4` (00_scope.md R14). -/
def tagByte (t : TagId) : Nat → Byte
  | 0 => t.b0
  | 1 => t.b1
  | 2 => t.b2
  | 3 => t.b3
  | _ => t.b4

/-- `id[i] <- v`, for `i` in `0..4` (00_scope.md R14). -/
def setTagByte (t : TagId) (i : Nat) (v : Byte) : TagId :=
  match i with
  | 0 => { t with b0 := v }
  | 1 => { t with b1 := v }
  | 2 => { t with b2 := v }
  | 3 => { t with b3 := v }
  | _ => { t with b4 := v }

/-- The address of the entry count (20_memory.md R51). -/
def countAddr : Nat := 0

/-- The address of byte `i` of entry `k`: `1 + 6k + i` (20_memory.md R51). -/
def entryAddr (k i : Nat) : Nat := 1 + 6 * k + i

/-- Byte `i` of a slot's persistent form: an identifier byte for `i` in `0..4`, the interval for
`i = 5` (20_memory.md R51). -/
def persistedByte (e : Entry) (i : Nat) : Byte := if i < 5 then tagByte e.id i else e.interval

/-- The address an access goes to (41_store_commands.md R145, R150). -/
def accessAddr : Access → Nat
  | .write a _ => a
  | .readCount => countAddr
  | .readEntry k i => entryAddr k i

/-- The seven writes of `PersistEntry(s)`, in order: the identifier bytes, the interval, the count
(41_store_commands.md R145). -/
def persistWrites (s : Nat) (e : Entry) (count : Byte) : List Access :=
  [ .write (entryAddr s 0) (persistedByte e 0), .write (entryAddr s 1) (persistedByte e 1),
    .write (entryAddr s 2) (persistedByte e 2), .write (entryAddr s 3) (persistedByte e 3),
    .write (entryAddr s 4) (persistedByte e 4), .write (entryAddr s 5) (persistedByte e 5),
    .write countAddr count ]

/-- The six reads of entry `k`, in order (41_store_commands.md R150). -/
def entryReads (k : Nat) : List Access :=
  [.readEntry k 0, .readEntry k 1, .readEntry k 2, .readEntry k 3, .readEntry k 4, .readEntry k 5]

/-- INIT's reads of the entries `k .. k+m-1`, ascending (41_store_commands.md R150). -/
def loadReads (k : Nat) : Nat → List Access
  | 0 => []
  | m + 1 => entryReads k ++ loadReads (k + 1) m

/-! ### Slots, time, lookup, eviction -/

/-- `SENTINEL_MAX` (00_scope.md R10): 'assume it's been long enough'. -/
def sentinelMax : Millis := 0xFFFFFFFF

/-- `T[k]`. -/
def slot (st : Store) (k : Nat) : Entry := st.table.getD k Entry.blank

/-- `T[k] <- e`. -/
def setSlot (st : Store) (k : Nat) (e : Entry) : Store := { st with table := st.table.set k e }

/-- The whole seconds since an entry's baseline at clock `now`, plus those banked: each quotient is
floored on its own (41_store_commands.md R141). -/
def elapsedOf (now : Millis) (e : Entry) : Nat :=
  (now - e.lastGrant).toNat / 1000 + e.carry.toNat / 1000

/-- `Elapsed(k)` (41_store_commands.md R141). -/
def elapsed (st : Store) (k : Nat) : Nat := elapsedOf st.nowReg (slot st k)

/-- `Required(k)` (41_store_commands.md R142). -/
def required (cfg : Config) (st : Store) (k : Nat) : Nat :=
  (slot st k).interval.toNat * cfg.timeUnitS

/-- `Lookup(id)`: the least occupied slot that holds `id` (41_store_commands.md R143). -/
def lookup (st : Store) (id : TagId) : Option Nat :=
  (st.table.take st.numEntries.toNat).findIdx? (fun e => decide (e.id = id))

/-- `MakeEligible(k)` (41_store_commands.md R144), as a change of the entry. -/
def makeEligible (now : Millis) (e : Entry) : Entry :=
  { e with carry := sentinelMax, lastGrant := now }

/-- The fold of one entry at a wrap to reading `new` (41_store_commands.md R155): the time since its
baseline, up to the previous reading, is banked. -/
def foldEntry (prev new : Millis) (e : Entry) : Entry :=
  { e with carry := sat32 (e.carry.toNat + (prev - e.lastGrant).toNat), lastGrant := new }

/-- The fold of every occupied slot (41_store_commands.md R155). -/
def foldTable (prev new : Millis) (n : Nat) (table : List Entry) : List Entry :=
  (table.take n).map (foldEntry prev new) ++ table.drop n

/-- One comparison of the arbiter: strictly greater wins (41_store_commands.md R165). -/
def betterVictim (st : Store) (best k : Nat) : Nat :=
  if elapsed st k > elapsed st best then k else best

/-- `SelectVictim()` over `CAPACITY` slots (41_store_commands.md R165). -/
def selectVictim (capacity : Nat) (st : Store) : Nat :=
  (List.range' 1 (capacity - 1)).foldl (betterVictim st) 0

end Sys2Proof.Machine
end

