-- ==== Sys2Proof/Machine/Flags.lean ====
section
/-! DEFINITION. Result, response and fault codes, the status outputs, and the output registers while
they carry nothing. RFIDMETER-CORE has no condition codes (10_state.md R31). -/

namespace Sys2Proof.Machine

/-! ### Codes -/

/-- `dec_status` OK (30_encoding.md R92). -/
def statusOK : BitVec 2 := 0b00
/-- `dec_status` FRAMING (30_encoding.md R92). -/
def statusFraming : BitVec 2 := 0b01
/-- `dec_status` ENCODING (30_encoding.md R92). -/
def statusEncoding : BitVec 2 := 0b10
/-- `dec_status` CHECKSUM (30_encoding.md R92). -/
def statusChecksum : BitVec 2 := 0b11

/-- `rsp_code` OK (30_encoding.md R93). -/
def codeOK : BitVec 4 := 0x0
/-- `rsp_code` ALLOWED (30_encoding.md R93). -/
def codeAllowed : BitVec 4 := 0x1
/-- `rsp_code` DENIED (30_encoding.md R93). -/
def codeDenied : BitVec 4 := 0x2
/-- `rsp_code` UNKNOWN (30_encoding.md R93). -/
def codeUnknown : BitVec 4 := 0x3
/-- `rsp_code` and fault code ILLEGAL_CMD (30_encoding.md R93, 60_exceptions.md R201). -/
def codeIllegalCmd : BitVec 4 := 0x8
/-- `rsp_code` and fault code NOT_INIT (30_encoding.md R93, 60_exceptions.md R201). -/
def codeNotInit : BitVec 4 := 0x9
/-- `rsp_code` and fault code NV_FAULT (30_encoding.md R93, 60_exceptions.md R201). -/
def codeNvFault : BitVec 4 := 0xA
/-- `rsp_code` and fault code LOAD_FAULT (30_encoding.md R93, 60_exceptions.md R201). -/
def codeLoadFault : BitVec 4 := 0xB
/-- `rsp_code` FAULTED (30_encoding.md R93). -/
def codeFaulted : BitVec 4 := 0xC

/-! ### Status outputs and ready outputs, which mirror the state -/

/-- `st_init` (10_state.md R29). -/
def stInit (s : State) : Bool := s.store.initialized
/-- `st_fault` (10_state.md R29). -/
def stFault (s : State) : BitVec 4 := s.store.fault
/-- `st_count` (10_state.md R29). -/
def stCount (s : State) : Byte := s.store.numEntries
/-- `cmd_ready = NOT STORE.busy` (10_state.md R37). -/
def cmdReady (s : State) : Bool := !s.store.busy
/-- `rx_ready`, constant 1 (10_state.md R36). -/
def rxReady (_ : State) : Bool := true

/-! ### Output registers that carry nothing -/

/-- The decoder's outputs in a cycle without a result: `dec_valid = 0`, the others unspecified
(10_state.md R25; log entry 8). -/
def noResult (d : Decoder) : Decoder :=
  { d with
    valid := false
    status := Config.freeDecStatus d.draws
    id := Config.freeDecId d.draws
    draws := d.draws + 1 }

/-- The response registers outside a response: `rsp_valid = 0`, the others unspecified (10_state.md
R30; log entry 9). -/
def noResponse (draw : Nat) : Response :=
  ⟨false, Config.freeRspCode draw, Config.freeRspInfo draw, Config.freeRspFlag draw⟩

/-- The NV port while no access is requested: `nv_req = 0`, the others unspecified (10_state.md R35;
log entry 10), the address within the port's width. -/
def idlePort (cfg : Config) (draw : Nat) : NvPort :=
  ⟨false, Config.freeNvWe draw, Config.freeNvAddr draw % 2 ^ cfg.nvAddrW, Config.freeNvWdata draw⟩

end Sys2Proof.Machine
end

