-- ==== Sys2Proof/Machine/Ops.lean ====
section
/-! DEFINITION. The shared operations: the NV byte space and its port, the response, fault entry, the
progress of a command through its NV accesses, acceptance, and reset. -/

namespace Sys2Proof.Machine

/-! ### The NV byte space (20_memory.md R57) -/

/-- `MemRead(a, 1)`: the most recent byte written to `a`, else its byte of `NV_INIT`. -/
def Memory.read (init : List Byte) (a : Nat) : Memory → Byte
  | [] => Config.initByte init a
  | (b, v) :: rest => if a = b then v else Memory.read init a rest

/-- The list with `v` at `a` put in front of `rest`, or `rest` alone where `v` is what `a` reads as
unlisted. -/
def Memory.putCell (init : List Byte) (a : Nat) (v : Byte) (rest : Memory) : Memory :=
  if v = Config.initByte init a then rest else (a, v) :: rest

/-- `MemWrite(a, 1, v)`, keeping the canonical form. -/
def Memory.write (init : List Byte) (a : Nat) (v : Byte) : Memory → Memory
  | [] => Memory.putCell init a v []
  | (b, w) :: rest =>
    if a < b then Memory.putCell init a v ((b, w) :: rest)
    else if a = b then Memory.putCell init a v rest
    else (b, w) :: Memory.write init a v rest

/-- The canonical form: addresses strictly rising from `lo`, all below `size`, no byte equal to the
`NV_INIT` byte of its address. -/
def Memory.wfFrom (init : List Byte) (size lo : Nat) : Memory → Bool
  | [] => true
  | (a, v) :: rest =>
    decide (lo ≤ a) && decide (a < size) && decide (v ≠ Config.initByte init a)
      && Memory.wfFrom init size (a + 1) rest

/-- The canonical form of the NV byte space of a build (20_memory.md R50, R57; log entry 5). -/
def Memory.wf (cfg : Config) (m : Memory) : Bool := Memory.wfFrom cfg.nvInit cfg.totalBytes 0 m

/-- The byte at `a` of the NV byte space. -/
def readNv (s : State) (a : Nat) : Byte := s.nv.read s.cfg.nvInit a

/-- The byte at `a` becomes `v`. -/
def writeNv (a : Nat) (v : Byte) (s : State) : State :=
  { s with nv := s.nv.write s.cfg.nvInit a v }

/-! ### Responding and fault entry -/

/-- `respond(code, info, flag)` (41_store_commands.md R140): the pulse, and `STORE.busy <- 0`. No NV
access is outstanding (20_memory.md R58). -/
def respond (code : BitVec 4) (info : Byte) (flag : Bool) (s : State) : State :=
  { s with store := { s.store with
      busy := false
      inFlight := none
      rsp := ⟨true, code, info, flag⟩
      port := idlePort s.cfg s.store.draws
      draws := s.store.draws + 1 } }

/-- `raise Fault(code)` (60_exceptions.md R203): the code is recorded and is the response; whatever was
done stays done. -/
def raiseFault (code : BitVec 4) (s : State) : State :=
  respond code 0 false { s with store := { s.store with fault := code } }

/-! ### One NV access (20_memory.md R58-R60) -/

/-- The port as an access drives it. `nv_wdata` during a read is unspecified (log entry 10). -/
def drivenPort (draw : Nat) : Access → NvPort
  | .write a v => ⟨true, true, a, v⟩
  | .readCount => ⟨true, false, countAddr, Config.freeNvWdata draw⟩
  | .readEntry k i => ⟨true, false, entryAddr k i, Config.freeNvWdata draw⟩

/-- The access is requested. While it is outstanding the port holds still (20_memory.md R58). -/
def issue (a : Access) (s : State) : State :=
  if s.store.port.req then s
  else { s with store := { s.store with
      port := drivenPort s.store.draws a, draws := s.store.draws + 1 } }

/-- The responder's sample `i` from now: a scheduled one, or, past those, the one it gives for ever (log
entry 3). -/
def sampleAt (i : Nat) (s : State) : NvSample := s.nvSamples.getD i s.nvRest

/-- The responder's next sample, which is used up. -/
def nextSample (s : State) : NvSample × State :=
  (sampleAt 0 s, { s with nvSamples := s.nvSamples.tail })

/-- `nv_req` falls once the access has completed (20_memory.md R58). -/
def releasePort (s : State) : State :=
  { s with store := { s.store with port := { s.store.port with req := false } } }

/-- The access's effect on the NV byte space: a write writes, a read has none (20_memory.md R56). -/
def performAccess : Access → State → State
  | .write a v, s => writeNv a v s
  | .readCount, s => s
  | .readEntry _ _, s => s

/-- How an access stands at the end of a sample. -/
inductive Accessed where
  /-- Completed with `nv_ack`; `rdata` is the byte at the address. -/
  | acked (rdata : Byte) (s : State)
  /-- Not completed; it stays outstanding. -/
  | waiting (s : State)
  /-- Completed with `nv_err`. -/
  | failed (s : State)
  /-- The address is not one of the NV byte space (log entry 12). -/
  | absent
deriving Repr

/-- One sample of an outstanding access: `nv_err` wins over `nv_ack` (20_memory.md R58); a failed write
leaves the old byte or the new one (R60; log entry 15). -/
def access (a : Access) (s : State) : Accessed :=
  if accessAddr a < s.cfg.totalBytes then
    let (x, s') := nextSample (issue a s)
    if x.err then .failed (releasePort (if x.landed then performAccess a s' else s'))
    else if x.ack then .acked (readNv s' (accessAddr a)) (releasePort (performAccess a s'))
    else .waiting s'
  else .absent

/-! ### A command's progress through its NV accesses -/

/-- What INIT does with a byte of an entry it has read (41_store_commands.md R150): an identifier byte
goes into the slot; after the interval the timing fields take the sentinel and 0 (R152). -/
def loadEntryByte (e : Entry) (i : Nat) (v : Byte) : Entry :=
  if i < 5 then { e with id := setTagByte e.id i v }
  else { e with interval := v, carry := sentinelMax, lastGrant := 0 }

/-- The effect on the SRAM table of a completed access. -/
def landAccess : Access → Byte → State → State
  | .write _ _, _, s => s
  | .readCount, _, s => s
  | .readEntry k i, v, s =>
    { s with store := setSlot s.store k (loadEntryByte (slot s.store k) i v) }

/-- The command stays in progress, its first remaining access outstanding: `STORE.busy = 1`, no
response (10_state.md R24, R30). -/
def park (job : Job) (todo : List Access) (s : State) : State :=
  { s with store := { s.store with
      busy := true
      inFlight := some ⟨job, todo⟩
      rsp := noResponse s.store.draws
      draws := s.store.draws + 1 } }

/-- How a list of accesses stands. -/
inductive Driven where
  /-- All have completed; `last` is the last byte read. -/
  | done (last : Byte) (s : State)
  /-- The step ends here. -/
  | stopped (r : Result)
deriving Repr

/-- The accesses in order, each issued after the one before it has completed with `nv_ack`
(20_memory.md R59). A failure ends the command with NV_FAULT (41_store_commands.md R146). -/
def drive (job : Job) : List Access → Byte → State → Driven
  | [], last, s => .done last s
  | a :: rest, _, s =>
    match access a s with
    | .absent => .stopped (.fault .nvAddressAbsent)
    | .failed s' => .stopped (.next (raiseFault codeNvFault s'))
    | .waiting s' => .stopped (.next (park job (a :: rest) s'))
    | .acked v s' => drive job rest v (landAccess a v s')

/-- INIT's last steps (41_store_commands.md R150): the count, the clock baseline, `initialized`. -/
def commitInit (n : Byte) (now : Millis) (r : Bool) (s : State) : State :=
  respond codeOK n r
    { s with store := { s.store with numEntries := n, nowReg := now, initialized := true } }

/-- INIT with the entries read. -/
def finishLoad (now : Millis) (n : Byte) : Driven → Result
  | .stopped r => r
  | .done _ s => .next (commitInit n now false s)

/-- INIT with a count of `n` read: LOAD_FAULT above `CAPACITY` (41_store_commands.md R151), else the
entries. -/
def loadEntries (now : Millis) (n : Byte) (s : State) : Result :=
  if s.cfg.capacity < n.toNat then .next (raiseFault codeLoadFault s)
  else finishLoad now n (drive (.initEntries now n) (loadReads 0 n.toNat) 0 s)

/-- What a command does when the accesses it was making are complete. -/
def conclude : Job → Byte → State → Result
  | .initEmpty now, _, s => .next (commitInit 0 now true s)
  | .initCount now, n, s => loadEntries now n s
  | .initEntries now n, _, s => .next (commitInit n now false s)
  | .add k evicted, _, s => .next (respond codeOK (BitVec.ofNat 8 k) evicted s)
  | .clear, _, s => .next (respond codeOK 0 false s)

/-- A command makes its accesses and then concludes. -/
def runJob (job : Job) (todo : List Access) (s : State) : Result :=
  match drive job todo 0 s with
  | .stopped r => r
  | .done last s' => conclude job last s'

/-! ### The store in one step -/

/-- A busy store goes on with its command (20_memory.md R58, R61). -/
def resume (s : State) : Result :=
  match s.store.inFlight with
  | some f => runJob f.job f.todo s
  | none => .next { s with store := { s.store with
      rsp := noResponse s.store.draws, draws := s.store.draws + 1 } }

/-- A step in which no command is accepted: a busy store goes on with its command, an idle one shows no
response and requests no access. -/
def storeTick (s : State) : Result :=
  if s.store.busy then resume s
  else .next { s with store := { s.store with
      rsp := noResponse s.store.draws
      port := idlePort s.cfg s.store.draws
      draws := s.store.draws + 1 } }

/-- `STORE.busy <- 1`, the first thing an accepted command does (41_store_commands.md R140). -/
def beginCommand (s : State) : State := { s with store := { s.store with busy := true } }

/-- The acceptance of a command (41_store_commands.md R140). Offered to a busy store it is not accepted
(10_state.md R37; log entry 16). A store in the fault state answers FAULTED. `trap` is the fault the
acceptance checks find next; without one, `body` runs. -/
def accept (trap : Option (BitVec 4)) (body : State → Result) (s : State) : Result :=
  if s.store.busy then storeTick s
  else if s.store.fault ≠ 0 then .next (respond codeFaulted 0 false (beginCommand s))
  else
    match trap with
    | some code => .next (raiseFault code (beginCommand s))
    | none => body (beginCommand s)

/-- The check that every command but INIT passes through: NOT_INIT while `STORE.initialized = 0`
(41_store_commands.md R140). -/
def initTrap (s : State) : Option (BitVec 4) :=
  if s.store.initialized then none else some codeNotInit

/-- An illegal word (30_encoding.md R91) is accepted and raises ILLEGAL_CMD (41_store_commands.md R140;
log entry 20). -/
def offerIllegal (s : State) : Result := accept (some codeIllegalCmd) .next s

/-- A step of the decoder with `rx_valid = 0`: position and buffer stand still (40_tag_decoder.md
R110). -/
def decTick (s : State) : State := { s with dec := noResult s.dec }

/-! ### Reset and power -/

/-- A write is outstanding on the NV port. Before the first reset edge no command is in progress and
the NV byte space stays as it was left (70_reset_and_hazards.md R231). -/
def writeOutstanding (s : State) : Bool :=
  s.resetSeen && s.store.port.req && s.store.port.we
    && decide (s.store.port.addr < s.cfg.totalBytes)

/-- The NV byte space when an access in progress is abandoned: a write leaves the old byte or the new
one (70_reset_and_hazards.md R230, 20_memory.md R67; log entry 15). -/
def abandonAccess (landed : Bool) (s : State) : State :=
  if writeOutstanding s && landed then writeNv s.store.port.addr s.store.port.wdata s else s

/-- The decoder after a reset edge (10_state.md R35); what R35 leaves unspecified is free (log entry
7). -/
def resetDecoder (d : Decoder) : Decoder :=
  noResult { d with pos := 0, buf := Vector.ofFn fun j => Config.freeDecBuf d.draws j.val }

/-- A slot with unspecified contents (10_state.md R35; log entry 7). -/
def freeSlot (draw k : Nat) : Entry :=
  ⟨Config.freeSlotId draw k, Config.freeSlotInterval draw k, Config.freeSlotCarry draw k,
    Config.freeSlotLastGrant draw k⟩

/-- The store after a reset edge (10_state.md R35); what R35 leaves unspecified is free (log entry
7). -/
def resetStore (cfg : Config) (st : Store) : Store where
  initialized := false
  fault := 0
  busy := false
  nowReg := Config.freeNowReg st.draws
  numEntries := 0
  table := (List.range cfg.capacity).map (freeSlot st.draws)
  rsp := noResponse st.draws
  port := idlePort cfg st.draws
  inFlight := none
  draws := st.draws + 1

/-- Hardware reset (70_reset_and_hazards.md R230). -/
def hardReset (landed : Bool) (s : State) : State :=
  let s' := abandonAccess landed s
  { s' with dec := resetDecoder s.dec, store := resetStore s.cfg s.store, resetSeen := true }

/-- The decoder between power-up and the first reset edge: nothing is specified (10_state.md R33,
70_reset_and_hazards.md R231; log entry 14). -/
def unpoweredDecoder (d : Decoder) : Decoder where
  pos := Config.freeDecPos d.draws
  buf := Vector.ofFn fun j => Config.freeDecBuf d.draws j.val
  valid := Config.freeDecValid d.draws
  status := Config.freeDecStatus d.draws
  id := Config.freeDecId d.draws
  draws := d.draws + 1

/-- The store between power-up and the first reset edge: nothing is specified (10_state.md R33,
70_reset_and_hazards.md R231; log entry 14). -/
def unpoweredStore (cfg : Config) (st : Store) : Store where
  initialized := Config.freeInitialized st.draws
  fault := Config.freeFault st.draws
  busy := Config.freeBusy st.draws
  nowReg := Config.freeNowReg st.draws
  numEntries := Config.freeNumEntries st.draws
  table := (List.range cfg.capacity).map (freeSlot st.draws)
  rsp := { noResponse st.draws with valid := Config.freeRspValid st.draws }
  port := { idlePort cfg st.draws with req := Config.freeNvReq st.draws }
  inFlight := none
  draws := st.draws + 1

/-- Power is lost and comes back, before any reset edge: only the NV byte space survives (10_state.md
R33, 60_exceptions.md R212, 20_memory.md R67). -/
def losePower (landed : Bool) (s : State) : State :=
  let s' := abandonAccess landed s
  { s' with dec := unpoweredDecoder s.dec, store := unpoweredStore s.cfg s.store, resetSeen := false }

/-- A cycle between power-up and the first reset edge: 'the state is unspecified and no rule applies',
and the NV byte space is as it was left (70_reset_and_hazards.md R231; log entry 14). -/
def unpoweredCycle (s : State) : State :=
  { s with dec := unpoweredDecoder s.dec, store := unpoweredStore s.cfg s.store }

/-! ### Two agents in one step -/

/-- The second agent's part of a step, after the first one's. -/
def andThen (r : Result) (f : State → Result) : Result :=
  match r with
  | .next s => f s
  | .fault e => .fault e
  | .refused e => .refused e

end Sys2Proof.Machine
end

