-- ==== Sys2Proof/Machine/StoreCommands.lean ====
section
/-! DEFINITION. The metered tag store's five commands (41_store_commands.md). Each is offered through
`accept` (R140). -/

namespace Sys2Proof.Machine

/-- INIT, accepted (41_store_commands.md R150): with R = 1 the empty-table marker is written, with R = 0
the count is read. -/
def runInit (resetRequested : Bool) (now : Millis) (s : State) : Result :=
  if resetRequested then runJob (.initEmpty now) [.write countAddr 0] s
  else runJob (.initCount now) [.readCount] s

/-- INIT R, NOW (41_store_commands.md R150). The only command legal while `STORE.initialized = 0`. -/
def execInit (resetRequested : Bool) (now : Millis) (s : State) : Result :=
  accept none (runInit resetRequested now) s

/-- A wrap: the new reading is below the last one (41_store_commands.md R155). -/
def wraps (now : Millis) (st : Store) : Bool := decide (now < st.nowReg)

/-- The table after ADVANCE (41_store_commands.md R155). -/
def advanceTable (now : Millis) (st : Store) : List Entry :=
  if wraps now st then foldTable st.nowReg now st.numEntries.toNat st.table else st.table

/-- ADVANCE, accepted (41_store_commands.md R155). -/
def runAdvance (now : Millis) (s : State) : Result :=
  .next (respond codeOK s.store.numEntries (wraps now s.store)
    { s with store := { s.store with table := advanceTable now s.store, nowReg := now } })

/-- ADVANCE NOW (41_store_commands.md R155). -/
def execAdvance (now : Millis) (s : State) : Result := accept (initTrap s) (runAdvance now) s

/-- The grant of slot `k` (41_store_commands.md R160): carry 0, the baseline at the clock. -/
def grantSlot (k : Nat) (st : Store) : Store :=
  setSlot st k { slot st k with carry := 0, lastGrant := st.nowReg }

/-- CHECK, accepted (41_store_commands.md R160). -/
def runCheck (id : TagId) (s : State) : Result :=
  match lookup s.store id with
  | none => .next (respond codeUnknown 0 false s)
  | some k =>
    if required s.cfg s.store k ≤ elapsed s.store k then
      .next (respond codeAllowed (BitVec.ofNat 8 k) false { s with store := grantSlot k s.store })
    else .next (respond codeDenied (BitVec.ofNat 8 k) false s)

/-- CHECK ID (41_store_commands.md R160). -/
def execCheck (id : TagId) (s : State) : Result := accept (initTrap s) (runCheck id) s

/-- Where ADD puts an entry (41_store_commands.md R170): the slot, the count afterwards, and whether an
entry is evicted. -/
structure Placement where
  slot : Nat
  count : Byte
  evicted : Bool
deriving DecidableEq, Repr

/-- The placement of `id` (41_store_commands.md R170): its own slot, else the next free one, else the
arbiter's victim (R165). -/
def placeTag (cfg : Config) (st : Store) (id : TagId) : Placement :=
  match lookup st id with
  | some k => ⟨k, st.numEntries, false⟩
  | none =>
    if st.numEntries.toNat < cfg.capacity then
      ⟨st.numEntries.toNat, st.numEntries + 1, false⟩
    else ⟨selectVictim cfg.capacity st, st.numEntries, true⟩

/-- The entry ADD writes: `id`, `interval`, then MakeEligible (41_store_commands.md R144, R170). -/
def addedEntry (id : TagId) (interval : Byte) (st : Store) : Entry :=
  ⟨id, interval, sentinelMax, st.nowReg⟩

/-- The store with the entry in its place (41_store_commands.md R170), before PersistEntry. -/
def addToTable (p : Placement) (id : TagId) (interval : Byte) (st : Store) : Store :=
  { setSlot st p.slot (addedEntry id interval st) with numEntries := p.count }

/-- ADD, accepted (41_store_commands.md R170): the table first, then the seven writes of
PersistEntry (R145). -/
def runAdd (id : TagId) (interval : Byte) (s : State) : Result :=
  let p := placeTag s.cfg s.store id
  runJob (.add p.slot p.evicted)
    (persistWrites p.slot (addedEntry id interval s.store) p.count)
    { s with store := addToTable p id interval s.store }

/-- ADD ID, INTERVAL (41_store_commands.md R170). -/
def execAdd (id : TagId) (interval : Byte) (s : State) : Result :=
  accept (initTrap s) (runAdd id interval) s

/-- CLEAR, accepted (41_store_commands.md R175): the count in SRAM first, then the zero-count marker. -/
def runClear (s : State) : Result :=
  runJob .clear [.write countAddr 0] { s with store := { s.store with numEntries := 0 } }

/-- CLEAR (41_store_commands.md R175). -/
def execClear (s : State) : Result := accept (initTrap s) runClear s

end Sys2Proof.Machine
end

