-- ==== Sys2Proof/Machine/TagDecoder.lean ====
section
/-! DEFINITION. The tag frame decoder's one operation, RX (40_tag_decoder.md). -/

namespace Sys2Proof.Machine

/-- `emit(OK, id)` (40_tag_decoder.md R111). -/
def emitOk (t : TagId) (d : Decoder) : Decoder :=
  { d with pos := 0, valid := true, status := statusOK, id := t.toField, draws := d.draws + 1 }

/-- `emit(status, -)` for an error: `dec_id` is unspecified (40_tag_decoder.md R111; log entry 8). -/
def emitError (status : BitVec 2) (d : Decoder) : Decoder :=
  { d with
    pos := 0
    valid := true
    status := status
    id := Config.freeDecId d.draws
    draws := d.draws + 1 }

/-- The byte is in its place: the decoder goes to position `p`, with no result this cycle
(40_tag_decoder.md R110). -/
def goTo (p : BitVec 4) (d : Decoder) : Decoder := { noResult d with pos := p }

/-- POS0 (40_tag_decoder.md R112). -/
def rxStart (b : Byte) (d : Decoder) : Decoder :=
  if b = markSTX then goTo 1 d else emitError statusFraming d

/-- DIGIT at positions 1-12 (40_tag_decoder.md R113, R114). -/
def rxDigit (b : Byte) (d : Decoder) : Decoder :=
  match hexval b with
  | none => emitError statusEncoding d
  | some v => goTo (d.pos + 1) { d with buf := storeNibble d.pos.toNat v d.buf }

/-- MARK at positions 13 and 14: the marker, and the position after it (40_tag_decoder.md R115,
R116). -/
def rxMark (mark : Byte) (next : BitVec 4) (b : Byte) (d : Decoder) : Decoder :=
  if b = mark then goTo next d else emitError statusFraming d

/-- CHECKSUM_COMPARE (40_tag_decoder.md R118). -/
def compareChecksum (d : Decoder) : Decoder :=
  if xorData d.buf = bufByte d.buf 5 then emitOk (bufTag d.buf) d else emitError statusChecksum d

/-- LAST at position 15: the end marker before the checksum (40_tag_decoder.md R117). -/
def rxLast (b : Byte) (d : Decoder) : Decoder :=
  if b = markETX then compareChecksum d else emitError statusFraming d

/-- The byte at the decoder's position (40_tag_decoder.md R110). -/
def rxByte (b : Byte) (d : Decoder) : Decoder :=
  if d.pos = 0 then rxStart b d
  else if d.pos.toNat ≤ 12 then rxDigit b d
  else if d.pos = 13 then rxMark markCR 14 b d
  else if d.pos = 14 then rxMark markLF 15 b d
  else rxLast b d

/-- RX: consume one byte (40_tag_decoder.md R110). The store and the NV byte space are not touched
(00_scope.md R2). -/
def execRx (b : Byte) (s : State) : Result := .next { s with dec := rxByte b s.dec }

end Sys2Proof.Machine
end

