-- ==== Sys2Proof/Machine/Dispatch.lean ====
section
/-! DEFINITION. One arm per operation. -/

namespace Sys2Proof.Machine

def exec (i : Instr) (s : State) : Host.Outcome State Fault Refusal :=
  match i with
  | .rx b => Sys2Proof.Machine.execRx b s
  | .init resetRequested now => Sys2Proof.Machine.execInit resetRequested now s
  | .advance now => Sys2Proof.Machine.execAdvance now s
  | .check id => Sys2Proof.Machine.execCheck id s
  | .add id interval => Sys2Proof.Machine.execAdd id interval s
  | .clear => Sys2Proof.Machine.execClear s

end Sys2Proof.Machine
end

