-- ==== Sys2Proof/Machine/Ports.lean ====
section
/-! DEFINITION. What one entry of the environment's schedule makes the machine do: the ports' words are
decoded and executed, the agent without a word ticks, reset and loss of power override both. -/

namespace Sys2Proof.Machine

/-- The decoder's part of a cycle (40_tag_decoder.md R110). -/
def cycleDecoder (rx : Option Byte) (s : State) : Result :=
  match rx with
  | none => .next (decTick s)
  | some b =>
    match decode (.rxByte b) with
    | .ok i => exec i s
    | .error _ => .next (decTick s)

/-- The store's part of a cycle (41_store_commands.md R140). -/
def cycleStore (cmd : Option CmdWord) (s : State) : Result :=
  match cmd with
  | none => storeTick s
  | some w =>
    match decode (.cmdWord w) with
    | .ok i => exec i s
    | .error _ => offerIllegal s

/-- One entry of the schedule. Reset takes priority over everything else at its edge: what is offered
there is neither consumed nor accepted (70_reset_and_hazards.md R230). Before the first reset edge
after power-up the state is unspecified (R231; log entry 14). -/
def applyInput (i : Input) (s : State) : Result :=
  match i with
  | .powerLoss landed => .next (losePower landed s)
  | .reset _ _ landed => .next (hardReset landed s)
  | .cycle rx cmd =>
    if s.resetSeen then andThen (cycleDecoder rx s) (cycleStore cmd)
    else .next (unpoweredCycle s)

/-- The next entry of the schedule, and the state without it; with none left, a cycle that offers
nothing (log entry 2). -/
def takeInput (s : State) : Input × State :=
  match s.inputs with
  | [] => (.cycle none none, s)
  | i :: rest => (i, { s with inputs := rest })

/-- One step. A configuration that breaks 00_scope.md R9 is refused (log entry 13). -/
def stepMachine (s : State) : Result :=
  if s.cfg.wellFormed then applyInput (takeInput s).1 (takeInput s).2
  else .refused .configurationRefused

/-- The cycle that offers a port's word and nothing else. -/
def offering : PortWord → Input
  | .rxByte b => .cycle (some b) none
  | .cmdWord w => .cycle none (some w)

end Sys2Proof.Machine
end

