-- ==== Sys2Proof/Machine/Step.lean ====
section
/-! DEFINITION. One step of the machine, and how an operation is placed where the next step takes it. -/

namespace Sys2Proof.Machine

/-- One step: the next entry of the environment's schedule (70_reset_and_hazards.md R241). -/
def step (s : State) : Host.Outcome State Fault Refusal := stepMachine s

/-- The state whose next step offers the `nbits` bits of value `w` on the port they belong to, before
whatever is scheduled already. RFIDMETER-CORE fetches nothing (10_state.md R21); this stands for the
host or the byte source offering the word (log entry 2). -/
def State.withFetchWord (s : State) (nbits w : Nat) : State :=
  match portWordOf nbits w with
  | none => s
  | some p => { s with inputs := offering p :: s.inputs }

end Sys2Proof.Machine
end

