-- ==== Sys2Proof/Safety.lean ====
section
/-! DEFINITION. The terms in which statements about the machine are made: what holds in every state of
a run, when a command is accepted, what a response is, which bytes and slots a command leaves alone. -/

namespace Sys2Proof.Machine

/-! ### Conditions on a state -/

/-- The store accepts the next command and no fault is recorded (41_store_commands.md R140). -/
def Ready (s : State) : Prop := s.store.busy = false ∧ s.store.fault = 0

/-- Every command but INIT executes (41_store_commands.md R140). -/
def Serving (s : State) : Prop := Ready s ∧ s.store.initialized = true

/-- The NV responder's next `n` samples acknowledge (20_memory.md R58). -/
def acksNext (n : Nat) (s : State) : Bool :=
  (List.range n).all fun i => (sampleAt i s).ack && !(sampleAt i s).err

/-- The build is one a model runs and the table has its `CAPACITY` slots (00_scope.md R8, R9). -/
def Built (s : State) : Prop :=
  s.cfg.wellFormed = true ∧ s.store.table.length = s.cfg.capacity

/-- `Built`, with an NV byte space in canonical form (20_memory.md R57). -/
def Sound (s : State) : Prop := Built s ∧ Memory.wf s.cfg s.nv = true

/-- The NV responder acknowledges `j` accesses and then answers the next one with `x`; `rest` is what it
has scheduled after that. -/
def AnswersThen (j : Nat) (x : NvSample) (rest : List NvSample) (s : State) : Prop :=
  acksNext j s = true ∧ sampleAt j s = x ∧ s.nvSamples.drop (j + 1) = rest

/-- The NV responder never completes an access (20_memory.md R58). -/
def NeverAnswers (s : State) : Prop :=
  ∀ i, (sampleAt i s).ack = false ∧ (sampleAt i s).err = false

/-! ### What an operation gives back and leaves alone -/

/-- A response is shown, the command is over and no NV access is outstanding (41_store_commands.md
R140). -/
def Responded (code : BitVec 4) (info : Byte) (flag : Bool) (t : State) : Prop :=
  t.store.rsp = ⟨true, code, info, flag⟩ ∧ t.store.busy = false ∧ t.store.inFlight = none ∧
    t.store.port.req = false

/-- A command is in progress with no response (10_state.md R24, R30). -/
def InProgress (t : State) : Prop := t.store.busy = true ∧ t.store.rsp.valid = false

/-- The decoder, the build, the rest of the schedule and the NV responder's lasting answer are as
before. -/
def OutsideStoreKept (s t : State) : Prop :=
  t.cfg = s.cfg ∧ t.dec = s.dec ∧ t.resetSeen = s.resetSeen ∧ t.inputs = s.inputs ∧
    t.nvRest = s.nvRest

/-- Every byte of the NV byte space outside `changed` reads as before. -/
def NvKeptOutside (changed : Nat → Prop) (s t : State) : Prop :=
  ∀ a, ¬ changed a → readNv t a = readNv s a

/-- Every byte of the NV byte space reads as before. -/
def NvKept (s t : State) : Prop := ∀ a, readNv t a = readNv s a

/-- Every slot but `k` is as before, and there are as many. -/
def SlotsKeptBut (k : Nat) (s t : State) : Prop :=
  t.store.table.length = s.store.table.length ∧
    ∀ j, j ≠ k → slot t.store j = slot s.store j

/-- The volatile registers that only INIT, ADVANCE and faults write are as before (10_state.md R34). -/
def ControlKept (s t : State) : Prop :=
  t.store.initialized = s.store.initialized ∧ t.store.fault = s.store.fault ∧
    t.store.nowReg = s.store.nowReg

/-- The bytes PersistEntry(k) writes (41_store_commands.md R145). -/
def entryOrCount (k : Nat) (a : Nat) : Prop := a = countAddr ∨ ∃ i, i < 6 ∧ a = entryAddr k i

/-- Of PersistEntry(k)'s seven writes (41_store_commands.md R145: the identifier bytes, the interval, the
count) those from the one numbered `lo` up to but not the one numbered `hi` have changed the NV byte
space, and no other byte has. -/
def PersistedWithin (lo hi k : Nat) (e : Entry) (count : Byte) (s t : State) : Prop :=
  (∀ i, i < 6 → readNv t (entryAddr k i) =
    if lo ≤ i ∧ i < hi then persistedByte e i else readNv s (entryAddr k i)) ∧
  (readNv t countAddr = if lo ≤ 6 ∧ 6 < hi then count else readNv s countAddr) ∧
  NvKeptOutside (entryOrCount k) s t

/-- The first `m` of PersistEntry(k)'s seven writes have changed the NV byte space, and no other byte
has (41_store_commands.md R145). -/
def PersistedUpTo (m k : Nat) (e : Entry) (count : Byte) (s t : State) : Prop :=
  PersistedWithin 0 m k e count s t

/-- The table after INIT's reads `reads` (41_store_commands.md R150, R152): a byte that was read is the
one in the NV byte space; a slot whose interval was read has the sentinel carry and baseline 0; nothing
else of the table has changed. -/
def LoadedBy (reads : List Access) (s t : State) : Prop :=
  t.store.table.length = s.store.table.length ∧ ∀ k,
    (∀ i, i < 6 → persistedByte (slot t.store k) i =
      if Access.readEntry k i ∈ reads then readNv s (entryAddr k i)
      else persistedByte (slot s.store k) i) ∧
    (slot t.store k).carry =
      (if Access.readEntry k 5 ∈ reads then sentinelMax else (slot s.store k).carry) ∧
    (slot t.store k).lastGrant =
      (if Access.readEntry k 5 ∈ reads then 0 else (slot s.store k).lastGrant)

/-! ### The table and its mirror -/

/-- Slot `k`'s persistent form and the entry count stand in the NV byte space (20_memory.md R51). -/
def EntryPersisted (s : State) (k : Nat) : Prop :=
  ∀ i, i < 6 → readNv s (entryAddr k i) = persistedByte (slot s.store k) i

/-- The occupied slots and the count mirror the NV byte space (20_memory.md R65). -/
def Mirrors (s : State) : Prop :=
  readNv s countAddr = s.store.numEntries ∧
    ∀ k, k < s.store.numEntries.toNat → EntryPersisted s k

/-- No occupied slot's baseline lies after the clock (10_state.md R28). -/
def BaselinesOk (st : Store) : Prop :=
  ∀ k, k < st.numEntries.toNat → (slot st k).lastGrant ≤ st.nowReg

/-- The entry the NV byte space holds for slot `k`, with the timing fields INIT gives it
(41_store_commands.md R150, R152). -/
def loadedEntry (s : State) (k : Nat) : Entry where
  id := ⟨readNv s (entryAddr k 0), readNv s (entryAddr k 1), readNv s (entryAddr k 2),
    readNv s (entryAddr k 3), readNv s (entryAddr k 4)⟩
  interval := readNv s (entryAddr k 5)
  carry := sentinelMax
  lastGrant := 0

/-! ### What a list of accesses does once all of it is acknowledged -/

/-- The effect of one acknowledged access on the NV byte space and on the table (20_memory.md R57,
41_store_commands.md R150). -/
def applyAccess (a : Access) (s : State) : State :=
  landAccess a (readNv s (accessAddr a)) (performAccess a s)

/-- The effect of a list of acknowledged accesses, in order (20_memory.md R59). -/
def applyAll (todo : List Access) (s : State) : State := todo.foldl (fun s a => applyAccess a s) s

/-! ### What holds in every state of a run -/

/-- The accesses a command in progress makes from its present phase's start. -/
def jobAccesses (st : Store) : Job → List Access
  | .initEmpty _ => [.write countAddr 0]
  | .initCount _ => [.readCount]
  | .initEntries _ n => loadReads 0 n.toNat
  | .add k _ => persistWrites k (slot st k) st.numEntries
  | .clear => [.write countAddr 0]

/-- What a command in progress relies on (41_store_commands.md R150, R170, R175): a loaded slot whose
interval has been read has the sentinel and baseline 0; ADD's slot is an occupied one; CLEAR has set
the count. -/
def JobOk (cfg : Config) (st : Store) (todo : List Access) : Job → Prop
  | .initEmpty _ => True
  | .initCount _ => True
  | .initEntries _ n => n.toNat ≤ cfg.capacity ∧
      ∀ k, k < n.toNat → Access.readEntry k 5 ∉ todo →
        (slot st k).carry = sentinelMax ∧ (slot st k).lastGrant = 0
  | .add k _ => st.initialized = true ∧ k < st.numEntries.toNat
  | .clear => st.initialized = true ∧ st.numEntries = 0

/-- The port shows the access that is outstanding (20_memory.md R58, R59). -/
def PortShows (p : NvPort) : Access → Prop
  | .write a v => p.req = true ∧ p.we = true ∧ p.addr = a ∧ p.wdata = v
  | .readCount => p.req = true ∧ p.we = false ∧ p.addr = countAddr
  | .readEntry k i => p.req = true ∧ p.we = false ∧ p.addr = entryAddr k i

/-- A command in progress: the accesses still to complete are the last ones of its phase, in order, and
the port shows the first of them. -/
def InFlightOk (cfg : Config) (st : Store) (f : InFlight) : Prop :=
  f.todo <:+ jobAccesses st f.job ∧ JobOk cfg st f.todo f.job ∧
    ∃ a rest, f.todo = a :: rest ∧ PortShows st.port a

/-- The fault codes of 60_exceptions.md R201, and 0. -/
def faultCodes : List (BitVec 4) := [0, codeIllegalCmd, codeNotInit, codeNvFault, codeLoadFault]

/-- The response codes of 30_encoding.md R93. -/
def responseCodes : List (BitVec 4) :=
  [codeOK, codeAllowed, codeDenied, codeUnknown, codeIllegalCmd, codeNotInit, codeNvFault,
    codeLoadFault, codeFaulted]

/-- What holds of the store of a machine that has seen a reset edge. -/
structure StoreInv (cfg : Config) (st : Store) : Prop where
  /-- 10_state.md R27(a). -/
  count : st.numEntries.toNat ≤ cfg.capacity
  /-- 60_exceptions.md R201. -/
  faultCode : st.fault ∈ faultCodes
  /-- 30_encoding.md R93. -/
  rspCode : st.rsp.valid = true → st.rsp.code ∈ responseCodes
  /-- 10_state.md R24: busy exactly while a command has been accepted and has not responded. -/
  busyIff : st.busy = st.inFlight.isSome
  /-- 20_memory.md R58, R59: an access is requested exactly while a command waits for one. -/
  reqIff : st.port.req = st.inFlight.isSome
  /-- 60_exceptions.md R203, R204: a command that faults is over. -/
  faultIdle : st.fault ≠ 0 → st.busy = false
  /-- 10_state.md R28. -/
  baselines : st.initialized = true → BaselinesOk st
  /-- 20_memory.md R59, 41_store_commands.md R145, R150. -/
  inFlight : ∀ f, st.inFlight = some f → InFlightOk cfg st f

/-- What holds in every state of a run. -/
structure Inv (s : State) : Prop where
  /-- 00_scope.md R9. -/
  build : s.cfg.wellFormed = true
  /-- 10_state.md R24: the table has `CAPACITY` slots. -/
  tableLength : s.store.table.length = s.cfg.capacity
  /-- 20_memory.md R57: the NV byte space is in its canonical form. -/
  nvCanonical : Memory.wf s.cfg s.nv = true
  /-- 10_state.md R37: the address port's width. -/
  portWidth : s.store.port.addr < 2 ^ s.cfg.nvAddrW
  /-- 70_reset_and_hazards.md R231: before the first reset edge nothing more is known. -/
  running : s.resetSeen = true → StoreInv s.cfg s.store

/-- What keeps the mirror of 20_memory.md R65 through a command in progress: once its outstanding writes
have landed, count and entries stand in the NV byte space; what a load has read so far is what stands
there. -/
def MirrorInv (s : State) : Prop :=
  s.resetSeen = true → s.store.fault = 0 →
    match s.store.inFlight with
    | none => s.store.initialized = true → Mirrors s
    | some f =>
      match f.job with
      | .initEmpty _ => readNv (applyAll f.todo s) countAddr = 0
      | .initCount _ => True
      | .initEntries _ n => readNv s countAddr = n ∧
          ∀ k i, k < n.toNat → i < 6 → Access.readEntry k i ∉ f.todo →
            readNv s (entryAddr k i) = persistedByte (slot s.store k) i
      | .add _ _ => Mirrors (applyAll f.todo s)
      | .clear => Mirrors (applyAll f.todo s)

/-- At most one occupied slot for each identifier (10_state.md R27(c)). -/
def UniqueIds (st : Store) : Prop :=
  ∀ j k, j < st.numEntries.toNat → k < st.numEntries.toNat →
    (slot st j).id = (slot st k).id → j = k

/-! ### What a step takes -/

/-- The next step is a cycle: neither a reset edge nor a loss of power (70_reset_and_hazards.md R230,
R231). -/
def NextIsCycle (s : State) : Prop :=
  (∀ rx cmd landed rest, s.inputs ≠ .reset rx cmd landed :: rest) ∧
    ∀ landed rest, s.inputs ≠ .powerLoss landed :: rest

/-- The next step offers command `i` to a store that is not busy and not in the fault state, and so
accepts it and does not answer FAULTED (10_state.md R37, 41_store_commands.md R140). -/
def NextTakes (i : Instr) (s : State) : Prop :=
  Ready s ∧ ∃ rx w rest, s.inputs = .cycle rx (some w) :: rest ∧ decode (.cmdWord w) = .ok i

/-- An INIT's job. -/
def isInitJob : Job → Bool
  | .initEmpty _ => true
  | .initCount _ => true
  | .initEntries _ _ => true
  | .add _ _ => false
  | .clear => false

/-- The next step neither takes an INIT nor goes on with one. -/
def NoInitNext (s : State) : Prop :=
  (∀ r now, ¬ NextTakes (.init r now) s) ∧ ∀ f, s.store.inFlight = some f → isInitJob f.job = false

/-! ### Commands of the host -/

/-- A command of the store, as opposed to RX. -/
def isCommand : Instr → Bool
  | .rx _ => false
  | .init _ _ => true
  | .advance _ => true
  | .check _ => true
  | .add _ _ => true
  | .clear => true

/-! ### Frames -/

/-- The digit that spells a nibble: the inverse of 30_encoding.md R82. -/
def hexDigit (v : Nibble) : Byte :=
  if v.toNat < 10 then BitVec.ofNat 8 (0x30 + v.toNat) else BitVec.ofNat 8 (0x41 + v.toNat - 10)

/-- The two digits that spell a byte, high nibble first (30_encoding.md R83). -/
def digitsOf (b : Byte) : List Byte := [hexDigit (b.extractLsb' 4 4), hexDigit (b.extractLsb' 0 4)]

/-- The frame that carries identifier `t` and checksum byte `c` (30_encoding.md R80). -/
def frameOf (t : TagId) (c : Byte) : List Byte :=
  markSTX :: digitsOf t.b0 ++ digitsOf t.b1 ++ digitsOf t.b2 ++ digitsOf t.b3 ++ digitsOf t.b4
    ++ digitsOf c ++ [markCR, markLF, markETX]

/-- The exclusive-or of an identifier's bytes (30_encoding.md R84). -/
def tagXor (t : TagId) : Byte := t.b0 ^^^ t.b1 ^^^ t.b2 ^^^ t.b3 ^^^ t.b4

/-- A decoder result: its status, and the identifier field where the status is OK (10_state.md R25). -/
structure DecResult where
  status : BitVec 2
  id : Option (BitVec 40)
deriving DecidableEq, Repr

/-- The result a decoder shows, if it shows one. -/
def shownResult (d : Decoder) : Option DecResult :=
  if d.valid then some ⟨d.status, if d.status = statusOK then some d.id else none⟩ else none

/-- The decoder after a stream of bytes, one RX each. -/
def decAfter : List Byte → Decoder → Decoder
  | [], d => d
  | b :: rest, d => decAfter rest (rxByte b d)

/-- The results a stream of bytes gives, in order, each with the index of its byte. -/
def decResults : Nat → List Byte → Decoder → List (Nat × DecResult)
  | _, [], _ => []
  | i, b :: rest, d =>
    (shownResult (rxByte b d)).toList.map (fun r => (i, r)) ++ decResults (i + 1) rest (rxByte b d)

end Sys2Proof.Machine
end

