-- ==== Sys2Proof/Certificates/Slice0/Obligations.lean ====
section
/-! DEFINITION. The statements for the provers. Each follows the rules of spec/ named in its
docstring. In all of them the model's own way of writing the environment down is used: what is offered in
a step is the head of `State.inputs` (log entry 2), what the NV responder answers is `State.nvSamples`
and then for ever `State.nvRest` (log entry 3). No statement rests on a free value. -/

open Sys2Proof Sys2Proof.Machine

/-! ## Encodings (30_encoding.md) -/

/-- 95_test_vectors.md 2.2 and 30_encoding.md R86-R91: words written out from the spec decode to what
they stand for, and the illegal ones to nothing. -/
def Obligations.SpecWordsDecode : Prop :=
  decodeTableWord 8 0x41 = some (.rx 0x41) ∧
  decodeTableWord 64 0x0000000000000011 = some (.init true 0) ∧
  decodeTableWord 64 0x0000000001000001 = some (.init false 0x100) ∧
  decodeTableWord 64 0x0000000003E80002 = some (.advance 1000) ∧
  decodeTableWord 64 0x0001234567890003 = some (.check ⟨0x01, 0x23, 0x45, 0x67, 0x89⟩) ∧
  decodeTableWord 64 0xFF01234567890004 = some (.add ⟨0x01, 0x23, 0x45, 0x67, 0x89⟩ 255) ∧
  decodeTableWord 64 0x0000000000000005 = some .clear ∧
  decodeTableWord 64 0x0000000000000000 = none ∧
  decodeTableWord 64 0x0000000000000021 = none ∧
  decodeTableWord 64 0x8000000000000005 = none

/-- 30_encoding.md, section 2, and 40_tag_decoder.md R110: decoding an encoded operation gives it
back, whatever its operands. -/
def Obligations.EncodedOperationDecodesBack : Prop :=
  ∀ i : Instr, i.wellFormed = true → decode (encode i) = .ok i

/-- 30_encoding.md R91, R94: a port's word has at most one meaning, and that meaning's encoding is the
word itself: no bit of a legal word is ignored. -/
def Obligations.DecodedWordEncodesBack : Prop :=
  ∀ (p : PortWord) (i : Instr), decode p = .ok i → encode i = p

/-- 30_encoding.md R86-R90: the layouts of the five command words, field by field, and their match and
mask forms. -/
def Obligations.CommandWordLayouts : Prop :=
  ∀ w : CmdWord,
    (∀ r now, decodeCmd w = .ok (.init r now) ↔
      w.extractLsb' 0 4 = 0x1 ∧ w.getLsbD 4 = r ∧ w.extractLsb' 5 11 = 0 ∧
        w.extractLsb' 16 32 = now ∧ w.extractLsb' 48 16 = 0) ∧
    (w &&& 0xFFFF00000000FFEF = 0x0000000000000001 ↔
      w.extractLsb' 0 4 = 0x1 ∧ w.extractLsb' 5 11 = 0 ∧ w.extractLsb' 48 16 = 0) ∧
    (∀ now, decodeCmd w = .ok (.advance now) ↔
      w.extractLsb' 0 4 = 0x2 ∧ w.extractLsb' 4 12 = 0 ∧
        w.extractLsb' 16 32 = now ∧ w.extractLsb' 48 16 = 0) ∧
    (w &&& 0xFFFF00000000FFFF = 0x0000000000000002 ↔
      w.extractLsb' 0 4 = 0x2 ∧ w.extractLsb' 4 12 = 0 ∧ w.extractLsb' 48 16 = 0) ∧
    (∀ id : TagId, decodeCmd w = .ok (.check id) ↔
      w.extractLsb' 0 4 = 0x3 ∧ w.extractLsb' 4 12 = 0 ∧
        w.extractLsb' 16 40 = id.toField ∧ w.extractLsb' 56 8 = 0) ∧
    (w &&& 0xFF0000000000FFFF = 0x0000000000000003 ↔
      w.extractLsb' 0 4 = 0x3 ∧ w.extractLsb' 4 12 = 0 ∧ w.extractLsb' 56 8 = 0) ∧
    (∀ (id : TagId) (h : Byte), decodeCmd w = .ok (.add id h) ↔
      w.extractLsb' 0 4 = 0x4 ∧ w.extractLsb' 4 12 = 0 ∧
        w.extractLsb' 16 40 = id.toField ∧ w.extractLsb' 56 8 = h) ∧
    (w &&& 0x000000000000FFFF = 0x0000000000000004 ↔
      w.extractLsb' 0 4 = 0x4 ∧ w.extractLsb' 4 12 = 0) ∧
    (decodeCmd w = .ok .clear ↔ w.extractLsb' 0 4 = 0x5 ∧ w.extractLsb' 4 60 = 0) ∧
    (w &&& 0xFFFFFFFFFFFFFFFF = 0x0000000000000005 ↔
      w.extractLsb' 0 4 = 0x5 ∧ w.extractLsb' 4 60 = 0)

/-- 30_encoding.md R91: a word is a command exactly when it satisfies one of the five rows, its OP then
names the command; any other word, OP 0x0 and 0x6-0xF and every reserved bit included, gets the
response ILLEGAL_CMD from a store that is ready (41_store_commands.md R140). -/
def Obligations.IllegalWordsAnswerIllegalCmd : Prop :=
  (∀ w : CmdWord, (∃ i, decodeCmd w = .ok i) ↔
    w &&& 0xFFFF00000000FFEF = 0x1 ∨ w &&& 0xFFFF00000000FFFF = 0x2 ∨
    w &&& 0xFF0000000000FFFF = 0x3 ∨ w &&& 0x000000000000FFFF = 0x4 ∨
    w &&& 0xFFFFFFFFFFFFFFFF = 0x5) ∧
  (∀ (w : CmdWord) (i : Instr), decodeCmd w = .ok i →
    match i with
    | .rx _ => False
    | .init _ _ => w.extractLsb' 0 4 = 0x1
    | .advance _ => w.extractLsb' 0 4 = 0x2
    | .check _ => w.extractLsb' 0 4 = 0x3
    | .add _ _ => w.extractLsb' 0 4 = 0x4
    | .clear => w.extractLsb' 0 4 = 0x5) ∧
  (∀ w : CmdWord, w.extractLsb' 0 4 = 0x0 ∨ 0x6 ≤ (w.extractLsb' 0 4).toNat →
    ∃ e, decodeCmd w = .error e) ∧
  (∀ (s : State) (rx : Option Byte) (w : CmdWord) (rest : List Input) (e : DecodeError),
    s.cfg.wellFormed = true → s.resetSeen = true → Ready s →
    s.inputs = .cycle rx (some w) :: rest → decodeCmd w = .error e →
    ∃ t, step s = .next t ∧ Responded codeIllegalCmd 0 false t ∧ t.store.fault = codeIllegalCmd ∧
      t.store.initialized = s.store.initialized ∧ t.store.nowReg = s.store.nowReg ∧
      t.store.numEntries = s.store.numEntries ∧ t.store.table = s.store.table ∧ NvKept s t ∧
      t.nvSamples = s.nvSamples ∧ t.nvRest = s.nvRest)

/-! ## The tag frame decoder (40_tag_decoder.md) -/

/-- 40_tag_decoder.md R110: RX completes in every state, and touches nothing but the decoder. -/
def Obligations.RxCompletesAndTouchesOnlyTheDecoder : Prop :=
  ∀ (s : State) (b : Byte), ∃ t, exec (.rx b) s = .next t ∧ t.dec = rxByte b s.dec ∧
    t.store = s.store ∧ NvKept s t ∧ t.cfg = s.cfg ∧ t.resetSeen = s.resetSeen ∧
    t.inputs = s.inputs ∧ t.nvSamples = s.nvSamples ∧ t.nvRest = s.nvRest

/-- 30_encoding.md R82: the sixteen digits and their values, and no others, at all twelve digit
positions. -/
def Obligations.HexAlphabetIsTheSixteenCodes : Prop :=
  (∀ (b : Byte) (v : Nibble), hexval b = some v ↔ (b, v) ∈
    ([(0x30, 0x0), (0x31, 0x1), (0x32, 0x2), (0x33, 0x3), (0x34, 0x4), (0x35, 0x5), (0x36, 0x6),
      (0x37, 0x7), (0x38, 0x8), (0x39, 0x9), (0x41, 0xA), (0x42, 0xB), (0x43, 0xC), (0x44, 0xD),
      (0x45, 0xE), (0x46, 0xF)] : List (Byte × Nibble))) ∧
  (∀ (s : State) (b : Byte), 1 ≤ s.dec.pos.toNat → s.dec.pos.toNat ≤ 12 →
    ∃ t, exec (.rx b) s = .next t ∧
      (hexval b = none ↔ t.dec.valid = true ∧ t.dec.status = statusEncoding) ∧
      (hexval b ≠ none ↔ t.dec.valid = false))

/-- 40_tag_decoder.md R113, R114: at positions 1-12 a byte outside the alphabet gives ENCODING and the
decoder starts over; a digit's nibble goes into byte `(p - 1) div 2`, high for odd `p`, low for even
`p`, the other nibble and the other bytes stand, and the decoder moves on without a result. -/
def Obligations.RxAtDigitPositions : Prop :=
  ∀ (s : State) (b : Byte), 1 ≤ s.dec.pos.toNat → s.dec.pos.toNat ≤ 12 →
    ∃ t, exec (.rx b) s = .next t ∧ t.store = s.store ∧ NvKept s t ∧
      (hexval b = none →
        t.dec.valid = true ∧ t.dec.status = statusEncoding ∧ t.dec.pos = 0 ∧
          t.dec.buf = s.dec.buf) ∧
      (∀ v, hexval b = some v →
        t.dec.valid = false ∧ t.dec.pos.toNat = s.dec.pos.toNat + 1 ∧
        (∀ j, j ≠ (s.dec.pos.toNat - 1) / 2 → bufByte t.dec.buf j = bufByte s.dec.buf j) ∧
        (let j := (s.dec.pos.toNat - 1) / 2
         if s.dec.pos.toNat % 2 = 1 then
          (bufByte t.dec.buf j).extractLsb' 4 4 = v ∧
            (bufByte t.dec.buf j).extractLsb' 0 4 = (bufByte s.dec.buf j).extractLsb' 0 4
         else
          (bufByte t.dec.buf j).extractLsb' 0 4 = v ∧
            (bufByte t.dec.buf j).extractLsb' 4 4 = (bufByte s.dec.buf j).extractLsb' 4 4))

/-- 40_tag_decoder.md R115, R116: positions 13 and 14 take CR and LF and nothing else. -/
def Obligations.RxAtReturnAndFeedPositions : Prop :=
  ∀ (s : State) (b : Byte),
    (s.dec.pos = 13 → ∃ t, exec (.rx b) s = .next t ∧ t.store = s.store ∧ NvKept s t ∧
      t.dec.buf = s.dec.buf ∧
      (b = 0x0D → t.dec.valid = false ∧ t.dec.pos = 14) ∧
      (b ≠ 0x0D → t.dec.valid = true ∧ t.dec.status = statusFraming ∧ t.dec.pos = 0)) ∧
    (s.dec.pos = 14 → ∃ t, exec (.rx b) s = .next t ∧ t.store = s.store ∧ NvKept s t ∧
      t.dec.buf = s.dec.buf ∧
      (b = 0x0A → t.dec.valid = false ∧ t.dec.pos = 15) ∧
      (b ≠ 0x0A → t.dec.valid = true ∧ t.dec.status = statusFraming ∧ t.dec.pos = 0))

/-- 40_tag_decoder.md R117 and 30_encoding.md R84: at position 15 the end marker is checked before the
checksum, and the frame is valid exactly when the exclusive-or of the five data bytes is the sixth. -/
def Obligations.RxAtEndPosition : Prop :=
  ∀ (s : State) (b : Byte), s.dec.pos = 15 →
    ∃ t, exec (.rx b) s = .next t ∧ t.store = s.store ∧ NvKept s t ∧
      t.dec.buf = s.dec.buf ∧ t.dec.pos = 0 ∧ t.dec.valid = true ∧
      (b ≠ 0x03 → t.dec.status = statusFraming) ∧
      (b = 0x03 →
        let x := bufByte s.dec.buf 0 ^^^ bufByte s.dec.buf 1 ^^^ bufByte s.dec.buf 2 ^^^
          bufByte s.dec.buf 3 ^^^ bufByte s.dec.buf 4
        (x ≠ bufByte s.dec.buf 5 → t.dec.status = statusChecksum) ∧
        (x = bufByte s.dec.buf 5 → t.dec.status = statusOK ∧
          t.dec.id = bufByte s.dec.buf 0 ++ bufByte s.dec.buf 1 ++ bufByte s.dec.buf 2 ++
            bufByte s.dec.buf 3 ++ bufByte s.dec.buf 4))

/-- 40_tag_decoder.md R112: at position 0 the start marker opens a frame; a run of `n` other bytes gives
`n` FRAMING results and leaves the decoder at position 0. -/
def Obligations.BytesBeforeStartMarkerEachGiveFraming : Prop :=
  (∀ s : State, s.dec.pos = 0 → ∃ t, exec (.rx 0x02) s = .next t ∧ t.store = s.store ∧ NvKept s t ∧
    t.dec.valid = false ∧ t.dec.pos = 1 ∧ t.dec.buf = s.dec.buf) ∧
  (∀ (bs : List Byte) (d : Decoder), d.pos = 0 → (∀ b ∈ bs, b ≠ 0x02) →
    decResults 0 bs d = (List.range bs.length).map (fun i => (i, ⟨statusFraming, none⟩)) ∧
    (decAfter bs d).pos = 0 ∧ (decAfter bs d).buf = d.buf)

/-- 40_tag_decoder.md R110: a cycle that offers no byte changes neither the position nor the buffer,
and shows no result. -/
def Obligations.IdleCyclesKeepAPartialFrame : Prop :=
  ∀ (s t : State) (cmd : Option CmdWord) (rest : List Input),
    s.resetSeen = true → s.inputs = .cycle none cmd :: rest → step s = .next t →
    t.dec.pos = s.dec.pos ∧ t.dec.buf = s.dec.buf ∧ t.dec.valid = false

/-- 40_tag_decoder.md R121(a), 30_encoding.md R83, R84: the frame that spells an identifier gives one
result, OK with that identifier, at its last byte, whatever the decoder held before. -/
def Obligations.ValidFrameGivesItsIdentifier : Prop :=
  ∀ (t : TagId) (d : Decoder), d.pos = 0 →
    decResults 0 (frameOf t (tagXor t)) d = [(15, ⟨statusOK, some t.toField⟩)] ∧
      (decAfter (frameOf t (tagXor t)) d).pos = 0

/-- 40_tag_decoder.md R118: a well-formed frame with any other checksum gives CHECKSUM at its last
byte. -/
def Obligations.WrongChecksumGivesChecksum : Prop :=
  ∀ (t : TagId) (c : Byte) (d : Decoder), d.pos = 0 → c ≠ tagXor t →
    decResults 0 (frameOf t c) d = [(15, ⟨statusChecksum, none⟩)] ∧
      (decAfter (frameOf t c) d).pos = 0

/-- 40_tag_decoder.md R121(b): one flipped bit in one of the bytes 1-12 of a valid frame gives ENCODING
at that byte or CHECKSUM at the last one, and never OK. -/
def Obligations.SingleBitErrorIsNeverAccepted : Prop :=
  ∀ (t : TagId) (d : Decoder) (p k : Nat), d.pos = 0 → 1 ≤ p → p ≤ 12 → k < 8 →
    let damaged := (frameOf t (tagXor t)).modify p (fun b => b ^^^ BitVec.twoPow 8 k)
    (∀ r ∈ decResults 0 damaged d, r.2.status ≠ statusOK) ∧
    ((decResults 0 damaged d).head? = some (p, ⟨statusEncoding, none⟩) ∨
      decResults 0 damaged d = [(15, ⟨statusChecksum, none⟩)])

/-- 40_tag_decoder.md R120: every result leaves the decoder at position 0, and from position 0 the
results of a stream do not depend on what the decoder held before. -/
def Obligations.FramesAreIndependent : Prop :=
  (∀ (b : Byte) (d : Decoder), shownResult (rxByte b d) ≠ none → (rxByte b d).pos = 0) ∧
  (∀ (bs : List Byte) (d d' : Decoder), d.pos = 0 → d'.pos = 0 →
    decResults 0 bs d = decResults 0 bs d')

/-! ## Acceptance and faults (41_store_commands.md R140, 60_exceptions.md) -/

/-- 60_exceptions.md R204: in the fault state every accepted command, legal or not, answers FAULTED and
has no other effect; the decoder does not notice. -/
def Obligations.FaultStateAnswersFaulted : Prop :=
  ∀ s : State, s.store.busy = false → s.store.fault ≠ 0 →
    (∀ i : Instr, isCommand i = true → ∃ t, exec i s = .next t ∧
      Responded codeFaulted 0 false t ∧ ControlKept s t ∧ stFault t = s.store.fault ∧
      t.store.numEntries = s.store.numEntries ∧ t.store.table = s.store.table ∧ NvKept s t ∧
      t.nvSamples = s.nvSamples ∧ OutsideStoreKept s t) ∧
    (∃ t, offerIllegal s = .next t ∧
      Responded codeFaulted 0 false t ∧ ControlKept s t ∧ stFault t = s.store.fault ∧
      t.store.numEntries = s.store.numEntries ∧ t.store.table = s.store.table ∧ NvKept s t ∧
      t.nvSamples = s.nvSamples ∧ OutsideStoreKept s t) ∧
    (∀ (b : Byte) (s' : State), s'.dec = s.dec → ∃ t t', exec (.rx b) s = .next t ∧
      exec (.rx b) s' = .next t' ∧ t.dec = t'.dec ∧ t.store = s.store ∧ t'.store = s'.store)

/-- 41_store_commands.md R140: before INIT every other command raises NOT_INIT, with no NV access and no
change of the table. -/
def Obligations.CommandBeforeInitRaisesNotInit : Prop :=
  ∀ (s : State) (i : Instr), Ready s → s.store.initialized = false →
    ((∃ now, i = .advance now) ∨ (∃ id, i = .check id) ∨ (∃ id h, i = .add id h) ∨ i = .clear) →
    ∃ t, exec i s = .next t ∧ Responded codeNotInit 0 false t ∧ t.store.fault = codeNotInit ∧
      t.store.initialized = false ∧ t.store.nowReg = s.store.nowReg ∧
      t.store.numEntries = s.store.numEntries ∧ t.store.table = s.store.table ∧ NvKept s t ∧
      t.nvSamples = s.nvSamples ∧ OutsideStoreKept s t

/-- 10_state.md R31, 60_exceptions.md R205: over any step of a run, a recorded fault stays and
`initialized` stays set unless that step is a reset or a loss of power; and without one, a fault is
recorded only with the response that carries its code, and `initialized` is set only with response
OK. -/
def Obligations.FaultAndInitializedAreClearedOnlyByReset : Prop :=
  ∀ s t : State, Inv s → step s = .next t → t.resetSeen = true →
    (∀ rx cmd l rest, s.inputs ≠ .reset rx cmd l :: rest) →
    (s.store.fault ≠ 0 → t.store.fault = s.store.fault) ∧
    (s.store.initialized = true → t.store.initialized = true) ∧
    (s.store.fault = 0 → t.store.fault ≠ 0 →
      t.store.rsp = ⟨true, t.store.fault, 0, false⟩) ∧
    (s.store.initialized = false → t.store.initialized = true →
      t.store.rsp.valid = true ∧ t.store.rsp.code = codeOK)

/-- 10_state.md R37 (`cmd_ready = NOT busy`): a word offered to a busy store is not accepted; the step
is the one without it (log entry 16). -/
def Obligations.BusyStoreAcceptsNoCommand : Prop :=
  ∀ (s : State) (rx : Option Byte) (w : CmdWord) (rest : List Input),
    s.store.busy = true → s.inputs = .cycle rx (some w) :: rest →
    step s = step { s with inputs := .cycle rx none :: rest }

/-! ## INIT (41_store_commands.md R150-R152) -/

/-- 41_store_commands.md R150: INIT with R = 1 writes 0 to byte 0, empties the table, takes NOW as the
clock and answers OK with info 0 and flag 1. -/
def Obligations.InitWithResetEmptiesTheTable : Prop :=
  ∀ (s : State) (now : Millis), Ready s → Sound s → acksNext 1 s = true →
    ∃ t, exec (.init true now) s = .next t ∧ Responded codeOK 0 true t ∧
      t.store.initialized = true ∧ t.store.fault = 0 ∧ t.store.nowReg = now ∧
      t.store.numEntries = 0 ∧ t.store.table = s.store.table ∧
      readNv t countAddr = 0 ∧ NvKeptOutside (fun a => a = countAddr) s t ∧
      t.nvSamples = s.nvSamples.drop 1 ∧ OutsideStoreKept s t

/-- 41_store_commands.md R150, R152: INIT with R = 0 and a count `n` within CAPACITY loads `n` entries,
each with the sentinel carry and baseline 0, reads `1 + 6n` bytes, writes none, and answers OK with
info `n` and flag 0. -/
def Obligations.InitLoadsThePersistedEntries : Prop :=
  ∀ (s : State) (now : Millis), Ready s → Sound s →
    (readNv s countAddr).toNat ≤ s.cfg.capacity →
    acksNext (1 + 6 * (readNv s countAddr).toNat) s = true →
    ∃ t, exec (.init false now) s = .next t ∧ Responded codeOK (readNv s countAddr) false t ∧
      t.store.initialized = true ∧ t.store.fault = 0 ∧ t.store.nowReg = now ∧
      t.store.numEntries = readNv s countAddr ∧
      t.store.table.length = s.store.table.length ∧
      (∀ k, k < (readNv s countAddr).toNat → slot t.store k = loadedEntry s k) ∧
      (∀ k, (readNv s countAddr).toNat ≤ k → slot t.store k = slot s.store k) ∧
      NvKept s t ∧ t.nvSamples = s.nvSamples.drop (1 + 6 * (readNv s countAddr).toNat) ∧
      OutsideStoreKept s t

/-- 41_store_commands.md R151: a count above CAPACITY gives LOAD_FAULT after the one read; nothing else
changes. -/
def Obligations.InitRefusesACountAboveCapacity : Prop :=
  ∀ (s : State) (now : Millis), Ready s → Sound s →
    s.cfg.capacity < (readNv s countAddr).toNat → acksNext 1 s = true →
    ∃ t, exec (.init false now) s = .next t ∧ Responded codeLoadFault 0 false t ∧
      t.store.fault = codeLoadFault ∧ t.store.initialized = s.store.initialized ∧
      t.store.nowReg = s.store.nowReg ∧ t.store.numEntries = s.store.numEntries ∧
      t.store.table = s.store.table ∧ NvKept s t ∧ t.nvSamples = s.nvSamples.drop 1 ∧
      OutsideStoreKept s t

/-- 41_store_commands.md R152: whatever tag a load has brought in, its first CHECK is ALLOWED: made right
after the load, or after an ADVANCE (70_reset_and_hazards.md R233). More generally a CHECK of a tag whose
slot holds the sentinel carry is ALLOWED, and an ADVANCE keeps the sentinel, the tag's slot and the
store's readiness, so any number of ADVANCEs may come between. -/
def Obligations.LoadedTagsAreAllowedAtFirstCheck : Prop :=
  (∀ (s t : State) (now : Millis) (id : TagId), Ready s → Sound s →
    (readNv s countAddr).toNat ≤ s.cfg.capacity →
    acksNext (1 + 6 * (readNv s countAddr).toNat) s = true →
    exec (.init false now) s = .next t →
    (∃ k, k < (readNv s countAddr).toNat ∧ (loadedEntry s k).id = id) →
    ∃ k, k < (readNv s countAddr).toNat ∧ (loadedEntry s k).id = id ∧
      (∃ u, exec (.check id) t = .next u ∧ Responded codeAllowed (BitVec.ofNat 8 k) false u) ∧
      ∀ later, ∃ v u, exec (.advance later) t = .next v ∧ exec (.check id) v = .next u ∧
        Responded codeAllowed (BitVec.ofNat 8 k) false u) ∧
  (∀ (s : State) (id : TagId) (k : Nat), Serving s → s.cfg.wellFormed = true →
    lookup s.store id = some k → (slot s.store k).carry = 0xFFFFFFFF →
    (∃ u, exec (.check id) s = .next u ∧ Responded codeAllowed (BitVec.ofNat 8 k) false u) ∧
    ∀ later, ∃ v, exec (.advance later) s = .next v ∧ Serving v ∧ v.cfg.wellFormed = true ∧
      lookup v.store id = some k ∧ (slot v.store k).carry = 0xFFFFFFFF)

/-! ## ADVANCE (41_store_commands.md R155, R156) -/

/-- 41_store_commands.md R155: ADVANCE takes NOW as the clock. Below the last reading it is a wrap: every
occupied slot banks the time since its baseline, saturating, and restarts its baseline at NOW;
otherwise no slot changes. -/
def Obligations.AdvanceTakesTheReadingAndFoldsAtAWrap : Prop :=
  ∀ (s : State) (now : Millis), Serving s →
    ∃ t, exec (.advance now) s = .next t ∧
      Responded codeOK s.store.numEntries (decide (now.toNat < s.store.nowReg.toNat)) t ∧
      t.store.nowReg = now ∧ t.store.initialized = true ∧ t.store.fault = 0 ∧
      t.store.numEntries = s.store.numEntries ∧
      t.store.table.length = s.store.table.length ∧
      (s.store.nowReg.toNat ≤ now.toNat → t.store.table = s.store.table) ∧
      (now.toNat < s.store.nowReg.toNat →
        (∀ k, k < s.store.numEntries.toNat → k < s.store.table.length →
          (slot t.store k).id = (slot s.store k).id ∧
          (slot t.store k).interval = (slot s.store k).interval ∧
          (slot t.store k).lastGrant = now ∧
          (slot t.store k).carry.toNat =
            min ((slot s.store k).carry.toNat +
              (s.store.nowReg.toNat + 2 ^ 32 - (slot s.store k).lastGrant.toNat) % 2 ^ 32)
              0xFFFFFFFF) ∧
        (∀ k, s.store.numEntries.toNat ≤ k → slot t.store k = slot s.store k)) ∧
      NvKept s t ∧ t.nvSamples = s.nvSamples ∧ OutsideStoreKept s t

/-- 41_store_commands.md R156: a wrap never makes an entry's elapsed time fall, unless the carry
saturates; then banked time is lost, but the elapsed time stays above the entry's interval. -/
def Obligations.FoldKeepsElapsedOrStaysEligible : Prop :=
  ∀ (s t : State) (now : Millis) (k : Nat), Serving s →
    s.cfg.wellFormed = true → k < s.store.numEntries.toNat → k < s.store.table.length →
    now.toNat < s.store.nowReg.toNat → exec (.advance now) s = .next t →
    ((slot s.store k).carry.toNat + (s.store.nowReg - (slot s.store k).lastGrant).toNat ≤ 0xFFFFFFFF →
      elapsed s.store k ≤ elapsed t.store k) ∧
    (0xFFFFFFFF < (slot s.store k).carry.toNat + (s.store.nowReg - (slot s.store k).lastGrant).toNat →
      required s.cfg s.store k < elapsed s.store k ∧ required t.cfg t.store k < elapsed t.store k)

/-! ## CHECK (41_store_commands.md R141-R143, R160, R161) -/

/-- 41_store_commands.md R141, R142: the two quantities CHECK compares, with the separate floors and the
bounds. -/
def Obligations.ElapsedAndRequiredInSeconds : Prop :=
  (∀ (st : Store) (k : Nat), elapsed st k =
      ((st.nowReg.toNat + 2 ^ 32 - (slot st k).lastGrant.toNat) % 2 ^ 32) / 1000 +
        (slot st k).carry.toNat / 1000 ∧
    elapsed st k ≤ 8589934) ∧
  (∀ (cfg : Config) (st : Store) (k : Nat), cfg.wellFormed = true →
    required cfg st k = (slot st k).interval.toNat * cfg.timeUnitS ∧ required cfg st k ≤ 918000)

/-- 41_store_commands.md R143: Lookup gives the least occupied slot that holds the identifier, compared
on all 40 bits, and none exactly when no occupied slot does. -/
def Obligations.LookupFindsTheLeastMatch : Prop :=
  ∀ (st : Store) (id : TagId), st.numEntries.toNat ≤ st.table.length →
    (∀ k, lookup st id = some k ↔ k < st.numEntries.toNat ∧
      (slot st k).id.toField = id.toField ∧
      ∀ j, j < k → (slot st j).id.toField ≠ id.toField) ∧
    (lookup st id = none ↔
      ∀ k, k < st.numEntries.toNat → (slot st k).id.toField ≠ id.toField)

/-- 41_store_commands.md R160: CHECK answers UNKNOWN, ALLOWED or DENIED; only ALLOWED changes anything,
and then only the slot's carry and baseline. -/
def Obligations.CheckDecides : Prop :=
  ∀ (s : State) (id : TagId), Serving s →
    ∃ t, exec (.check id) s = .next t ∧ ControlKept s t ∧
      t.store.numEntries = s.store.numEntries ∧ NvKept s t ∧ t.nvSamples = s.nvSamples ∧
      OutsideStoreKept s t ∧
      match lookup s.store id with
      | none => Responded codeUnknown 0 false t ∧ t.store.table = s.store.table
      | some k =>
        if required s.cfg s.store k ≤ elapsed s.store k then
          Responded codeAllowed (BitVec.ofNat 8 k) false t ∧ SlotsKeptBut k s t ∧
            slot t.store k = { slot s.store k with carry := 0, lastGrant := s.store.nowReg }
        else
          Responded codeDenied (BitVec.ofNat 8 k) false t ∧ t.store.table = s.store.table

/-- 41_store_commands.md R161(b), (c): after ALLOWED the same CHECK, made at once, is DENIED when the
interval is not 0: one grant for each satisfied interval. -/
def Obligations.GrantIsFollowedByDenial : Prop :=
  ∀ (s t : State) (id : TagId) (k : Nat), Serving s → s.cfg.wellFormed = true →
    exec (.check id) s = .next t → lookup s.store id = some k →
    t.store.rsp.code = codeAllowed → (slot s.store k).interval ≠ 0 →
    ∃ u, exec (.check id) t = .next u ∧ Responded codeDenied (BitVec.ofNat 8 k) false u

/-! ## ADD and the eviction arbiter (41_store_commands.md R144, R145, R165, R170, R171) -/

/-- 41_store_commands.md R165: the victim is a slot of the table whose elapsed time no slot exceeds, the
first such one; ADD asks for it exactly when the identifier is new and the table is full. -/
def Obligations.VictimIsTheFirstLargestElapsed : Prop :=
  (∀ (capacity : Nat) (st : Store), 1 ≤ capacity →
    selectVictim capacity st < capacity ∧
    (∀ k, k < capacity → elapsed st k ≤ elapsed st (selectVictim capacity st)) ∧
    (∀ k, k < selectVictim capacity st → elapsed st k < elapsed st (selectVictim capacity st))) ∧
  (∀ (s : State) (id : TagId), s.store.numEntries.toNat ≤ s.cfg.capacity →
    ((placeTag s.cfg s.store id).evicted = true ↔
      lookup s.store id = none ∧ s.store.numEntries.toNat = s.cfg.capacity) ∧
    ((placeTag s.cfg s.store id).evicted = true →
      (placeTag s.cfg s.store id).slot = selectVictim s.cfg.capacity s.store))

/-- 41_store_commands.md R170, R144, R145: ADD of a new identifier with room left appends it: the count
rises by one, the slot after the last holds the entry, immediately eligible, and its six bytes and
the count are written. -/
def Obligations.AddAppendsANewTag : Prop :=
  ∀ (s : State) (id : TagId) (h : Byte), Serving s → Sound s → acksNext 7 s = true →
    lookup s.store id = none → s.store.numEntries.toNat < s.cfg.capacity →
    ∃ t, exec (.add id h) s = .next t ∧ Responded codeOK s.store.numEntries false t ∧
      t.store.numEntries.toNat = s.store.numEntries.toNat + 1 ∧ ControlKept s t ∧
      slot t.store s.store.numEntries.toNat = ⟨id, h, 0xFFFFFFFF, s.store.nowReg⟩ ∧
      SlotsKeptBut s.store.numEntries.toNat s t ∧
      EntryPersisted t s.store.numEntries.toNat ∧ readNv t countAddr = t.store.numEntries ∧
      NvKeptOutside (entryOrCount s.store.numEntries.toNat) s t ∧
      t.nvSamples = s.nvSamples.drop 7 ∧ OutsideStoreKept s t

/-- 41_store_commands.md R170: ADD of an identifier that is present overwrites its own slot, makes it
eligible again, and writes its six bytes and the unchanged count. -/
def Obligations.AddReregistersAPresentTag : Prop :=
  ∀ (s : State) (id : TagId) (h : Byte) (k : Nat), Serving s → Sound s → acksNext 7 s = true →
    s.store.numEntries.toNat ≤ s.cfg.capacity → lookup s.store id = some k →
    ∃ t, exec (.add id h) s = .next t ∧ Responded codeOK (BitVec.ofNat 8 k) false t ∧
      t.store.numEntries = s.store.numEntries ∧ ControlKept s t ∧
      slot t.store k = ⟨id, h, 0xFFFFFFFF, s.store.nowReg⟩ ∧ SlotsKeptBut k s t ∧
      EntryPersisted t k ∧ readNv t countAddr = s.store.numEntries ∧
      NvKeptOutside (entryOrCount k) s t ∧
      t.nvSamples = s.nvSamples.drop 7 ∧ OutsideStoreKept s t

/-- 41_store_commands.md R170, R165: ADD of a new identifier to a full table overwrites the arbiter's
victim, with flag 1; no capacity error exists. -/
def Obligations.AddEvictsWhenFull : Prop :=
  ∀ (s : State) (id : TagId) (h : Byte), Serving s → Sound s → acksNext 7 s = true →
    lookup s.store id = none → s.store.numEntries.toNat = s.cfg.capacity →
    ∃ t, exec (.add id h) s = .next t ∧
      Responded codeOK (BitVec.ofNat 8 (selectVictim s.cfg.capacity s.store)) true t ∧
      t.store.numEntries = s.store.numEntries ∧ ControlKept s t ∧
      slot t.store (selectVictim s.cfg.capacity s.store) =
        ⟨id, h, 0xFFFFFFFF, s.store.nowReg⟩ ∧
      SlotsKeptBut (selectVictim s.cfg.capacity s.store) s t ∧
      EntryPersisted t (selectVictim s.cfg.capacity s.store) ∧
      readNv t countAddr = s.store.numEntries ∧
      NvKeptOutside (entryOrCount (selectVictim s.cfg.capacity s.store)) s t ∧
      t.nvSamples = s.nvSamples.drop 7 ∧ OutsideStoreKept s t

/-- 41_store_commands.md R144, R170: a tag just added is ALLOWED at once, for every interval and every
time unit. -/
def Obligations.AddedTagIsAllowedAtOnce : Prop :=
  ∀ (s t : State) (id : TagId) (h : Byte), Serving s → Sound s → acksNext 7 s = true →
    s.store.numEntries.toNat ≤ s.cfg.capacity → exec (.add id h) s = .next t →
    ∃ u, exec (.check id) t = .next u ∧
      Responded codeAllowed (BitVec.ofNat 8 (placeTag s.cfg s.store id).slot) false u

/-- 41_store_commands.md R171: an added tag survives a hardware reset and a reload, with its interval.
ADD makes seven NV accesses, the reload one and six more for each entry of the count ADD leaves. -/
def Obligations.AddedTagSurvivesRestart : Prop :=
  ∀ (s t : State) (id : TagId) (h : Byte) (now : Millis) (landed : Bool),
    Serving s → Sound s → s.store.numEntries.toNat ≤ s.cfg.capacity →
    acksNext (7 + (1 + 6 * (placeTag s.cfg s.store id).count.toNat)) s = true →
    exec (.add id h) s = .next t →
    ∃ u, exec (.init false now) (hardReset landed t) = .next u ∧
      u.store.rsp.code = codeOK ∧
      (placeTag s.cfg s.store id).slot < u.store.numEntries.toNat ∧
      (slot u.store (placeTag s.cfg s.store id).slot).id = id ∧
      (slot u.store (placeTag s.cfg s.store id).slot).interval = h

/-- 41_store_commands.md R146, 20_memory.md R60, R58: if the access after `j` acknowledged ones of an
ADD fails (`nv_err`, with or without `nv_ack`), the command ends with NV_FAULT: the first `j` writes
stay, the failed one has left the old or the new byte (which one is the sample's, log entry 15), the
table keeps what was done to it. -/
def Obligations.NvFailureEndsAdd : Prop :=
  ∀ (s : State) (id : TagId) (h : Byte) (j : Nat) (x : NvSample) (rest : List NvSample),
    Serving s → Sound s → s.store.numEntries.toNat ≤ s.cfg.capacity → j < 7 →
    AnswersThen j x rest s → x.err = true →
    ∃ t, exec (.add id h) s = .next t ∧ Responded codeNvFault 0 false t ∧
      t.store.fault = codeNvFault ∧ t.store.initialized = true ∧
      t.store.nowReg = s.store.nowReg ∧
      t.store.numEntries = (placeTag s.cfg s.store id).count ∧
      slot t.store (placeTag s.cfg s.store id).slot = ⟨id, h, 0xFFFFFFFF, s.store.nowReg⟩ ∧
      SlotsKeptBut (placeTag s.cfg s.store id).slot s t ∧
      PersistedUpTo (if x.landed then j + 1 else j) (placeTag s.cfg s.store id).slot
        ⟨id, h, 0xFFFFFFFF, s.store.nowReg⟩ (placeTag s.cfg s.store id).count s t ∧
      t.nvSamples = rest ∧ OutsideStoreKept s t

/-- 20_memory.md R58, R59, R67, 41_store_commands.md R145, 70_reset_and_hazards.md R230: an ADD whose
access after `j` acknowledged ones is not answered stays in progress with that access on the port and
`j` writes done: its record holds its slot, its flag and the writes from number `j` on, the table the
new entry and the new count. A reset there abandons it, leaving those writes and, at most, the
outstanding one. So an append interrupted before its last write leaves the old count. Which byte the
outstanding write leaves is the schedule's choice (log entry 15). -/
def Obligations.InterruptedAddLeavesAPrefixOfItsWrites : Prop :=
  ∀ (s : State) (id : TagId) (h : Byte) (j : Nat) (x : NvSample) (rest : List NvSample),
    Serving s → s.resetSeen = true → Sound s → s.store.port.req = false →
    s.store.numEntries.toNat ≤ s.cfg.capacity → j < 7 → AnswersThen j x rest s →
    x.ack = false → x.err = false →
    ∃ t, exec (.add id h) s = .next t ∧ InProgress t ∧ t.store.fault = 0 ∧
      t.store.inFlight = some ⟨.add (placeTag s.cfg s.store id).slot (placeTag s.cfg s.store id).evicted,
        (persistWrites (placeTag s.cfg s.store id).slot ⟨id, h, 0xFFFFFFFF, s.store.nowReg⟩
          (placeTag s.cfg s.store id).count).drop j⟩ ∧
      PortShows t.store.port
        (if j < 6 then .write (entryAddr (placeTag s.cfg s.store id).slot j)
            (persistedByte ⟨id, h, 0xFFFFFFFF, s.store.nowReg⟩ j)
          else .write countAddr (placeTag s.cfg s.store id).count) ∧
      ControlKept s t ∧ t.store.numEntries = (placeTag s.cfg s.store id).count ∧
      slot t.store (placeTag s.cfg s.store id).slot = ⟨id, h, 0xFFFFFFFF, s.store.nowReg⟩ ∧
      SlotsKeptBut (placeTag s.cfg s.store id).slot s t ∧
      t.nvSamples = rest ∧ OutsideStoreKept s t ∧
      PersistedUpTo j (placeTag s.cfg s.store id).slot
        ⟨id, h, 0xFFFFFFFF, s.store.nowReg⟩ (placeTag s.cfg s.store id).count s t ∧
      (∀ landed, PersistedUpTo (if landed then j + 1 else j) (placeTag s.cfg s.store id).slot
        ⟨id, h, 0xFFFFFFFF, s.store.nowReg⟩ (placeTag s.cfg s.store id).count s
        (hardReset landed t)) ∧
      (j < 6 → ∀ landed, readNv (hardReset landed t) countAddr = readNv s countAddr)

/-- 20_memory.md R58: while the responder answers neither `nv_ack` nor `nv_err`, the store stays busy
with no response, the port holds still, and neither the table nor the NV byte space changes. A
responder that never completes an access holds it so for ever: after any number of cycles the command
is in progress as it was, whatever was offered in them. If the responder first acknowledges `j` of the
accesses still to make and then does not answer, those `j` are done, the next one is on the port, and
the store stays busy with the rest (R59); where that first one was INIT's read of the count, the rest
are the reads of the entries (41_store_commands.md R150). -/
def Obligations.UnansweredAccessHoldsTheStore : Prop :=
  (∀ (s : State) (x : NvSample) (rest : List NvSample), Inv s → s.resetSeen = true →
    s.store.busy = true → AnswersThen 0 x rest s → x.ack = false → x.err = false →
    ∃ t, storeTick s = .next t ∧ InProgress t ∧ t.store.port = s.store.port ∧
      t.store.inFlight = s.store.inFlight ∧ t.store.table = s.store.table ∧
      t.store.numEntries = s.store.numEntries ∧ ControlKept s t ∧ NvKept s t ∧
      t.nvSamples = rest ∧ OutsideStoreKept s t) ∧
  (∀ (n : Nat) (s : State), Inv s → s.resetSeen = true → s.store.busy = true → NeverAnswers s →
    (∀ i ∈ s.inputs, ∃ rx cmd, i = .cycle rx cmd) →
    ∃ t, Host.Core.run Sys2Proof.core n s = .next t ∧ t.store.busy = true ∧
      (0 < n → t.store.rsp.valid = false) ∧ t.store.port = s.store.port ∧
      t.store.inFlight = s.store.inFlight ∧ t.store.table = s.store.table ∧
      t.store.numEntries = s.store.numEntries ∧ ControlKept s t ∧ NvKept s t) ∧
  (∀ (s : State) (f : InFlight) (j : Nat) (x : NvSample) (rest : List NvSample), Inv s →
    s.resetSeen = true → s.store.inFlight = some f → j < f.todo.length → AnswersThen j x rest s →
    x.ack = false → x.err = false →
    ∃ t, storeTick s = .next t ∧ InProgress t ∧
      t.store.inFlight = some ⟨f.job, f.todo.drop j⟩ ∧
      (∀ a, f.todo[j]? = some a → PortShows t.store.port a) ∧
      t.store.numEntries = s.store.numEntries ∧ ControlKept s t ∧
      t.nvSamples = rest ∧ OutsideStoreKept s t ∧
      match f.job with
      | .initEmpty _ => t.store.table = s.store.table ∧ NvKept s t
      | .initCount _ => t.store.table = s.store.table ∧ NvKept s t
      | .initEntries _ _ => LoadedBy (f.todo.take j) s t ∧ NvKept s t
      | .add k _ => t.store.table = s.store.table ∧
          PersistedWithin (7 - f.todo.length) (7 - f.todo.length + j) k (slot s.store k)
            s.store.numEntries s t
      | .clear => t.store.table = s.store.table ∧ NvKept s t) ∧
  (∀ (s : State) (now : Millis) (todo : List Access) (j : Nat) (x : NvSample)
    (rest : List NvSample), Inv s → s.resetSeen = true →
    s.store.inFlight = some ⟨.initCount now, todo⟩ → (readNv s countAddr).toNat ≤ s.cfg.capacity →
    j < 6 * (readNv s countAddr).toNat → AnswersThen (1 + j) x rest s → x.ack = false →
    x.err = false →
    ∃ t, storeTick s = .next t ∧ InProgress t ∧
      t.store.inFlight = some ⟨.initEntries now (readNv s countAddr),
        (loadReads 0 (readNv s countAddr).toNat).drop j⟩ ∧
      (∀ a, (loadReads 0 (readNv s countAddr).toNat)[j]? = some a → PortShows t.store.port a) ∧
      LoadedBy ((loadReads 0 (readNv s countAddr).toNat).take j) s t ∧
      t.store.numEntries = s.store.numEntries ∧ ControlKept s t ∧ NvKept s t ∧
      t.nvSamples = rest ∧ OutsideStoreKept s t)

/-! ## CLEAR (41_store_commands.md R175) -/

/-- 41_store_commands.md R175: CLEAR sets the count to 0 in SRAM and in byte 0, and touches no slot and
no entry byte. -/
def Obligations.ClearEmptiesTheTable : Prop :=
  ∀ s : State, Serving s → Sound s → acksNext 1 s = true →
    ∃ t, exec .clear s = .next t ∧ Responded codeOK 0 false t ∧ t.store.numEntries = 0 ∧
      ControlKept s t ∧ t.store.table = s.store.table ∧ readNv t countAddr = 0 ∧
      NvKeptOutside (fun a => a = countAddr) s t ∧ t.nvSamples = s.nvSamples.drop 1 ∧
      OutsideStoreKept s t

/-- 41_store_commands.md R175, R170: after CLEAR every identifier is UNKNOWN, and the next ADD goes to
slot 0. -/
def Obligations.AfterClearNothingIsKnown : Prop :=
  ∀ (s t : State), Serving s → Sound s → acksNext 1 s = true → exec .clear s = .next t →
    (∀ id, ∃ u, exec (.check id) t = .next u ∧ Responded codeUnknown 0 false u) ∧
    (∀ id, placeTag t.cfg t.store id = ⟨0, 1, false⟩)

/-- 41_store_commands.md R146, R150, R175: a failed access of INIT or CLEAR ends it with NV_FAULT. A
faulted INIT leaves the count, the clock and `initialized` alone, whichever of its accesses fails; where
`j` bytes of the entries were read before, these are in the table, and the slots at and above the
persisted count are as before. A faulted CLEAR has already emptied the table; byte 0 is old or new (log
entry 15). -/
def Obligations.NvFailureEndsInitAndClear : Prop :=
  (∀ (s : State) (now : Millis) (j : Nat) (x : NvSample) (rest : List NvSample),
    Ready s → Sound s → (readNv s countAddr).toNat ≤ s.cfg.capacity →
    j < 6 * (readNv s countAddr).toNat → AnswersThen (1 + j) x rest s → x.err = true →
    ∃ t, exec (.init false now) s = .next t ∧ Responded codeNvFault 0 false t ∧
      t.store.fault = codeNvFault ∧ t.store.initialized = s.store.initialized ∧
      t.store.nowReg = s.store.nowReg ∧ t.store.numEntries = s.store.numEntries ∧
      LoadedBy ((loadReads 0 (readNv s countAddr).toNat).take j) s t ∧
      (∀ k, (readNv s countAddr).toNat ≤ k → slot t.store k = slot s.store k) ∧
      NvKept s t ∧ t.nvSamples = rest ∧ OutsideStoreKept s t) ∧
  ∀ (s : State) (now : Millis) (x : NvSample) (rest : List NvSample),
    Ready s → Sound s → AnswersThen 0 x rest s → x.err = true →
    (∃ t, exec (.init true now) s = .next t ∧ Responded codeNvFault 0 false t ∧
      t.store.fault = codeNvFault ∧ t.store.initialized = s.store.initialized ∧
      t.store.nowReg = s.store.nowReg ∧ t.store.numEntries = s.store.numEntries ∧
      t.store.table = s.store.table ∧
      readNv t countAddr = (if x.landed then 0 else readNv s countAddr) ∧
      NvKeptOutside (fun a => a = countAddr) s t ∧ t.nvSamples = rest ∧ OutsideStoreKept s t) ∧
    (∃ t, exec (.init false now) s = .next t ∧ Responded codeNvFault 0 false t ∧
      t.store.fault = codeNvFault ∧ t.store.initialized = s.store.initialized ∧
      t.store.nowReg = s.store.nowReg ∧ t.store.numEntries = s.store.numEntries ∧
      t.store.table = s.store.table ∧ NvKept s t ∧ t.nvSamples = rest ∧ OutsideStoreKept s t) ∧
    (s.store.initialized = true →
      ∃ t, exec .clear s = .next t ∧ Responded codeNvFault 0 false t ∧
        t.store.fault = codeNvFault ∧ t.store.initialized = true ∧
        t.store.nowReg = s.store.nowReg ∧ t.store.numEntries = 0 ∧
        t.store.table = s.store.table ∧
        readNv t countAddr = (if x.landed then 0 else readNv s countAddr) ∧
        NvKeptOutside (fun a => a = countAddr) s t ∧ t.nvSamples = rest ∧ OutsideStoreKept s t)

/-! ## The machine (00_scope.md, 10_state.md, 70_reset_and_hazards.md) -/

/-- 00_scope.md R9: a configuration outside `1 ≤ CAPACITY ≤ 255`, `TIME_UNIT_S ∈ {1, 3600}` or the
alphabet AF is refused by every step. -/
def Obligations.IllFormedConfigurationIsRefused : Prop :=
  (∀ cfg : Config, cfg.wellFormed = true →
    1 ≤ cfg.capacity ∧ cfg.capacity ≤ 255 ∧ 7 ≤ cfg.totalBytes ∧ cfg.totalBytes ≤ 1531 ∧
    (cfg.timeUnitS = 1 ∨ cfg.timeUnitS = 3600) ∧ cfg.hexAlphabet = .af) ∧
  (∀ s : State, ¬ (7 ≤ s.cfg.totalBytes ∧ s.cfg.totalBytes ≤ 1531 ∧
      (s.cfg.timeUnitS = 1 ∨ s.cfg.timeUnitS = 3600) ∧ s.cfg.hexAlphabet = .af) →
    step s = .refused .configurationRefused)

/-- 00_scope.md R8: CAPACITY is the floor of (TOTAL_BYTES - 1) / 6, and no step changes it. -/
def Obligations.CapacityIsFixedAtBuildTime : Prop :=
  (∀ cfg : Config, cfg.capacity = (cfg.totalBytes - 1) / 6) ∧
  (∀ s t : State, step s = .next t → t.cfg = s.cfg ∧ t.cfg.capacity = s.cfg.capacity)

/-- 10_state.md R35, 70_reset_and_hazards.md R232: what the spec says of the machine right after
reset. -/
def Obligations.ResetStateIsTheSpecs : Prop :=
  ∀ cfg : Config,
    let s := State.resetOf cfg
    s.dec.pos = 0 ∧ s.dec.valid = false ∧ s.store.initialized = false ∧ s.store.fault = 0 ∧
      s.store.busy = false ∧ s.store.numEntries = 0 ∧ s.store.rsp.valid = false ∧
      s.store.port.req = false ∧ s.store.table.length = cfg.capacity ∧
      cmdReady s = true ∧ rxReady s = true ∧ stInit s = false ∧ stFault s = 0 ∧ stCount s = 0 ∧
      (∀ a, readNv s a = Config.initByte cfg.nvInit a)

/-- 70_reset_and_hazards.md R230, 10_state.md R35: a reset edge, whatever is offered at it, gives every
register its reset value, drops a command in progress without a response, and leaves the NV byte
space alone but for a write in progress, which leaves the old byte or the new one (log entry 15). -/
def Obligations.ResetEdgeDiscardsEverythingButNv : Prop :=
  ∀ (s : State) (rx : Option Byte) (cmd : Option CmdWord) (landed : Bool) (rest : List Input),
    s.cfg.wellFormed = true → Memory.wf s.cfg s.nv = true →
    s.inputs = .reset rx cmd landed :: rest →
    ∃ t, step s = .next t ∧ t.dec.pos = 0 ∧ t.dec.valid = false ∧
      t.store.initialized = false ∧ t.store.fault = 0 ∧ t.store.busy = false ∧
      t.store.inFlight = none ∧ t.store.numEntries = 0 ∧ t.store.rsp.valid = false ∧
      t.store.port.req = false ∧ t.store.table.length = s.cfg.capacity ∧
      t.resetSeen = true ∧ t.cfg = s.cfg ∧ t.inputs = rest ∧ t.nvSamples = s.nvSamples ∧
      t.nvRest = s.nvRest ∧
      (∀ a, ¬ (writeOutstanding s = true ∧ a = s.store.port.addr) → readNv t a = readNv s a) ∧
      (writeOutstanding s = true → readNv t s.store.port.addr =
        if landed then s.store.port.wdata else readNv s s.store.port.addr)

/-- 10_state.md R33, 60_exceptions.md R212, 70_reset_and_hazards.md R231, 20_memory.md R67: loss of power
keeps the NV byte space but for a write in progress. Until the next reset edge the rest of the state is
unspecified and a cycle keeps the NV byte space; that edge is a hardware reset with the NV byte space
as it was left (log entry 14). -/
def Obligations.PowerLossKeepsOnlyNv : Prop :=
  (∀ (s : State) (landed : Bool) (rest : List Input),
    s.cfg.wellFormed = true → Memory.wf s.cfg s.nv = true →
    s.inputs = .powerLoss landed :: rest →
    ∃ t, step s = .next t ∧ t.resetSeen = false ∧ t.inputs = rest ∧ t.cfg = s.cfg ∧
      t.nvSamples = s.nvSamples ∧ t.nvRest = s.nvRest ∧
      (∀ a, ¬ (writeOutstanding s = true ∧ a = s.store.port.addr) → readNv t a = readNv s a) ∧
      (writeOutstanding s = true → readNv t s.store.port.addr =
        if landed then s.store.port.wdata else readNv s s.store.port.addr)) ∧
  (∀ (s : State) (rest : List Input), s.cfg.wellFormed = true → s.resetSeen = false →
    (∀ rx cmd, s.inputs = .cycle rx cmd :: rest →
      ∃ t, step s = .next t ∧ t.resetSeen = false ∧ NvKept s t ∧ t.cfg = s.cfg ∧
        t.inputs = rest ∧ t.nvSamples = s.nvSamples ∧ t.nvRest = s.nvRest) ∧
    (∀ rx cmd landed, s.inputs = .reset rx cmd landed :: rest →
      ∃ t, step s = .next t ∧ t.resetSeen = true ∧ t.dec.pos = 0 ∧ t.dec.valid = false ∧
        t.store.initialized = false ∧ t.store.fault = 0 ∧ t.store.busy = false ∧
        t.store.inFlight = none ∧ t.store.numEntries = 0 ∧ t.store.rsp.valid = false ∧
        t.store.port.req = false ∧ t.store.table.length = s.cfg.capacity ∧ NvKept s t ∧
        t.cfg = s.cfg ∧ t.inputs = rest ∧ t.nvSamples = s.nvSamples ∧ t.nvRest = s.nvRest))

/-- 70_reset_and_hazards.md R241, 40_tag_decoder.md R110, 41_store_commands.md R140: a step runs the
operation that the offered byte or word decodes to: the agent it is for executes it, the other one
ticks. A command word that decodes to nothing is offered to the store as an illegal one (30_encoding.md
R91; log entry 20), with a byte or without. That the decoder moves first is the model's choice (log
entry 17); an empty schedule is an idle cycle (log entry 2). -/
def Obligations.StepRunsTheDecodedOperation : Prop :=
  ∀ (s : State) (rest : List Input), s.cfg.wellFormed = true → s.resetSeen = true →
    (∀ b i, decode (.rxByte b) = .ok i → s.inputs = .cycle (some b) none :: rest →
      step s = andThen (exec i { s with inputs := rest }) storeTick) ∧
    (∀ w i, decode (.cmdWord w) = .ok i → s.inputs = .cycle none (some w) :: rest →
      step s = exec i (decTick { s with inputs := rest })) ∧
    (∀ b w i j, decode (.rxByte b) = .ok i → decode (.cmdWord w) = .ok j →
      s.inputs = .cycle (some b) (some w) :: rest →
      step s = andThen (exec i { s with inputs := rest }) (exec j)) ∧
    (s.inputs = .cycle none none :: rest → step s = storeTick (decTick { s with inputs := rest })) ∧
    (s.inputs = [] → step s = storeTick (decTick s)) ∧
    (∀ w e, decode (.cmdWord w) = .error e → s.inputs = .cycle none (some w) :: rest →
      step s = offerIllegal (decTick { s with inputs := rest })) ∧
    (∀ b w i e, decode (.rxByte b) = .ok i → decode (.cmdWord w) = .error e →
      s.inputs = .cycle (some b) (some w) :: rest →
      step s = andThen (exec i { s with inputs := rest }) offerIllegal)

/-- 00_scope.md R2, 20_memory.md R61(d), 60_exceptions.md R202(d): the agents share no state. What a
cycle does to the decoder depends on the decoder and its byte alone; what it does to everything else
does not depend on the decoder or its byte. -/
def Obligations.AgentsDoNotInfluenceEachOther : Prop :=
  ∀ (s s' t t' : State) (rx rx' : Option Byte) (cmd cmd' : Option CmdWord) (rest rest' : List Input),
    s.inputs = .cycle rx cmd :: rest → s'.inputs = .cycle rx' cmd' :: rest' →
    s.resetSeen = s'.resetSeen → step s = .next t → step s' = .next t' →
    (s.dec = s'.dec → rx = rx' → t.dec = t'.dec) ∧
    (s.store = s'.store → s.nv = s'.nv → s.cfg = s'.cfg → s.nvSamples = s'.nvSamples →
      s.nvRest = s'.nvRest → cmd = cmd' →
      t.store = t'.store ∧ t.nv = t'.nv ∧ t.nvSamples = t'.nvSamples)

/-- 60_exceptions.md R208, 10_state.md R24: only INIT and ADVANCE write the clock register, and only
INIT writes `initialized`. So no other operation does; and no cycle does that neither accepts an INIT or
an ADVANCE nor goes on with an INIT, the later steps of an ADD or a CLEAR among them. -/
def Obligations.OnlyInitAndAdvanceSetTheClock : Prop :=
  (∀ (s t : State) (i : Instr), s.store.busy = false → exec i s = .next t →
    (∀ r now, i ≠ .init r now) → (∀ now, i ≠ .advance now) →
    t.store.nowReg = s.store.nowReg ∧ t.store.initialized = s.store.initialized) ∧
  (∀ s t : State, Inv s → s.resetSeen = true → NextIsCycle s → NoInitNext s → step s = .next t →
    t.store.initialized = s.store.initialized ∧
    ((∀ now, ¬ NextTakes (.advance now) s) → t.store.nowReg = s.store.nowReg))

/-! ## What holds in every state -/

/-- 10_state.md R27, R28, R35, 20_memory.md R65: both invariants hold right after reset, the first for
every build the spec allows. That `State.reset` is one of those builds is the model's choice (log
entries 4, 5 and 6). -/
def Obligations.InvHoldsAtReset : Prop :=
  (∀ cfg : Config, cfg.wellFormed = true → Inv (State.resetOf cfg)) ∧ Inv State.reset ∧
  (∀ cfg : Config, MirrorInv (State.resetOf cfg))

/-- 10_state.md R27(a), R28, 20_memory.md R57-R59, 30_encoding.md R93, 60_exceptions.md R201: every step
keeps the invariant: the count stays within CAPACITY, no baseline lies after the clock, the NV byte
space stays canonical, fault and response codes stay the listed ones, the store is busy exactly while
a command waits for an NV access, and the port shows that access. -/
def Obligations.EveryStepKeepsInv : Prop :=
  ∀ s t : State, Inv s → step s = .next t → Inv t

/-- 20_memory.md R52: no command makes an access outside the NV byte space, so the machine always goes
on; and the addresses above 6 * CAPACITY are never written. -/
def Obligations.NoStepLeavesTheNvByteSpace : Prop :=
  ∀ s : State, Inv s →
    (∃ t, step s = .next t) ∧
    (∀ t, step s = .next t → ∀ a, 6 * s.cfg.capacity < a → readNv t a = readNv s a)

/-- 20_memory.md R65: every step keeps the mirror between the table and the NV byte space, through loads,
waits, failures and interrupted commands; so in every idle, fault-free, initialized state the count and
every occupied slot stand in the NV byte space. -/
def Obligations.EveryStepKeepsTheMirror : Prop :=
  (∀ s t : State, Inv s → MirrorInv s → step s = .next t → MirrorInv t) ∧
  (∀ s : State, Inv s → MirrorInv s → s.resetSeen = true → Serving s → Mirrors s)

/-- 10_state.md R27(c): no command but INIT makes two occupied slots hold one identifier; nor does any
step that neither accepts an INIT nor goes on with one, unless power is lost. -/
def Obligations.IdentifiersStayUnique : Prop :=
  (∀ (s t : State) (i : Instr), s.store.busy = false → Built s →
    s.store.numEntries.toNat ≤ s.cfg.capacity → UniqueIds s.store →
    (∀ r now, i ≠ .init r now) → exec i s = .next t → UniqueIds t.store) ∧
  (∀ s t : State, Inv s → NoInitNext s → UniqueIds s.store → step s = .next t →
    t.resetSeen = true → UniqueIds t.store)

/-! ## Commands that take more than one step (20_memory.md R58, 70_reset_and_hazards.md R240)

A command whose NV access was not answered is in progress (`State.store.inFlight`, log entry 21). The
step in which no word is accepted goes on with it: `storeTick`, by `StepRunsTheDecodedOperation` and
`BusyStoreAcceptsNoCommand`. -/

/-- 20_memory.md R58, 41_store_commands.md R145, R170, R175: once the accesses still to make are
acknowledged, an ADD in progress answers OK with its slot and its flag, and the writes that were left
have been done, the count last; a CLEAR in progress answers OK and byte 0 is 0. Nothing else changes. -/
def Obligations.ResumedAddAndClearComplete : Prop :=
  ∀ (s : State) (todo : List Access), Inv s → s.resetSeen = true →
    acksNext todo.length s = true →
    (∀ k evicted, s.store.inFlight = some ⟨.add k evicted, todo⟩ →
      ∃ t, storeTick s = .next t ∧ Responded codeOK (BitVec.ofNat 8 k) evicted t ∧
        ControlKept s t ∧ t.store.numEntries = s.store.numEntries ∧
        t.store.table = s.store.table ∧
        PersistedWithin (7 - todo.length) 7 k (slot s.store k) s.store.numEntries s t ∧
        readNv t countAddr = s.store.numEntries ∧
        t.nvSamples = s.nvSamples.drop todo.length ∧ OutsideStoreKept s t) ∧
    (s.store.inFlight = some ⟨.clear, todo⟩ →
      ∃ t, storeTick s = .next t ∧ Responded codeOK 0 false t ∧ ControlKept s t ∧
        t.store.numEntries = 0 ∧ t.store.table = s.store.table ∧ readNv t countAddr = 0 ∧
        NvKeptOutside (fun a => a = countAddr) s t ∧
        t.nvSamples = s.nvSamples.drop 1 ∧ OutsideStoreKept s t)

/-- 20_memory.md R58, 41_store_commands.md R150-R152: an INIT in progress completes as it would have in
one step. With R = 1: byte 0 and the count 0, the clock, OK with flag 1. With R = 0 and the count not
read yet: LOAD_FAULT above CAPACITY, else the entries. With R = 0 and some entry bytes read: the others
are read; every loaded slot has the sentinel carry and baseline 0, and, where what was read before still
mirrors the NV byte space, holds the persisted entry. -/
def Obligations.ResumedInitCompletes : Prop :=
  ∀ (s : State) (now : Millis) (todo : List Access), Inv s → s.resetSeen = true →
    (s.store.inFlight = some ⟨.initEmpty now, todo⟩ → acksNext 1 s = true →
      ∃ t, storeTick s = .next t ∧ Responded codeOK 0 true t ∧ t.store.initialized = true ∧
        t.store.fault = 0 ∧ t.store.nowReg = now ∧ t.store.numEntries = 0 ∧
        t.store.table = s.store.table ∧ readNv t countAddr = 0 ∧
        NvKeptOutside (fun a => a = countAddr) s t ∧
        t.nvSamples = s.nvSamples.drop 1 ∧ OutsideStoreKept s t) ∧
    (s.store.inFlight = some ⟨.initCount now, todo⟩ →
      s.cfg.capacity < (readNv s countAddr).toNat → acksNext 1 s = true →
      ∃ t, storeTick s = .next t ∧ Responded codeLoadFault 0 false t ∧
        t.store.fault = codeLoadFault ∧ t.store.initialized = s.store.initialized ∧
        t.store.nowReg = s.store.nowReg ∧ t.store.numEntries = s.store.numEntries ∧
        t.store.table = s.store.table ∧ NvKept s t ∧ t.nvSamples = s.nvSamples.drop 1 ∧
        OutsideStoreKept s t) ∧
    (s.store.inFlight = some ⟨.initCount now, todo⟩ →
      (readNv s countAddr).toNat ≤ s.cfg.capacity →
      acksNext (1 + 6 * (readNv s countAddr).toNat) s = true →
      ∃ t, storeTick s = .next t ∧ Responded codeOK (readNv s countAddr) false t ∧
        t.store.initialized = true ∧ t.store.fault = 0 ∧ t.store.nowReg = now ∧
        t.store.numEntries = readNv s countAddr ∧
        t.store.table.length = s.store.table.length ∧
        (∀ k, k < (readNv s countAddr).toNat → slot t.store k = loadedEntry s k) ∧
        (∀ k, (readNv s countAddr).toNat ≤ k → slot t.store k = slot s.store k) ∧
        NvKept s t ∧ t.nvSamples = s.nvSamples.drop (1 + 6 * (readNv s countAddr).toNat) ∧
        OutsideStoreKept s t) ∧
    (∀ n, s.store.inFlight = some ⟨.initEntries now n, todo⟩ → acksNext todo.length s = true →
      ∃ t, storeTick s = .next t ∧ Responded codeOK n false t ∧
        t.store.initialized = true ∧ t.store.fault = 0 ∧ t.store.nowReg = now ∧
        t.store.numEntries = n ∧ LoadedBy todo s t ∧
        (∀ k, k < n.toNat → (slot t.store k).carry = 0xFFFFFFFF ∧ (slot t.store k).lastGrant = 0) ∧
        (MirrorInv s → ∀ k, k < n.toNat → slot t.store k = loadedEntry s k) ∧
        (∀ k, n.toNat ≤ k → slot t.store k = slot s.store k) ∧
        NvKept s t ∧ t.nvSamples = s.nvSamples.drop todo.length ∧ OutsideStoreKept s t)

/-- 20_memory.md R58, R60, 41_store_commands.md R146: a command in progress whose access fails after `j`
more acknowledged ones ends with NV_FAULT; the clock, the count and `initialized` stay. What was done
stays: an ADD's writes, and the failed one as its sample says (log entry 15); a load's reads; a failed
write of INIT or CLEAR leaves byte 0 old or new. -/
def Obligations.NvFailureEndsAResumedCommand : Prop :=
  (∀ (s : State) (f : InFlight) (j : Nat) (x : NvSample) (rest : List NvSample), Inv s →
    s.resetSeen = true → s.store.inFlight = some f → j < f.todo.length → AnswersThen j x rest s →
    x.err = true →
    ∃ t, storeTick s = .next t ∧ Responded codeNvFault 0 false t ∧
      t.store.fault = codeNvFault ∧ t.store.initialized = s.store.initialized ∧
      t.store.nowReg = s.store.nowReg ∧ t.store.numEntries = s.store.numEntries ∧
      t.nvSamples = rest ∧ OutsideStoreKept s t ∧
      match f.job with
      | .initEmpty _ => t.store.table = s.store.table ∧
          readNv t countAddr = (if x.landed then 0 else readNv s countAddr) ∧
          NvKeptOutside (fun a => a = countAddr) s t
      | .initCount _ => t.store.table = s.store.table ∧ NvKept s t
      | .initEntries _ n => LoadedBy (f.todo.take j) s t ∧
          (∀ k, n.toNat ≤ k → slot t.store k = slot s.store k) ∧ NvKept s t
      | .add k _ => t.store.table = s.store.table ∧
          PersistedWithin (7 - f.todo.length)
            (7 - f.todo.length + (if x.landed then j + 1 else j)) k (slot s.store k)
            s.store.numEntries s t
      | .clear => t.store.table = s.store.table ∧
          readNv t countAddr = (if x.landed then 0 else readNv s countAddr) ∧
          NvKeptOutside (fun a => a = countAddr) s t) ∧
  (∀ (s : State) (now : Millis) (todo : List Access) (j : Nat) (x : NvSample)
    (rest : List NvSample), Inv s → s.resetSeen = true →
    s.store.inFlight = some ⟨.initCount now, todo⟩ → (readNv s countAddr).toNat ≤ s.cfg.capacity →
    j < 6 * (readNv s countAddr).toNat → AnswersThen (1 + j) x rest s → x.err = true →
    ∃ t, storeTick s = .next t ∧ Responded codeNvFault 0 false t ∧
      t.store.fault = codeNvFault ∧ t.store.initialized = s.store.initialized ∧
      t.store.nowReg = s.store.nowReg ∧ t.store.numEntries = s.store.numEntries ∧
      LoadedBy ((loadReads 0 (readNv s countAddr).toNat).take j) s t ∧
      (∀ k, (readNv s countAddr).toNat ≤ k → slot t.store k = slot s.store k) ∧
      NvKept s t ∧ t.nvSamples = rest ∧ OutsideStoreKept s t)

/-- 20_memory.md R58, R59, 41_store_commands.md R150, R175: an INIT or a CLEAR whose NV access is not
answered stays in progress with that access on the port; a load that has read the count and `j` bytes
of the entries has those in the table. The clock and `initialized` wait for the end of an INIT; CLEAR
has emptied the table. -/
def Obligations.UnansweredInitAndClearStayInProgress : Prop :=
  (∀ (s : State) (now : Millis) (x : NvSample) (rest : List NvSample), Ready s → Sound s →
    s.store.port.req = false → AnswersThen 0 x rest s → x.ack = false → x.err = false →
    (∃ t, exec (.init true now) s = .next t ∧ InProgress t ∧
      t.store.inFlight = some ⟨.initEmpty now, [.write countAddr 0]⟩ ∧
      PortShows t.store.port (.write countAddr 0) ∧ ControlKept s t ∧
      t.store.numEntries = s.store.numEntries ∧ t.store.table = s.store.table ∧ NvKept s t ∧
      t.nvSamples = rest ∧ OutsideStoreKept s t) ∧
    (∃ t, exec (.init false now) s = .next t ∧ InProgress t ∧
      t.store.inFlight = some ⟨.initCount now, [.readCount]⟩ ∧
      PortShows t.store.port .readCount ∧ ControlKept s t ∧
      t.store.numEntries = s.store.numEntries ∧ t.store.table = s.store.table ∧ NvKept s t ∧
      t.nvSamples = rest ∧ OutsideStoreKept s t) ∧
    (s.store.initialized = true →
      ∃ t, exec .clear s = .next t ∧ InProgress t ∧
        t.store.inFlight = some ⟨.clear, [.write countAddr 0]⟩ ∧
        PortShows t.store.port (.write countAddr 0) ∧ ControlKept s t ∧
        t.store.numEntries = 0 ∧ t.store.table = s.store.table ∧ NvKept s t ∧
        t.nvSamples = rest ∧ OutsideStoreKept s t)) ∧
  (∀ (s : State) (now : Millis) (j : Nat) (x : NvSample) (rest : List NvSample), Ready s →
    Sound s → (readNv s countAddr).toNat ≤ s.cfg.capacity →
    j < 6 * (readNv s countAddr).toNat → AnswersThen (1 + j) x rest s → x.ack = false →
    x.err = false →
    ∃ t, exec (.init false now) s = .next t ∧ InProgress t ∧
      t.store.inFlight = some ⟨.initEntries now (readNv s countAddr),
        (loadReads 0 (readNv s countAddr).toNat).drop j⟩ ∧
      (∀ a, (loadReads 0 (readNv s countAddr).toNat)[j]? = some a → PortShows t.store.port a) ∧
      LoadedBy ((loadReads 0 (readNv s countAddr).toNat).take j) s t ∧
      t.store.numEntries = s.store.numEntries ∧ ControlKept s t ∧ NvKept s t ∧
      t.nvSamples = rest ∧ OutsideStoreKept s t)

/-! ## A store with nothing to do -/

/-- 10_state.md R30, 20_memory.md R58, 60_exceptions.md R206: a cycle that offers no command word to a
store that is not busy shows no response, requests no NV access, and leaves every slot with its carry
and baseline, the count, the clock, `initialized`, the fault, the NV byte space and the responder as
they were, whether a byte is offered or not. So a response stands for one cycle. -/
def Obligations.IdleStoreShowsNoResponse : Prop :=
  ∀ (s : State) (rest : List Input), s.cfg.wellFormed = true → s.resetSeen = true →
    s.store.busy = false →
    ((∃ rx, s.inputs = .cycle rx none :: rest) ∨ (s.inputs = [] ∧ rest = [])) →
    ∃ t, step s = .next t ∧ t.store.rsp.valid = false ∧ t.store.port.req = false ∧
      t.store.busy = false ∧ t.store.inFlight = s.store.inFlight ∧
      t.store.table = s.store.table ∧ t.store.numEntries = s.store.numEntries ∧
      ControlKept s t ∧ NvKept s t ∧ t.nvSamples = s.nvSamples ∧ t.nvRest = s.nvRest ∧
      t.cfg = s.cfg ∧ t.resetSeen = true ∧ t.inputs = rest
end

