-- ==== Sys2Proof/Laws/State.lean ====
section
/-! SUPPORT. One lemma per field per update of the state: true by rfl, tagged simp. -/

namespace Sys2Proof.Machine

/-! ### writeNv -/

@[simp] theorem writeNv_cfg (a : Nat) (v : Byte) (s : State) :
    (writeNv a v s).cfg = s.cfg := rfl
@[simp] theorem writeNv_dec (a : Nat) (v : Byte) (s : State) :
    (writeNv a v s).dec = s.dec := rfl
@[simp] theorem writeNv_nv (a : Nat) (v : Byte) (s : State) :
    (writeNv a v s).nv = s.nv.write s.cfg.nvInit a v := rfl
@[simp] theorem writeNv_resetSeen (a : Nat) (v : Byte) (s : State) :
    (writeNv a v s).resetSeen = s.resetSeen := rfl
@[simp] theorem writeNv_inputs (a : Nat) (v : Byte) (s : State) :
    (writeNv a v s).inputs = s.inputs := rfl
@[simp] theorem writeNv_nvSamples (a : Nat) (v : Byte) (s : State) :
    (writeNv a v s).nvSamples = s.nvSamples := rfl
@[simp] theorem writeNv_nvRest (a : Nat) (v : Byte) (s : State) :
    (writeNv a v s).nvRest = s.nvRest := rfl
@[simp] theorem writeNv_store (a : Nat) (v : Byte) (s : State) :
    (writeNv a v s).store = s.store := rfl

/-! ### respond -/

@[simp] theorem respond_cfg (code : BitVec 4) (info : Byte) (flag : Bool) (s : State) :
    (respond code info flag s).cfg = s.cfg := rfl
@[simp] theorem respond_dec (code : BitVec 4) (info : Byte) (flag : Bool) (s : State) :
    (respond code info flag s).dec = s.dec := rfl
@[simp] theorem respond_nv (code : BitVec 4) (info : Byte) (flag : Bool) (s : State) :
    (respond code info flag s).nv = s.nv := rfl
@[simp] theorem respond_resetSeen (code : BitVec 4) (info : Byte) (flag : Bool) (s : State) :
    (respond code info flag s).resetSeen = s.resetSeen := rfl
@[simp] theorem respond_inputs (code : BitVec 4) (info : Byte) (flag : Bool) (s : State) :
    (respond code info flag s).inputs = s.inputs := rfl
@[simp] theorem respond_nvSamples (code : BitVec 4) (info : Byte) (flag : Bool) (s : State) :
    (respond code info flag s).nvSamples = s.nvSamples := rfl
@[simp] theorem respond_nvRest (code : BitVec 4) (info : Byte) (flag : Bool) (s : State) :
    (respond code info flag s).nvRest = s.nvRest := rfl
@[simp] theorem respond_store_initialized (code : BitVec 4) (info : Byte) (flag : Bool) (s : State) :
    (respond code info flag s).store.initialized = s.store.initialized := rfl
@[simp] theorem respond_store_fault (code : BitVec 4) (info : Byte) (flag : Bool) (s : State) :
    (respond code info flag s).store.fault = s.store.fault := rfl
@[simp] theorem respond_store_busy (code : BitVec 4) (info : Byte) (flag : Bool) (s : State) :
    (respond code info flag s).store.busy = false := rfl
@[simp] theorem respond_store_nowReg (code : BitVec 4) (info : Byte) (flag : Bool) (s : State) :
    (respond code info flag s).store.nowReg = s.store.nowReg := rfl
@[simp] theorem respond_store_numEntries (code : BitVec 4) (info : Byte) (flag : Bool) (s : State) :
    (respond code info flag s).store.numEntries = s.store.numEntries := rfl
@[simp] theorem respond_store_table (code : BitVec 4) (info : Byte) (flag : Bool) (s : State) :
    (respond code info flag s).store.table = s.store.table := rfl
@[simp] theorem respond_store_rsp (code : BitVec 4) (info : Byte) (flag : Bool) (s : State) :
    (respond code info flag s).store.rsp = ⟨true, code, info, flag⟩ := rfl
@[simp] theorem respond_store_port (code : BitVec 4) (info : Byte) (flag : Bool) (s : State) :
    (respond code info flag s).store.port = idlePort s.cfg s.store.draws := rfl
@[simp] theorem respond_store_inFlight (code : BitVec 4) (info : Byte) (flag : Bool) (s : State) :
    (respond code info flag s).store.inFlight = none := rfl

/-! ### raiseFault -/

@[simp] theorem raiseFault_cfg (code : BitVec 4) (s : State) :
    (raiseFault code s).cfg = s.cfg := rfl
@[simp] theorem raiseFault_dec (code : BitVec 4) (s : State) :
    (raiseFault code s).dec = s.dec := rfl
@[simp] theorem raiseFault_nv (code : BitVec 4) (s : State) :
    (raiseFault code s).nv = s.nv := rfl
@[simp] theorem raiseFault_resetSeen (code : BitVec 4) (s : State) :
    (raiseFault code s).resetSeen = s.resetSeen := rfl
@[simp] theorem raiseFault_inputs (code : BitVec 4) (s : State) :
    (raiseFault code s).inputs = s.inputs := rfl
@[simp] theorem raiseFault_nvSamples (code : BitVec 4) (s : State) :
    (raiseFault code s).nvSamples = s.nvSamples := rfl
@[simp] theorem raiseFault_nvRest (code : BitVec 4) (s : State) :
    (raiseFault code s).nvRest = s.nvRest := rfl
@[simp] theorem raiseFault_store_initialized (code : BitVec 4) (s : State) :
    (raiseFault code s).store.initialized = s.store.initialized := rfl
@[simp] theorem raiseFault_store_fault (code : BitVec 4) (s : State) :
    (raiseFault code s).store.fault = code := rfl
@[simp] theorem raiseFault_store_busy (code : BitVec 4) (s : State) :
    (raiseFault code s).store.busy = false := rfl
@[simp] theorem raiseFault_store_nowReg (code : BitVec 4) (s : State) :
    (raiseFault code s).store.nowReg = s.store.nowReg := rfl
@[simp] theorem raiseFault_store_numEntries (code : BitVec 4) (s : State) :
    (raiseFault code s).store.numEntries = s.store.numEntries := rfl
@[simp] theorem raiseFault_store_table (code : BitVec 4) (s : State) :
    (raiseFault code s).store.table = s.store.table := rfl
@[simp] theorem raiseFault_store_rsp (code : BitVec 4) (s : State) :
    (raiseFault code s).store.rsp = ⟨true, code, 0, false⟩ := rfl
@[simp] theorem raiseFault_store_port (code : BitVec 4) (s : State) :
    (raiseFault code s).store.port = idlePort s.cfg s.store.draws := rfl
@[simp] theorem raiseFault_store_inFlight (code : BitVec 4) (s : State) :
    (raiseFault code s).store.inFlight = none := rfl

/-! ### releasePort -/

@[simp] theorem releasePort_cfg (s : State) :
    (releasePort s).cfg = s.cfg := rfl
@[simp] theorem releasePort_dec (s : State) :
    (releasePort s).dec = s.dec := rfl
@[simp] theorem releasePort_nv (s : State) :
    (releasePort s).nv = s.nv := rfl
@[simp] theorem releasePort_resetSeen (s : State) :
    (releasePort s).resetSeen = s.resetSeen := rfl
@[simp] theorem releasePort_inputs (s : State) :
    (releasePort s).inputs = s.inputs := rfl
@[simp] theorem releasePort_nvSamples (s : State) :
    (releasePort s).nvSamples = s.nvSamples := rfl
@[simp] theorem releasePort_nvRest (s : State) :
    (releasePort s).nvRest = s.nvRest := rfl
@[simp] theorem releasePort_store_initialized (s : State) :
    (releasePort s).store.initialized = s.store.initialized := rfl
@[simp] theorem releasePort_store_fault (s : State) :
    (releasePort s).store.fault = s.store.fault := rfl
@[simp] theorem releasePort_store_busy (s : State) :
    (releasePort s).store.busy = s.store.busy := rfl
@[simp] theorem releasePort_store_nowReg (s : State) :
    (releasePort s).store.nowReg = s.store.nowReg := rfl
@[simp] theorem releasePort_store_numEntries (s : State) :
    (releasePort s).store.numEntries = s.store.numEntries := rfl
@[simp] theorem releasePort_store_table (s : State) :
    (releasePort s).store.table = s.store.table := rfl
@[simp] theorem releasePort_store_rsp (s : State) :
    (releasePort s).store.rsp = s.store.rsp := rfl
@[simp] theorem releasePort_store_port (s : State) :
    (releasePort s).store.port = { s.store.port with req := false } := rfl
@[simp] theorem releasePort_store_inFlight (s : State) :
    (releasePort s).store.inFlight = s.store.inFlight := rfl

/-! ### park -/

@[simp] theorem park_cfg (job : Job) (todo : List Access) (s : State) :
    (park job todo s).cfg = s.cfg := rfl
@[simp] theorem park_dec (job : Job) (todo : List Access) (s : State) :
    (park job todo s).dec = s.dec := rfl
@[simp] theorem park_nv (job : Job) (todo : List Access) (s : State) :
    (park job todo s).nv = s.nv := rfl
@[simp] theorem park_resetSeen (job : Job) (todo : List Access) (s : State) :
    (park job todo s).resetSeen = s.resetSeen := rfl
@[simp] theorem park_inputs (job : Job) (todo : List Access) (s : State) :
    (park job todo s).inputs = s.inputs := rfl
@[simp] theorem park_nvSamples (job : Job) (todo : List Access) (s : State) :
    (park job todo s).nvSamples = s.nvSamples := rfl
@[simp] theorem park_nvRest (job : Job) (todo : List Access) (s : State) :
    (park job todo s).nvRest = s.nvRest := rfl
@[simp] theorem park_store_initialized (job : Job) (todo : List Access) (s : State) :
    (park job todo s).store.initialized = s.store.initialized := rfl
@[simp] theorem park_store_fault (job : Job) (todo : List Access) (s : State) :
    (park job todo s).store.fault = s.store.fault := rfl
@[simp] theorem park_store_busy (job : Job) (todo : List Access) (s : State) :
    (park job todo s).store.busy = true := rfl
@[simp] theorem park_store_nowReg (job : Job) (todo : List Access) (s : State) :
    (park job todo s).store.nowReg = s.store.nowReg := rfl
@[simp] theorem park_store_numEntries (job : Job) (todo : List Access) (s : State) :
    (park job todo s).store.numEntries = s.store.numEntries := rfl
@[simp] theorem park_store_table (job : Job) (todo : List Access) (s : State) :
    (park job todo s).store.table = s.store.table := rfl
@[simp] theorem park_store_rsp (job : Job) (todo : List Access) (s : State) :
    (park job todo s).store.rsp = noResponse s.store.draws := rfl
@[simp] theorem park_store_port (job : Job) (todo : List Access) (s : State) :
    (park job todo s).store.port = s.store.port := rfl
@[simp] theorem park_store_inFlight (job : Job) (todo : List Access) (s : State) :
    (park job todo s).store.inFlight = some ⟨job, todo⟩ := rfl

/-! ### commitInit -/

@[simp] theorem commitInit_cfg (n : Byte) (now : Millis) (r : Bool) (s : State) :
    (commitInit n now r s).cfg = s.cfg := rfl
@[simp] theorem commitInit_dec (n : Byte) (now : Millis) (r : Bool) (s : State) :
    (commitInit n now r s).dec = s.dec := rfl
@[simp] theorem commitInit_nv (n : Byte) (now : Millis) (r : Bool) (s : State) :
    (commitInit n now r s).nv = s.nv := rfl
@[simp] theorem commitInit_resetSeen (n : Byte) (now : Millis) (r : Bool) (s : State) :
    (commitInit n now r s).resetSeen = s.resetSeen := rfl
@[simp] theorem commitInit_inputs (n : Byte) (now : Millis) (r : Bool) (s : State) :
    (commitInit n now r s).inputs = s.inputs := rfl
@[simp] theorem commitInit_nvSamples (n : Byte) (now : Millis) (r : Bool) (s : State) :
    (commitInit n now r s).nvSamples = s.nvSamples := rfl
@[simp] theorem commitInit_nvRest (n : Byte) (now : Millis) (r : Bool) (s : State) :
    (commitInit n now r s).nvRest = s.nvRest := rfl
@[simp] theorem commitInit_store_initialized (n : Byte) (now : Millis) (r : Bool) (s : State) :
    (commitInit n now r s).store.initialized = true := rfl
@[simp] theorem commitInit_store_fault (n : Byte) (now : Millis) (r : Bool) (s : State) :
    (commitInit n now r s).store.fault = s.store.fault := rfl
@[simp] theorem commitInit_store_busy (n : Byte) (now : Millis) (r : Bool) (s : State) :
    (commitInit n now r s).store.busy = false := rfl
@[simp] theorem commitInit_store_nowReg (n : Byte) (now : Millis) (r : Bool) (s : State) :
    (commitInit n now r s).store.nowReg = now := rfl
@[simp] theorem commitInit_store_numEntries (n : Byte) (now : Millis) (r : Bool) (s : State) :
    (commitInit n now r s).store.numEntries = n := rfl
@[simp] theorem commitInit_store_table (n : Byte) (now : Millis) (r : Bool) (s : State) :
    (commitInit n now r s).store.table = s.store.table := rfl
@[simp] theorem commitInit_store_rsp (n : Byte) (now : Millis) (r : Bool) (s : State) :
    (commitInit n now r s).store.rsp = ⟨true, codeOK, n, r⟩ := rfl
@[simp] theorem commitInit_store_port (n : Byte) (now : Millis) (r : Bool) (s : State) :
    (commitInit n now r s).store.port = idlePort s.cfg s.store.draws := rfl
@[simp] theorem commitInit_store_inFlight (n : Byte) (now : Millis) (r : Bool) (s : State) :
    (commitInit n now r s).store.inFlight = none := rfl

/-! ### decTick -/

@[simp] theorem decTick_cfg (s : State) :
    (decTick s).cfg = s.cfg := rfl
@[simp] theorem decTick_dec (s : State) :
    (decTick s).dec = noResult s.dec := rfl
@[simp] theorem decTick_nv (s : State) :
    (decTick s).nv = s.nv := rfl
@[simp] theorem decTick_resetSeen (s : State) :
    (decTick s).resetSeen = s.resetSeen := rfl
@[simp] theorem decTick_inputs (s : State) :
    (decTick s).inputs = s.inputs := rfl
@[simp] theorem decTick_nvSamples (s : State) :
    (decTick s).nvSamples = s.nvSamples := rfl
@[simp] theorem decTick_nvRest (s : State) :
    (decTick s).nvRest = s.nvRest := rfl
@[simp] theorem decTick_store (s : State) :
    (decTick s).store = s.store := rfl

/-! ### beginCommand -/

@[simp] theorem beginCommand_cfg (s : State) : (beginCommand s).cfg = s.cfg := rfl
@[simp] theorem beginCommand_dec (s : State) : (beginCommand s).dec = s.dec := rfl
@[simp] theorem beginCommand_nv (s : State) : (beginCommand s).nv = s.nv := rfl
@[simp] theorem beginCommand_resetSeen (s : State) : (beginCommand s).resetSeen = s.resetSeen := rfl
@[simp] theorem beginCommand_inputs (s : State) : (beginCommand s).inputs = s.inputs := rfl
@[simp] theorem beginCommand_nvSamples (s : State) : (beginCommand s).nvSamples = s.nvSamples := rfl
@[simp] theorem beginCommand_nvRest (s : State) : (beginCommand s).nvRest = s.nvRest := rfl
@[simp] theorem beginCommand_store_initialized (s : State) :
    (beginCommand s).store.initialized = s.store.initialized := rfl
@[simp] theorem beginCommand_store_fault (s : State) :
    (beginCommand s).store.fault = s.store.fault := rfl
@[simp] theorem beginCommand_store_busy (s : State) :
    (beginCommand s).store.busy = true := rfl
@[simp] theorem beginCommand_store_nowReg (s : State) :
    (beginCommand s).store.nowReg = s.store.nowReg := rfl
@[simp] theorem beginCommand_store_numEntries (s : State) :
    (beginCommand s).store.numEntries = s.store.numEntries := rfl
@[simp] theorem beginCommand_store_table (s : State) :
    (beginCommand s).store.table = s.store.table := rfl
@[simp] theorem beginCommand_store_rsp (s : State) :
    (beginCommand s).store.rsp = s.store.rsp := rfl
@[simp] theorem beginCommand_store_port (s : State) :
    (beginCommand s).store.port = s.store.port := rfl
@[simp] theorem beginCommand_store_inFlight (s : State) :
    (beginCommand s).store.inFlight = s.store.inFlight := rfl

/-! ### setSlot -/

@[simp] theorem setSlot_initialized (st : Store) (k : Nat) (e : Entry) :
    (setSlot st k e).initialized = st.initialized := rfl
@[simp] theorem setSlot_fault (st : Store) (k : Nat) (e : Entry) :
    (setSlot st k e).fault = st.fault := rfl
@[simp] theorem setSlot_busy (st : Store) (k : Nat) (e : Entry) :
    (setSlot st k e).busy = st.busy := rfl
@[simp] theorem setSlot_nowReg (st : Store) (k : Nat) (e : Entry) :
    (setSlot st k e).nowReg = st.nowReg := rfl
@[simp] theorem setSlot_numEntries (st : Store) (k : Nat) (e : Entry) :
    (setSlot st k e).numEntries = st.numEntries := rfl
@[simp] theorem setSlot_table (st : Store) (k : Nat) (e : Entry) :
    (setSlot st k e).table = st.table.set k e := rfl
@[simp] theorem setSlot_rsp (st : Store) (k : Nat) (e : Entry) :
    (setSlot st k e).rsp = st.rsp := rfl
@[simp] theorem setSlot_port (st : Store) (k : Nat) (e : Entry) :
    (setSlot st k e).port = st.port := rfl
@[simp] theorem setSlot_inFlight (st : Store) (k : Nat) (e : Entry) :
    (setSlot st k e).inFlight = st.inFlight := rfl

/-! ### issue, performAccess, landAccess: by cases, since each is one -/

@[simp] theorem issue_cfg (a : Access) (s : State) : (issue a s).cfg = s.cfg := by
  unfold issue; split <;> rfl
@[simp] theorem issue_dec (a : Access) (s : State) : (issue a s).dec = s.dec := by
  unfold issue; split <;> rfl
@[simp] theorem issue_nv (a : Access) (s : State) : (issue a s).nv = s.nv := by
  unfold issue; split <;> rfl
@[simp] theorem issue_resetSeen (a : Access) (s : State) : (issue a s).resetSeen = s.resetSeen := by
  unfold issue; split <;> rfl
@[simp] theorem issue_inputs (a : Access) (s : State) : (issue a s).inputs = s.inputs := by
  unfold issue; split <;> rfl
@[simp] theorem issue_nvSamples (a : Access) (s : State) : (issue a s).nvSamples = s.nvSamples := by
  unfold issue; split <;> rfl
@[simp] theorem issue_nvRest (a : Access) (s : State) : (issue a s).nvRest = s.nvRest := by
  unfold issue; split <;> rfl
@[simp] theorem issue_store_initialized (a : Access) (s : State) :
    (issue a s).store.initialized = s.store.initialized := by
  unfold issue; split <;> rfl
@[simp] theorem issue_store_fault (a : Access) (s : State) :
    (issue a s).store.fault = s.store.fault := by
  unfold issue; split <;> rfl
@[simp] theorem issue_store_busy (a : Access) (s : State) :
    (issue a s).store.busy = s.store.busy := by
  unfold issue; split <;> rfl
@[simp] theorem issue_store_nowReg (a : Access) (s : State) :
    (issue a s).store.nowReg = s.store.nowReg := by
  unfold issue; split <;> rfl
@[simp] theorem issue_store_numEntries (a : Access) (s : State) :
    (issue a s).store.numEntries = s.store.numEntries := by
  unfold issue; split <;> rfl
@[simp] theorem issue_store_table (a : Access) (s : State) :
    (issue a s).store.table = s.store.table := by
  unfold issue; split <;> rfl
@[simp] theorem issue_store_rsp (a : Access) (s : State) :
    (issue a s).store.rsp = s.store.rsp := by
  unfold issue; split <;> rfl
@[simp] theorem issue_store_inFlight (a : Access) (s : State) :
    (issue a s).store.inFlight = s.store.inFlight := by
  unfold issue; split <;> rfl
@[simp] theorem performAccess_cfg (a : Access) (s : State) :
    (performAccess a s).cfg = s.cfg := by
  cases a <;> rfl
@[simp] theorem performAccess_dec (a : Access) (s : State) :
    (performAccess a s).dec = s.dec := by
  cases a <;> rfl
@[simp] theorem performAccess_store (a : Access) (s : State) :
    (performAccess a s).store = s.store := by
  cases a <;> rfl
@[simp] theorem performAccess_resetSeen (a : Access) (s : State) :
    (performAccess a s).resetSeen = s.resetSeen := by
  cases a <;> rfl
@[simp] theorem performAccess_inputs (a : Access) (s : State) :
    (performAccess a s).inputs = s.inputs := by
  cases a <;> rfl
@[simp] theorem performAccess_nvSamples (a : Access) (s : State) :
    (performAccess a s).nvSamples = s.nvSamples := by
  cases a <;> rfl
@[simp] theorem performAccess_nvRest (a : Access) (s : State) :
    (performAccess a s).nvRest = s.nvRest := by
  cases a <;> rfl
@[simp] theorem landAccess_cfg (a : Access) (v : Byte) (s : State) :
    (landAccess a v s).cfg = s.cfg := by
  cases a <;> rfl
@[simp] theorem landAccess_dec (a : Access) (v : Byte) (s : State) :
    (landAccess a v s).dec = s.dec := by
  cases a <;> rfl
@[simp] theorem landAccess_nv (a : Access) (v : Byte) (s : State) :
    (landAccess a v s).nv = s.nv := by
  cases a <;> rfl
@[simp] theorem landAccess_resetSeen (a : Access) (v : Byte) (s : State) :
    (landAccess a v s).resetSeen = s.resetSeen := by
  cases a <;> rfl
@[simp] theorem landAccess_inputs (a : Access) (v : Byte) (s : State) :
    (landAccess a v s).inputs = s.inputs := by
  cases a <;> rfl
@[simp] theorem landAccess_nvSamples (a : Access) (v : Byte) (s : State) :
    (landAccess a v s).nvSamples = s.nvSamples := by
  cases a <;> rfl
@[simp] theorem landAccess_nvRest (a : Access) (v : Byte) (s : State) :
    (landAccess a v s).nvRest = s.nvRest := by
  cases a <;> rfl
@[simp] theorem landAccess_store_initialized (a : Access) (v : Byte) (s : State) :
    (landAccess a v s).store.initialized = s.store.initialized := by
  cases a <;> rfl
@[simp] theorem landAccess_store_fault (a : Access) (v : Byte) (s : State) :
    (landAccess a v s).store.fault = s.store.fault := by
  cases a <;> rfl
@[simp] theorem landAccess_store_busy (a : Access) (v : Byte) (s : State) :
    (landAccess a v s).store.busy = s.store.busy := by
  cases a <;> rfl
@[simp] theorem landAccess_store_nowReg (a : Access) (v : Byte) (s : State) :
    (landAccess a v s).store.nowReg = s.store.nowReg := by
  cases a <;> rfl
@[simp] theorem landAccess_store_numEntries (a : Access) (v : Byte) (s : State) :
    (landAccess a v s).store.numEntries = s.store.numEntries := by
  cases a <;> rfl
@[simp] theorem landAccess_store_rsp (a : Access) (v : Byte) (s : State) :
    (landAccess a v s).store.rsp = s.store.rsp := by
  cases a <;> rfl
@[simp] theorem landAccess_store_port (a : Access) (v : Byte) (s : State) :
    (landAccess a v s).store.port = s.store.port := by
  cases a <;> rfl
@[simp] theorem landAccess_store_inFlight (a : Access) (v : Byte) (s : State) :
    (landAccess a v s).store.inFlight = s.store.inFlight := by
  cases a <;> rfl
@[simp] theorem nextSample_cfg (s : State) : (nextSample s).2.cfg = s.cfg := rfl
@[simp] theorem nextSample_dec (s : State) : (nextSample s).2.dec = s.dec := rfl
@[simp] theorem nextSample_store (s : State) : (nextSample s).2.store = s.store := rfl
@[simp] theorem nextSample_nv (s : State) : (nextSample s).2.nv = s.nv := rfl
@[simp] theorem nextSample_resetSeen (s : State) : (nextSample s).2.resetSeen = s.resetSeen := rfl
@[simp] theorem nextSample_inputs (s : State) : (nextSample s).2.inputs = s.inputs := rfl
theorem nextSample_fst (s : State) : (nextSample s).1 = sampleAt 0 s := rfl
@[simp] theorem nextSample_nvSamples (s : State) :
    (nextSample s).2.nvSamples = s.nvSamples.tail := rfl
@[simp] theorem nextSample_nvRest (s : State) : (nextSample s).2.nvRest = s.nvRest := rfl

/-! ### Reset and power -/

@[simp] theorem abandonAccess_cfg (l : Bool) (s : State) : (abandonAccess l s).cfg = s.cfg := by
  unfold abandonAccess; split <;> rfl
@[simp] theorem abandonAccess_dec (l : Bool) (s : State) : (abandonAccess l s).dec = s.dec := by
  unfold abandonAccess; split <;> rfl
@[simp] theorem abandonAccess_store (l : Bool) (s : State) : (abandonAccess l s).store = s.store := by
  unfold abandonAccess; split <;> rfl
@[simp] theorem abandonAccess_resetSeen (l : Bool) (s : State) : (abandonAccess l s).resetSeen = s.resetSeen := by
  unfold abandonAccess; split <;> rfl
@[simp] theorem abandonAccess_inputs (l : Bool) (s : State) : (abandonAccess l s).inputs = s.inputs := by
  unfold abandonAccess; split <;> rfl
@[simp] theorem abandonAccess_nvSamples (l : Bool) (s : State) : (abandonAccess l s).nvSamples = s.nvSamples := by
  unfold abandonAccess; split <;> rfl
@[simp] theorem abandonAccess_nvRest (l : Bool) (s : State) : (abandonAccess l s).nvRest = s.nvRest := by
  unfold abandonAccess; split <;> rfl
@[simp] theorem hardReset_resetSeen (l : Bool) (s : State) : (hardReset l s).resetSeen = true := rfl
@[simp] theorem hardReset_dec (l : Bool) (s : State) : (hardReset l s).dec = resetDecoder s.dec := rfl
@[simp] theorem hardReset_store (l : Bool) (s : State) : (hardReset l s).store = resetStore s.cfg s.store := rfl
@[simp] theorem hardReset_nv (l : Bool) (s : State) : (hardReset l s).nv = (abandonAccess l s).nv := rfl
@[simp] theorem hardReset_cfg (l : Bool) (s : State) : (hardReset l s).cfg = s.cfg := by
  unfold hardReset abandonAccess; dsimp only; split <;> rfl
@[simp] theorem hardReset_inputs (l : Bool) (s : State) : (hardReset l s).inputs = s.inputs := by
  unfold hardReset abandonAccess; dsimp only; split <;> rfl
@[simp] theorem hardReset_nvSamples (l : Bool) (s : State) : (hardReset l s).nvSamples = s.nvSamples := by
  unfold hardReset abandonAccess; dsimp only; split <;> rfl
@[simp] theorem hardReset_nvRest (l : Bool) (s : State) : (hardReset l s).nvRest = s.nvRest := by
  unfold hardReset abandonAccess; dsimp only; split <;> rfl
@[simp] theorem losePower_resetSeen (l : Bool) (s : State) : (losePower l s).resetSeen = false := rfl
@[simp] theorem losePower_dec (l : Bool) (s : State) : (losePower l s).dec = unpoweredDecoder s.dec := rfl
@[simp] theorem losePower_store (l : Bool) (s : State) : (losePower l s).store = unpoweredStore s.cfg s.store := rfl
@[simp] theorem losePower_nv (l : Bool) (s : State) : (losePower l s).nv = (abandonAccess l s).nv := rfl
@[simp] theorem losePower_cfg (l : Bool) (s : State) : (losePower l s).cfg = s.cfg := by
  unfold losePower abandonAccess; dsimp only; split <;> rfl
@[simp] theorem losePower_inputs (l : Bool) (s : State) : (losePower l s).inputs = s.inputs := by
  unfold losePower abandonAccess; dsimp only; split <;> rfl
@[simp] theorem losePower_nvSamples (l : Bool) (s : State) : (losePower l s).nvSamples = s.nvSamples := by
  unfold losePower abandonAccess; dsimp only; split <;> rfl
@[simp] theorem losePower_nvRest (l : Bool) (s : State) : (losePower l s).nvRest = s.nvRest := by
  unfold losePower abandonAccess; dsimp only; split <;> rfl

@[simp] theorem unpoweredCycle_cfg (s : State) : (unpoweredCycle s).cfg = s.cfg := rfl
@[simp] theorem unpoweredCycle_dec (s : State) :
    (unpoweredCycle s).dec = unpoweredDecoder s.dec := rfl
@[simp] theorem unpoweredCycle_store (s : State) :
    (unpoweredCycle s).store = unpoweredStore s.cfg s.store := rfl
@[simp] theorem unpoweredCycle_nv (s : State) : (unpoweredCycle s).nv = s.nv := rfl
@[simp] theorem unpoweredCycle_resetSeen (s : State) :
    (unpoweredCycle s).resetSeen = s.resetSeen := rfl
@[simp] theorem unpoweredCycle_inputs (s : State) : (unpoweredCycle s).inputs = s.inputs := rfl
@[simp] theorem unpoweredCycle_nvSamples (s : State) :
    (unpoweredCycle s).nvSamples = s.nvSamples := rfl
@[simp] theorem unpoweredCycle_nvRest (s : State) : (unpoweredCycle s).nvRest = s.nvRest := rfl

/-! ### Views of the state that look at few fields -/

@[simp] theorem slot_beginCommand (s : State) (k : Nat) :
    slot (beginCommand s).store k = slot s.store k := rfl
@[simp] theorem elapsed_beginCommand (s : State) (k : Nat) :
    elapsed (beginCommand s).store k = elapsed s.store k := rfl
@[simp] theorem lookup_beginCommand (s : State) (id : TagId) :
    lookup (beginCommand s).store id = lookup s.store id := rfl
@[simp] theorem placeTag_beginCommand (cfg : Config) (s : State) (id : TagId) :
    placeTag cfg (beginCommand s).store id = placeTag cfg s.store id := rfl
@[simp] theorem readNv_beginCommand (s : State) (a : Nat) :
    readNv (beginCommand s) a = readNv s a := rfl
@[simp] theorem readNv_respond (code : BitVec 4) (info : Byte) (flag : Bool) (s : State) (a : Nat) :
    readNv (respond code info flag s) a = readNv s a := rfl
@[simp] theorem readNv_raiseFault (code : BitVec 4) (s : State) (a : Nat) :
    readNv (raiseFault code s) a = readNv s a := rfl
@[simp] theorem readNv_releasePort (s : State) (a : Nat) :
    readNv (releasePort s) a = readNv s a := rfl
@[simp] theorem readNv_park (job : Job) (todo : List Access) (s : State) (a : Nat) :
    readNv (park job todo s) a = readNv s a := rfl
@[simp] theorem readNv_commitInit (n : Byte) (now : Millis) (r : Bool) (s : State) (a : Nat) :
    readNv (commitInit n now r s) a = readNv s a := rfl
@[simp] theorem readNv_issue (a : Access) (s : State) (b : Nat) :
    readNv (issue a s) b = readNv s b := by simp [readNv]
@[simp] theorem readNv_nextSample (s : State) (b : Nat) :
    readNv (nextSample s).2 b = readNv s b := by simp [readNv]
@[simp] theorem readNv_landAccess (a : Access) (v : Byte) (s : State) (b : Nat) :
    readNv (landAccess a v s) b = readNv s b := by simp [readNv]

end Sys2Proof.Machine
end

