-- ==== Sys2Proof/Laws/Decoder.lean ====
section
/-! SUPPORT. The tag frame decoder: nibbles, digits, and everything one RX can do. -/

namespace Sys2Proof.Machine

/-- STORE_NIBBLE touches one byte of the buffer (40_tag_decoder.md R114). -/
theorem bufByte_storeNibble (p : Nat) (v : Nibble) (buf : Vector Byte 6) (j : Nat) :
    bufByte (storeNibble p v buf) j =
      if j = (p - 1) / 2 ∧ j < 6 then
        if p % 2 = 1 then withHighNibble (bufByte buf j) v else withLowNibble (bufByte buf j) v
      else bufByte buf j := by
  unfold storeNibble
  by_cases hj : j = (p - 1) / 2 ∧ j < 6
  · obtain ⟨h1, h2⟩ := hj
    rw [if_pos ⟨h1, h2⟩, ← h1]
    simp [bufByte, h2]
  · rw [if_neg hj]
    simp only [bufByte, Vector.getElem?_setIfInBounds]
    by_cases h : (p - 1) / 2 = j
    · rw [if_pos h, if_neg (by omega), Vector.getElem?_eq_none (by omega)]
    · rw [if_neg h]

@[simp] theorem high_withHighNibble (old : Byte) (v : Nibble) :
    (withHighNibble old v).extractLsb' 4 4 = v := by
  apply BitVec.eq_of_getLsbD_eq
  intro i hi
  simp only [withHighNibble, BitVec.getLsbD_extractLsb', BitVec.getLsbD_append]
  simp [hi]

@[simp] theorem low_withHighNibble (old : Byte) (v : Nibble) :
    (withHighNibble old v).extractLsb' 0 4 = old.extractLsb' 0 4 := by
  apply BitVec.eq_of_getLsbD_eq
  intro i hi
  simp only [withHighNibble, BitVec.getLsbD_extractLsb', BitVec.getLsbD_append]
  simp [hi]

@[simp] theorem low_withLowNibble (old : Byte) (v : Nibble) :
    (withLowNibble old v).extractLsb' 0 4 = v := by
  apply BitVec.eq_of_getLsbD_eq
  intro i hi
  simp only [withLowNibble, BitVec.getLsbD_extractLsb', BitVec.getLsbD_append]
  simp [hi]

@[simp] theorem high_withLowNibble (old : Byte) (v : Nibble) :
    (withLowNibble old v).extractLsb' 4 4 = old.extractLsb' 4 4 := by
  apply BitVec.eq_of_getLsbD_eq
  intro i hi
  simp only [withLowNibble, BitVec.getLsbD_extractLsb', BitVec.getLsbD_append]
  simp [hi]

/-- The digit of a nibble is in the alphabet and spells it (30_encoding.md R82). -/
@[simp] theorem hexval_hexDigit (v : Nibble) : hexval (hexDigit v) = some v := by
  revert v; decide

/-- A step without a result shows none. -/
@[simp] theorem shownResult_goTo (p : BitVec 4) (d : Decoder) : shownResult (goTo p d) = none := rfl

@[simp] theorem shownResult_emitOk (t : TagId) (d : Decoder) :
    shownResult (emitOk t d) = some ⟨statusOK, some t.toField⟩ := rfl

theorem shownResult_emitError {status : BitVec 2} (h : status ≠ statusOK) (d : Decoder) :
    shownResult (emitError status d) = some ⟨status, none⟩ := by
  simp [shownResult, emitError, h]

/-- Everything one RX can do (40_tag_decoder.md R110-R118): it moves on by one position with no result,
storing a nibble at positions 1-12, or it shows a result and starts over. -/
theorem rxByte_cases (b : Byte) (d : Decoder) :
    (d.pos = 0 ∧ b = markSTX ∧ rxByte b d = goTo 1 d) ∨
    (∃ v, 1 ≤ d.pos.toNat ∧ d.pos.toNat ≤ 12 ∧ hexval b = some v ∧
      rxByte b d = goTo (d.pos + 1) { d with buf := storeNibble d.pos.toNat v d.buf }) ∨
    (d.pos = 13 ∧ b = markCR ∧ rxByte b d = goTo 14 d) ∨
    (d.pos = 14 ∧ b = markLF ∧ rxByte b d = goTo 15 d) ∨
    (d.pos = 15 ∧ b = markETX ∧ xorData d.buf = bufByte d.buf 5 ∧
      rxByte b d = emitOk (bufTag d.buf) d) ∨
    (∃ status, status ≠ statusOK ∧ rxByte b d = emitError status d) := by
  have hf : statusFraming ≠ statusOK := by decide
  unfold rxByte
  by_cases h0 : d.pos = 0
  · rw [if_pos h0]
    unfold rxStart
    by_cases hb : b = markSTX
    · exact .inl ⟨h0, hb, if_pos hb⟩
    · exact .inr (.inr (.inr (.inr (.inr ⟨_, hf, if_neg hb⟩))))
  have h0' : d.pos.toNat ≠ 0 := fun h => h0 (BitVec.eq_of_toNat_eq (by simpa using h))
  rw [if_neg h0]
  by_cases h12 : d.pos.toNat ≤ 12
  · rw [if_pos h12]
    unfold rxDigit
    cases hv : hexval b with
    | none => exact .inr (.inr (.inr (.inr (.inr ⟨statusEncoding, by decide, rfl⟩))))
    | some v => exact .inr (.inl ⟨v, by omega, h12, rfl, rfl⟩)
  rw [if_neg h12]
  by_cases h13 : d.pos = 13
  · rw [if_pos h13]
    unfold rxMark
    by_cases hb : b = markCR
    · exact .inr (.inr (.inl ⟨h13, hb, if_pos hb⟩))
    · exact .inr (.inr (.inr (.inr (.inr ⟨_, hf, if_neg hb⟩))))
  rw [if_neg h13]
  by_cases h14 : d.pos = 14
  · rw [if_pos h14]
    unfold rxMark
    by_cases hb : b = markLF
    · exact .inr (.inr (.inr (.inl ⟨h14, hb, if_pos hb⟩)))
    · exact .inr (.inr (.inr (.inr (.inr ⟨_, hf, if_neg hb⟩))))
  rw [if_neg h14]
  have h13' : d.pos.toNat ≠ 13 := fun h => h13 (BitVec.eq_of_toNat_eq (by simpa using h))
  have h14' : d.pos.toNat ≠ 14 := fun h => h14 (BitVec.eq_of_toNat_eq (by simpa using h))
  have h15 : d.pos = 15 := BitVec.eq_of_toNat_eq (by have := d.pos.isLt; simp; omega)
  unfold rxLast
  by_cases hb : b = markETX
  · rw [if_pos hb]
    unfold compareChecksum
    by_cases hx : xorData d.buf = bufByte d.buf 5
    · exact .inr (.inr (.inr (.inr (.inl ⟨h15, hb, hx, if_pos hx⟩))))
    · exact .inr (.inr (.inr (.inr (.inr ⟨statusChecksum, by decide, if_neg hx⟩))))
  · exact .inr (.inr (.inr (.inr (.inr ⟨_, hf, if_neg hb⟩))))

end Sys2Proof.Machine
end

