-- ==== Sys2Proof/Laws/Encoding.lean ====
section
/-! SUPPORT. The identifier field and the command rows, bit by bit. -/

namespace Sys2Proof

/-- The bits of the 40-bit identifier field (00_scope.md R14). -/
theorem getLsbD_toField (t : TagId) (i : Nat) : t.toField.getLsbD i =
    if i < 8 then t.b4.getLsbD i else if i < 16 then t.b3.getLsbD (i - 8)
    else if i < 24 then t.b2.getLsbD (i - 16) else if i < 32 then t.b1.getLsbD (i - 24)
    else t.b0.getLsbD (i - 32) := by
  change BitVec.getLsbD (w := 8 + 8 + 8 + 8 + 8) (t.b0 ++ t.b1 ++ t.b2 ++ t.b3 ++ t.b4) i = _
  simp only [BitVec.getLsbD_append]
  grind

@[simp] theorem ofField_toField (t : TagId) : TagId.ofField t.toField = t := by
  have h := getLsbD_toField t
  obtain ⟨a, b, c, d, e⟩ := t
  simp only [TagId.ofField]
  congr 1 <;>
    (apply BitVec.eq_of_getLsbD_eq; intro i hi; simp only [BitVec.getLsbD_extractLsb', h]; grind)

@[simp] theorem toField_ofField (f : BitVec 40) : (TagId.ofField f).toField = f := by
  apply BitVec.eq_of_getLsbD_eq
  intro i hi
  rw [getLsbD_toField]
  simp only [TagId.ofField, BitVec.getLsbD_extractLsb']
  grind

/-- Two identifiers are equal exactly when their fields are (00_scope.md R14). -/
theorem toField_inj {a b : TagId} : a.toField = b.toField ↔ a = b :=
  ⟨fun h => by rw [← ofField_toField a, h, ofField_toField], fun h => by rw [h]⟩

/-- A word satisfies a row exactly when its masked bits are the row's pattern (30_encoding.md R91). -/
theorem matches_iff (mask pattern w : CmdWord) :
    CmdRow.matches ⟨mask, pattern⟩ w = true ↔ w &&& mask = pattern := by
  simp [CmdRow.matches]

/-- A bit of a word, by the field it stands in. -/
theorem getLsbD_of_extractLsb' {n lo : Nat} {v : BitVec n} {w : CmdWord}
    (h : w.extractLsb' lo n = v) {k : Nat} (hk : k < n) : w.getLsbD (lo + k) = v.getLsbD k := by
  rw [← h, BitVec.getLsbD_extractLsb']
  simp [hk]

end Sys2Proof
end

