-- ==== Sys2Proof/Laws/Memory.lean ====
section
/-! SUPPORT. The NV byte space: what a read after a write gives, and that every operation keeps the
canonical form. -/

namespace Sys2Proof.Machine

/-- An address below every listed one reads as its byte of `NV_INIT`. -/
theorem Memory.read_below {init : List Byte} {size lo a : Nat} {m : Memory}
    (h : Memory.wfFrom init size lo m = true) (ha : a < lo) :
    Memory.read init a m = Config.initByte init a := by
  induction m generalizing lo with
  | nil => rfl
  | cons c rest ih =>
    obtain ⟨b, v⟩ := c
    simp only [Memory.wfFrom, Bool.and_eq_true, decide_eq_true_eq] at h
    obtain ⟨⟨⟨hlo, -⟩, -⟩, hrest⟩ := h
    rw [Memory.read, if_neg (by omega)]
    exact ih hrest (by omega)

/-- The canonical form from `lo` is one from every lower bound. -/
theorem Memory.wfFrom_mono {init : List Byte} {size lo lo' : Nat} {m : Memory}
    (h : Memory.wfFrom init size lo m = true) (hl : lo' ≤ lo) :
    Memory.wfFrom init size lo' m = true := by
  cases m with
  | nil => rfl
  | cons c rest =>
    simp only [Memory.wfFrom, Bool.and_eq_true, decide_eq_true_eq] at h ⊢
    exact ⟨⟨⟨by omega, h.1.1.2⟩, h.1.2⟩, h.2⟩

/-- What `putCell` reads as. -/
theorem Memory.read_putCell {init : List Byte} {size a : Nat} {v : Byte} {rest : Memory}
    (h : Memory.wfFrom init size (a + 1) rest = true) (x : Nat) :
    Memory.read init x (Memory.putCell init a v rest) =
      if x = a then v else Memory.read init x rest := by
  unfold Memory.putCell
  by_cases hv : v = Config.initByte init a
  · rw [if_pos hv]
    by_cases hx : x = a
    · subst hx; rw [if_pos rfl, Memory.read_below h (by omega), hv]
    · rw [if_neg hx]
  · rw [if_neg hv, Memory.read]

/-- `putCell` keeps the canonical form. -/
theorem Memory.wfFrom_putCell {init : List Byte} {size lo a : Nat} {v : Byte} {rest : Memory}
    (h : Memory.wfFrom init size (a + 1) rest = true) (hlo : lo ≤ a) (ha : a < size) :
    Memory.wfFrom init size lo (Memory.putCell init a v rest) = true := by
  unfold Memory.putCell
  by_cases hv : v = Config.initByte init a
  · rw [if_pos hv]; exact Memory.wfFrom_mono h (by omega)
  · rw [if_neg hv]
    simp only [Memory.wfFrom, Bool.and_eq_true, decide_eq_true_eq]
    exact ⟨⟨⟨hlo, ha⟩, hv⟩, h⟩

/-- A write gives its byte at its address and leaves every other address alone (20_memory.md R57). -/
theorem Memory.read_write {init : List Byte} {size lo a : Nat} {v : Byte} {m : Memory}
    (h : Memory.wfFrom init size lo m = true) (hlo : lo ≤ a) (x : Nat) :
    Memory.read init x (Memory.write init a v m) =
      if x = a then v else Memory.read init x m := by
  induction m generalizing lo with
  | nil => exact Memory.read_putCell (size := size) rfl x
  | cons c rest ih =>
    obtain ⟨b, w⟩ := c
    have h' := h
    simp only [Memory.wfFrom, Bool.and_eq_true, decide_eq_true_eq] at h'
    obtain ⟨⟨⟨hb, hbs⟩, hne⟩, hrest⟩ := h'
    rw [Memory.write]
    by_cases hlt : a < b
    · rw [if_pos hlt]
      apply Memory.read_putCell (size := size)
      simp only [Memory.wfFrom, Bool.and_eq_true, decide_eq_true_eq]
      exact ⟨⟨⟨by omega, hbs⟩, hne⟩, hrest⟩
    · rw [if_neg hlt]
      by_cases heq : a = b
      · subst heq
        rw [if_pos rfl, Memory.read_putCell hrest, Memory.read]
        by_cases hx : x = a <;> simp [hx]
      · rw [if_neg heq, Memory.read, Memory.read, ih hrest (by omega)]
        by_cases hx : x = b
        · subst hx; rw [if_pos rfl, if_neg (by omega), if_pos rfl]
        · rw [if_neg hx, if_neg hx]

/-- A write inside the NV byte space keeps the canonical form (log entry 5). -/
theorem Memory.wfFrom_write {init : List Byte} {size lo a : Nat} {v : Byte} {m : Memory}
    (h : Memory.wfFrom init size lo m = true) (hlo : lo ≤ a) (ha : a < size) :
    Memory.wfFrom init size lo (Memory.write init a v m) = true := by
  induction m generalizing lo with
  | nil => exact Memory.wfFrom_putCell rfl hlo ha
  | cons c rest ih =>
    obtain ⟨b, w⟩ := c
    have h' := h
    simp only [Memory.wfFrom, Bool.and_eq_true, decide_eq_true_eq] at h'
    obtain ⟨⟨⟨hb, hbs⟩, hne⟩, hrest⟩ := h'
    rw [Memory.write]
    by_cases hlt : a < b
    · rw [if_pos hlt]
      apply Memory.wfFrom_putCell _ hlo ha
      simp only [Memory.wfFrom, Bool.and_eq_true, decide_eq_true_eq]
      exact ⟨⟨⟨by omega, hbs⟩, hne⟩, hrest⟩
    · rw [if_neg hlt]
      by_cases heq : a = b
      · subst heq; rw [if_pos rfl]; exact Memory.wfFrom_putCell hrest hb ha
      · rw [if_neg heq]
        simp only [Memory.wfFrom, Bool.and_eq_true, decide_eq_true_eq]
        exact ⟨⟨⟨hb, hbs⟩, hne⟩, ih hrest (by omega)⟩

/-- Two canonical contents that read alike everywhere are equal lists. -/
theorem Memory.ext_of_read {init : List Byte} {size lo : Nat} {m m' : Memory}
    (h : Memory.wfFrom init size lo m = true) (h' : Memory.wfFrom init size lo m' = true)
    (hr : ∀ x, Memory.read init x m = Memory.read init x m') : m = m' := by
  induction m generalizing lo m' with
  | nil =>
    cases m' with
    | nil => rfl
    | cons c rest =>
      obtain ⟨b, w⟩ := c
      simp only [Memory.wfFrom, Bool.and_eq_true, decide_eq_true_eq] at h'
      have := hr b
      rw [Memory.read, Memory.read, if_pos rfl] at this
      exact absurd this.symm h'.1.2
  | cons c rest ih =>
    obtain ⟨a, v⟩ := c
    have hm := h
    simp only [Memory.wfFrom, Bool.and_eq_true, decide_eq_true_eq] at hm
    obtain ⟨⟨⟨ha, has⟩, hv⟩, hrest⟩ := hm
    cases m' with
    | nil =>
      have := hr a
      rw [Memory.read, Memory.read, if_pos rfl] at this
      exact absurd this hv
    | cons c' rest' =>
      obtain ⟨b, w⟩ := c'
      have hm' := h'
      simp only [Memory.wfFrom, Bool.and_eq_true, decide_eq_true_eq] at hm'
      obtain ⟨⟨⟨hb, hbs⟩, hw⟩, hrest'⟩ := hm'
      have hab : a = b := by
        rcases Nat.lt_trichotomy a b with hlt | heq | hgt
        · have h1 := hr a
          rw [Memory.read, if_pos rfl, Memory.read, if_neg (by omega),
            Memory.read_below hrest' (by omega)] at h1
          exact absurd h1 hv
        · exact heq
        · have h1 := hr b
          rw [Memory.read, if_neg (by omega), Memory.read, if_pos rfl,
            Memory.read_below hrest (by omega)] at h1
          exact absurd h1.symm hw
      subst hab
      have hvw : v = w := by have := hr a; rwa [Memory.read, if_pos rfl, Memory.read, if_pos rfl] at this
      subst hvw
      congr 1
      refine ih hrest hrest' fun x => ?_
      by_cases hx : x = a
      · subst hx; rw [Memory.read_below hrest (by omega), Memory.read_below hrest' (by omega)]
      · have := hr x; rwa [Memory.read, if_neg hx, Memory.read, if_neg hx] at this

/-- What the machine reads after one of its writes. -/
theorem readNv_writeNv {s : State} (h : Memory.wf s.cfg s.nv = true) (a x : Nat) (v : Byte) :
    readNv (writeNv a v s) x = if x = a then v else readNv s x :=
  Memory.read_write h (Nat.zero_le a) x

/-- The machine's write keeps the canonical form. -/
theorem wf_writeNv {s : State} {a : Nat} {v : Byte} (h : Memory.wf s.cfg s.nv = true)
    (ha : a < s.cfg.totalBytes) : Memory.wf s.cfg (writeNv a v s).nv = true :=
  Memory.wfFrom_write h (Nat.zero_le a) ha

/-- An access inside the NV byte space keeps the canonical form. -/
theorem wf_performAccess {s : State} {a : Access} (h : Memory.wf s.cfg s.nv = true)
    (ha : accessAddr a < s.cfg.totalBytes) : Memory.wf s.cfg (performAccess a s).nv = true := by
  cases a with
  | write b v => exact wf_writeNv h ha
  | readCount => exact h
  | readEntry k i => exact h

/-- Abandoning an access keeps the canonical form. -/
theorem wf_abandonAccess {s : State} {l : Bool} (h : Memory.wf s.cfg s.nv = true) :
    Memory.wf s.cfg (abandonAccess l s).nv = true := by
  unfold abandonAccess
  split
  · rename_i hw
    apply wf_writeNv h
    simp only [writeOutstanding, Bool.and_eq_true, decide_eq_true_eq] at hw
    exact hw.1.2
  · exact h

/-- What an abandoned access leaves: at most the outstanding write has landed (20_memory.md R67). -/
theorem readNv_abandonAccess {s : State} (h : Memory.wf s.cfg s.nv = true) (l : Bool) (a : Nat) :
    readNv (abandonAccess l s) a =
      if (writeOutstanding s && l) = true ∧ a = s.store.port.addr then s.store.port.wdata
      else readNv s a := by
  unfold abandonAccess
  split
  · rename_i hw
    rw [readNv_writeNv h]
    simp [hw]
  · rename_i hw
    simp [hw]

/-- The memory of `State.reset` is canonical. -/
theorem wf_resetOf (cfg : Config) : Memory.wf cfg (State.resetOf cfg).nv = true := rfl

end Sys2Proof.Machine
end

