-- ==== Sys2Proof/Laws/Ops.lean ====
section
/-! SUPPORT. What each shared operation can do, said once. -/

namespace Sys2Proof.Machine

/-! ### Acceptance (41_store_commands.md R140) -/

/-- A ready store runs a command that no check stops. -/
theorem accept_runs {body : State → Result} {s : State} (h : Ready s) :
    accept none body s = body (beginCommand s) := by
  simp [accept, h.1, h.2]

/-- A ready store records and answers the fault the checks find. -/
theorem accept_traps {body : State → Result} {s : State} {code : BitVec 4} (h : Ready s) :
    accept (some code) body s =
      .next (raiseFault code (beginCommand s)) := by
  simp [accept, h.1, h.2]

/-- A store in the fault state answers FAULTED (60_exceptions.md R204). -/
theorem accept_faulted {trap : Option (BitVec 4)} {body : State → Result} {s : State}
    (hb : s.store.busy = false) (hf : s.store.fault ≠ 0) :
    accept trap body s =
      .next (respond codeFaulted 0 false (beginCommand s)) := by
  unfold accept
  rw [if_neg (by simp [hb])]
  exact if_pos hf

/-- A busy store accepts nothing (10_state.md R37). -/
theorem accept_busy {trap : Option (BitVec 4)} {body : State → Result} {s : State}
    (hb : s.store.busy = true) : accept trap body s = storeTick s := by
  simp [accept, hb]

/-- Everything acceptance can do. -/
theorem accept_cases (trap : Option (BitVec 4)) (body : State → Result) (s : State) :
    (s.store.busy = true ∧ accept trap body s = storeTick s) ∨
    (s.store.busy = false ∧ s.store.fault ≠ 0 ∧ accept trap body s =
      .next (respond codeFaulted 0 false (beginCommand s))) ∨
    (Ready s ∧ ∃ code, trap = some code ∧ accept trap body s =
      .next (raiseFault code (beginCommand s))) ∨
    (Ready s ∧ trap = none ∧
      accept trap body s = body (beginCommand s)) := by
  cases hb : s.store.busy with
  | true => exact .inl ⟨rfl, accept_busy hb⟩
  | false =>
    by_cases hf : s.store.fault = 0
    · cases trap with
      | none => exact .inr (.inr (.inr ⟨⟨hb, hf⟩, rfl, accept_runs ⟨hb, hf⟩⟩))
      | some c => exact .inr (.inr (.inl ⟨⟨hb, hf⟩, c, rfl, accept_traps ⟨hb, hf⟩⟩))
    · exact .inr (.inl ⟨rfl, hf, accept_faulted hb hf⟩)

/-- A run of ADVANCE, CHECK, ADD or CLEAR that no check stops. -/
theorem accept_serving {body : State → Result} {s : State} (h : Serving s) :
    accept (initTrap s) body s = body (beginCommand s) := by
  rw [show initTrap s = none by simp [initTrap, h.2]]; exact accept_runs h.1

/-- The NOT_INIT check of an initialized store finds nothing. -/
@[simp] theorem initTrap_initialized {s : State} (h : s.store.initialized = true) :
    initTrap s = none := by simp [initTrap, h]

/-- The NOT_INIT check of an uninitialized store. -/
@[simp] theorem initTrap_uninitialized {s : State} (h : s.store.initialized = false) :
    initTrap s = some codeNotInit := by simp [initTrap, h]

/-! ### Slots, lookup, the arbiter -/

/-- What a well-formed build gives: `1 ≤ CAPACITY ≤ 255`, every address a command uses exists and fits
the port (00_scope.md R9, 20_memory.md R52). -/
theorem capacity_bounds {c : Config} (h : c.wellFormed = true) :
    1 ≤ c.capacity ∧ c.capacity ≤ 255 ∧ 6 * c.capacity < c.totalBytes ∧
      c.totalBytes ≤ 2 ^ c.nvAddrW := by
  simp only [Config.wellFormed, Config.sizeOk, Config.addrWidthOk, Bool.and_eq_true,
    decide_eq_true_eq] at h
  unfold Config.capacity
  omega

/-- A slot after a write of slot `k`, which exists. -/
theorem slot_setSlot {st : Store} {k : Nat} (hk : k < st.table.length) (e : Entry) (j : Nat) :
    slot (setSlot st k e) j = if j = k then e else slot st j := by
  unfold slot setSlot
  simp only [List.getD_eq_getElem?_getD, List.getElem?_set]
  by_cases h : j = k
  · subst h; simp [hk]
  · rw [if_neg (Ne.symm h), if_neg h]

/-- Lookup answers only occupied slots of the table. -/
theorem lookup_lt {st : Store} {id : TagId} {k : Nat} (h : lookup st id = some k) :
    k < st.numEntries.toNat ∧ k < st.table.length := by
  unfold lookup at h
  rw [List.findIdx?_eq_some_iff_getElem] at h
  obtain ⟨hk, -⟩ := h
  simp only [List.length_take] at hk
  omega

/-- An occupied slot, as the list of occupied slots holds it. -/
theorem getElem_take_table {st : Store} {n k : Nat} (h : k < n) (hk : k < st.table.length) :
    ∃ h', (st.table.take n)[k]'h' = slot st k := by
  refine ⟨by simp only [List.length_take]; omega, ?_⟩
  simp [slot, List.getD_eq_getElem?_getD, hk]

/-- Everything a successful Lookup says (41_store_commands.md R143). -/
theorem lookup_eq_some {st : Store} {id : TagId} {k : Nat} :
    lookup st id = some k ↔ (k < st.numEntries.toNat ∧ k < st.table.length) ∧
      (slot st k).id = id ∧ ∀ j, j < k → (slot st j).id ≠ id := by
  unfold lookup
  rw [List.findIdx?_eq_some_iff_getElem]
  constructor
  · rintro ⟨hk, h1, h2⟩
    have hk' : k < st.numEntries.toNat ∧ k < st.table.length := by
      simp only [List.length_take] at hk; omega
    obtain ⟨_, e⟩ := getElem_take_table (st := st) hk'.1 hk'.2
    rw [e] at h1
    refine ⟨hk', by simpa using h1, fun j hj => ?_⟩
    have := h2 j hj
    obtain ⟨_, e⟩ := getElem_take_table (st := st) (n := st.numEntries.toNat)
      (show j < _ by omega) (by omega)
    rw [e] at this
    simpa using this
  · rintro ⟨hk', h1, h2⟩
    obtain ⟨a, e⟩ := getElem_take_table (st := st) hk'.1 hk'.2
    refine ⟨a, by rw [e]; simpa using h1, fun j hj => ?_⟩
    obtain ⟨_, e⟩ := getElem_take_table (st := st) (n := st.numEntries.toNat)
      (show j < _ by omega) (by omega)
    rw [e]
    simpa using h2 j hj

/-- Everything a failed Lookup says (41_store_commands.md R143). -/
theorem lookup_eq_none {st : Store} {id : TagId} :
    lookup st id = none ↔
      ∀ k, k < st.numEntries.toNat → k < st.table.length → (slot st k).id ≠ id := by
  unfold lookup
  rw [List.findIdx?_eq_none_iff]
  constructor
  · intro h k h1 h2
    obtain ⟨a, e⟩ := getElem_take_table (st := st) h1 h2
    have := h _ (List.getElem_mem a)
    rw [e] at this
    simpa using this
  · intro h x hx
    obtain ⟨k, hk, rfl⟩ := List.getElem_of_mem hx
    have hk' : k < st.numEntries.toNat ∧ k < st.table.length := by
      simp only [List.length_take] at hk; omega
    obtain ⟨_, e⟩ := getElem_take_table (st := st) hk'.1 hk'.2
    rw [e]
    simpa using h k hk'.1 hk'.2

/-- The arbiter's running best stays below the slots it has looked at. -/
theorem foldl_betterVictim_lt (st : Store) (n : Nat) : ∀ {best k : Nat}, best < k →
    (List.range' k n).foldl (betterVictim st) best < k + n := by
  induction n with
  | zero => intro best k h; simpa using h
  | succ n ih =>
    intro best k h
    rw [List.range'_succ, List.foldl_cons]
    have := ih (best := betterVictim st best k) (k := k + 1) (by unfold betterVictim; split <;> omega)
    omega

/-- The arbiter answers a slot of the table. -/
theorem selectVictim_lt (st : Store) {capacity : Nat} (h : 1 ≤ capacity) :
    selectVictim capacity st < capacity := by
  have := foldl_betterVictim_lt st (capacity - 1) (best := 0) (k := 1) (by omega)
  unfold selectVictim
  omega

/-- Everything ADD's placement can be (41_store_commands.md R170). -/
theorem placeTag_cases (cfg : Config) (st : Store) (id : TagId) :
    (∃ k, lookup st id = some k ∧ placeTag cfg st id = ⟨k, st.numEntries, false⟩) ∨
    (lookup st id = none ∧ st.numEntries.toNat < cfg.capacity ∧
      placeTag cfg st id = ⟨st.numEntries.toNat, st.numEntries + 1, false⟩) ∨
    (lookup st id = none ∧ cfg.capacity ≤ st.numEntries.toNat ∧
      placeTag cfg st id = ⟨selectVictim cfg.capacity st, st.numEntries, true⟩) := by
  unfold placeTag
  cases hl : lookup st id with
  | some k => exact .inl ⟨k, rfl, rfl⟩
  | none =>
    by_cases hc : st.numEntries.toNat < cfg.capacity
    · exact .inr (.inl ⟨rfl, hc, by simp [hc]⟩)
    · exact .inr (.inr ⟨rfl, by omega, by simp [hc]⟩)

/-- ADD's slot is an occupied one afterwards, and no other slot becomes occupied. -/
theorem placeTag_bounds {cfg : Config} {st : Store} (id : TagId) (hc : cfg.wellFormed = true)
    (hn : st.numEntries.toNat ≤ cfg.capacity) (ht : st.table.length = cfg.capacity) :
    (placeTag cfg st id).slot < (placeTag cfg st id).count.toNat ∧
    (placeTag cfg st id).count.toNat ≤ cfg.capacity ∧
    (placeTag cfg st id).slot < st.table.length ∧
    ∀ j, j < (placeTag cfg st id).count.toNat → j ≠ (placeTag cfg st id).slot →
      j < st.numEntries.toNat := by
  obtain ⟨h1, h255, -, -⟩ := capacity_bounds hc
  rcases placeTag_cases cfg st id with ⟨k, hk, h⟩ | ⟨-, hlt, h⟩ | ⟨-, hge, h⟩ <;> rw [h]
  · have := lookup_lt hk
    exact ⟨this.1, hn, this.2, fun j hj _ => hj⟩
  · have : (st.numEntries + 1).toNat = st.numEntries.toNat + 1 := by
      rw [BitVec.toNat_add]; simp; omega
    simp only [this]
    exact ⟨by omega, by omega, by omega, fun j _ _ => by omega⟩
  · have := selectVictim_lt st h1
    simp only
    exact ⟨by omega, hn, by omega, fun j hj _ => hj⟩

/-- The table ADD leaves before it persists the slot. -/
theorem slot_addToTable {st : Store} {p : Placement} (hp : p.slot < st.table.length) (id : TagId)
    (interval : Byte) (j : Nat) :
    slot (addToTable p id interval st) j =
      if j = p.slot then addedEntry id interval st else slot st j :=
  slot_setSlot hp _ j

/-- The table ADVANCE leaves (41_store_commands.md R155). -/
theorem slot_advanceTable (st : Store) (now clock : Millis) (k : Nat) :
    slot { st with table := advanceTable now st, nowReg := clock } k =
      if wraps now st = true ∧ k < st.numEntries.toNat ∧ k < st.table.length then
        foldEntry st.nowReg now (slot st k)
      else slot st k := by
  simp only [slot, advanceTable, List.getD_eq_getElem?_getD]
  cases hw : wraps now st with
  | false => simp
  | true =>
    simp only [if_true, foldTable, true_and]
    by_cases hk : k < st.numEntries.toNat ∧ k < st.table.length
    · rw [List.getElem?_append_left (by simp; omega)]
      simp [hk]
    · rw [if_neg hk, List.getElem?_append_right (by simp; omega)]
      simp only [List.length_map, List.length_take, List.getElem?_drop]
      by_cases hl : k < st.table.length
      · rw [show st.numEntries.toNat + (k - min st.numEntries.toNat st.table.length) = k by omega]
      · rw [List.getElem?_eq_none (by omega), List.getElem?_eq_none (by omega)]

/-- ADVANCE keeps the number of slots. -/
@[simp] theorem length_advanceTable (st : Store) (now : Millis) :
    (advanceTable now st).length = st.table.length := by
  unfold advanceTable foldTable
  split
  · simp; omega
  · rfl

/-- The baselines look only at the occupied slots, their number and the clock. -/
theorem BaselinesOk.congr {st st' : Store} (h : BaselinesOk st)
    (hn : st'.numEntries = st.numEntries) (ht : st'.table = st.table) (hc : st'.nowReg = st.nowReg) :
    BaselinesOk st' := by
  intro k hk
  rw [hn] at hk
  have := h k hk
  rw [hc]
  simpa [slot, ht] using this

/-- The reads of a load are the six bytes of each of its entries. -/
theorem mem_loadReads {a : Access} {m : Nat} : ∀ {k : Nat}, a ∈ loadReads k m ↔
    ∃ j i, k ≤ j ∧ j < k + m ∧ i < 6 ∧ a = .readEntry j i := by
  induction m with
  | zero => intro k; simp [loadReads]; omega
  | succ m ih =>
    intro k
    rw [loadReads, List.mem_append, ih]
    constructor
    · rintro (h | ⟨j, i, h1, h2, h3, h4⟩)
      · simp only [entryReads, List.mem_cons, List.not_mem_nil, or_false] at h
        rcases h with h | h | h | h | h | h <;>
          exact ⟨k, _, le_refl _, by omega, by decide, h⟩
      · exact ⟨j, i, by omega, by omega, h3, h4⟩
    · rintro ⟨j, i, h1, h2, h3, rfl⟩
      by_cases hj : j = k
      · subst hj
        left
        simp only [entryReads, List.mem_cons, Access.readEntry.injEq, true_and]
        interval_cases i <;> simp
      · exact .inr ⟨j, i, by omega, by omega, h3, rfl⟩

/-! ### One access (20_memory.md R58, R60) -/

/-- Everything one sample of an access can do. -/
theorem access_cases (a : Access) (s : State) :
    (s.cfg.totalBytes ≤ accessAddr a ∧ access a s = .absent) ∨
    (accessAddr a < s.cfg.totalBytes ∧ (nextSample (issue a s)).1.err = true ∧
      access a s = .failed (releasePort
        (if (nextSample (issue a s)).1.landed then performAccess a (nextSample (issue a s)).2
          else (nextSample (issue a s)).2))) ∨
    (accessAddr a < s.cfg.totalBytes ∧ (nextSample (issue a s)).1.err = false ∧
      (nextSample (issue a s)).1.ack = true ∧
      access a s = .acked (readNv s (accessAddr a))
        (releasePort (performAccess a (nextSample (issue a s)).2))) ∨
    (accessAddr a < s.cfg.totalBytes ∧ (nextSample (issue a s)).1.err = false ∧
      (nextSample (issue a s)).1.ack = false ∧
      access a s = .waiting (nextSample (issue a s)).2) := by
  by_cases hr : accessAddr a < s.cfg.totalBytes
  · have hread : readNv (nextSample (issue a s)).2 (accessAddr a) = readNv s (accessAddr a) := by
      simp [readNv]
    unfold access
    rw [if_pos hr, ← hread]
    cases he : (nextSample (issue a s)).1.err <;> cases ha : (nextSample (issue a s)).1.ack <;>
      simp [hr, he, ha]
  · exact .inl ⟨by omega, by simp [access, hr]⟩

/-- The sample an access takes. -/
theorem nextSample_issue_fst (a : Access) (s : State) :
    (nextSample (issue a s)).1 = (nextSample s).1 := by
  simp [nextSample_fst, sampleAt]

/-- The samples after the first are those of a state whose schedule is the tail. -/
theorem sampleAt_succ {s t : State} (ht : t.nvSamples = s.nvSamples.tail) (hr : t.nvRest = s.nvRest)
    (i : Nat) : sampleAt (i + 1) s = sampleAt i t := by
  unfold sampleAt
  rw [ht, hr]
  cases s.nvSamples <;> rfl

/-- The samples after the first `m` are those of a state whose schedule is what is left. -/
theorem sampleAt_add {s t : State} {m : Nat} (ht : t.nvSamples = s.nvSamples.drop m)
    (hr : t.nvRest = s.nvRest) (i : Nat) : sampleAt (m + i) s = sampleAt i t := by
  unfold sampleAt
  rw [ht, hr]
  simp [List.getD_eq_getElem?_getD, List.getElem?_drop]

theorem acksNext_iff {n : Nat} {s : State} : acksNext n s = true ↔
    ∀ i, i < n → (sampleAt i s).ack = true ∧ (sampleAt i s).err = false := by
  simp [acksNext, List.all_eq_true]

/-- Fewer samples ahead. -/
theorem acksNext_mono {m n : Nat} {s : State} (h : acksNext n s = true) (hm : m ≤ n) :
    acksNext m s = true :=
  acksNext_iff.2 fun i hi => acksNext_iff.1 h i (by omega)

/-- The samples ahead after the first `m`. -/
theorem acksNext_add {m n : Nat} {s t : State} (h : acksNext (m + n) s = true)
    (ht : t.nvSamples = s.nvSamples.drop m) (hr : t.nvRest = s.nvRest) : acksNext n t = true :=
  acksNext_iff.2 fun i hi => by
    rw [← sampleAt_add ht hr]
    exact acksNext_iff.1 h (m + i) (by omega)

/-- `acksNext` looks only at the responder's samples. -/
theorem acksNext_congr {n : Nat} {s t : State} (ht : t.nvSamples = s.nvSamples)
    (hr : t.nvRest = s.nvRest) : acksNext n t = acksNext n s := by
  simp [acksNext, sampleAt, ht, hr]

/-- Acknowledging samples ahead: the next one, and those after it. -/
theorem acksNext_succ {n : Nat} {s : State} (h : acksNext (n + 1) s = true) :
    (nextSample s).1.err = false ∧ (nextSample s).1.ack = true ∧
      ∀ t : State, t.nvSamples = s.nvSamples.tail → t.nvRest = s.nvRest →
        acksNext n t = true := by
  have h0 := acksNext_iff.1 h 0 (by omega)
  refine ⟨h0.2, h0.1, fun t ht hr => acksNext_iff.2 fun i hi => ?_⟩
  rw [← sampleAt_succ ht hr]
  exact acksNext_iff.1 h (i + 1) (by omega)

/-- An acknowledged access completes. -/
theorem access_acked {a : Access} {s : State} {n : Nat} (hr : accessAddr a < s.cfg.totalBytes)
    (h : acksNext (n + 1) s = true) :
    access a s = .acked (readNv s (accessAddr a))
      (releasePort (performAccess a (nextSample (issue a s)).2)) := by
  have h1 := acksNext_succ h
  rcases access_cases a s with ⟨h2, -⟩ | ⟨-, h2, -⟩ | ⟨-, -, -, h2⟩ | ⟨-, -, h2, -⟩
  · omega
  · rw [nextSample_issue_fst] at h2; simp [h1.1] at h2
  · exact h2
  · rw [nextSample_issue_fst] at h2; simp [h1.2.1] at h2

/-! ### A list of accesses -/

/-- `t` is `s` but for the NV port, the draw counter and the samples still to come. -/
structure SameButPort (s t : State) : Prop where
  cfg : t.cfg = s.cfg
  dec : t.dec = s.dec
  nv : t.nv = s.nv
  resetSeen : t.resetSeen = s.resetSeen
  inputs : t.inputs = s.inputs
  initialized : t.store.initialized = s.store.initialized
  fault : t.store.fault = s.store.fault
  busy : t.store.busy = s.store.busy
  nowReg : t.store.nowReg = s.store.nowReg
  numEntries : t.store.numEntries = s.store.numEntries
  table : t.store.table = s.store.table
  rsp : t.store.rsp = s.store.rsp
  inFlight : t.store.inFlight = s.store.inFlight
  nvRest : t.nvRest = s.nvRest

theorem SameButPort.refl (s : State) : SameButPort s s := by constructor <;> rfl

theorem SameButPort.trans {s t u : State} (h : SameButPort s t) (h' : SameButPort t u) :
    SameButPort s u := by
  constructor
  · exact h'.cfg.trans h.cfg
  · exact h'.dec.trans h.dec
  · exact h'.nv.trans h.nv
  · exact h'.resetSeen.trans h.resetSeen
  · exact h'.inputs.trans h.inputs
  · exact h'.initialized.trans h.initialized
  · exact h'.fault.trans h.fault
  · exact h'.busy.trans h.busy
  · exact h'.nowReg.trans h.nowReg
  · exact h'.numEntries.trans h.numEntries
  · exact h'.table.trans h.table
  · exact h'.rsp.trans h.rsp
  · exact h'.inFlight.trans h.inFlight
  · exact h'.nvRest.trans h.nvRest

theorem SameButPort.readNv {s t : State} (h : SameButPort s t) (a : Nat) :
    readNv t a = readNv s a := by
  simp only [Machine.readNv]; rw [h.nv, h.cfg]

theorem SameButPort.slot {s t : State} (h : SameButPort s t) (k : Nat) :
    slot t.store k = slot s.store k := by
  simp only [Machine.slot]; rw [h.table]

/-- Requesting an access, taking a sample and releasing the port leave the rest alone. -/
theorem sameButPort_sampled (a : Access) (s : State) :
    SameButPort s (nextSample (issue a s)).2 := by
  constructor <;> simp

theorem sameButPort_release (s : State) : SameButPort s (releasePort s) := by
  constructor <;> simp

/-- An access's effect on the NV byte space looks only at what `SameButPort` keeps. -/
theorem SameButPort.performAccess {s t : State} (h : SameButPort s t) (a : Access) :
    SameButPort (performAccess a s) (performAccess a t) := by
  cases a with
  | write b v =>
    refine ⟨h.cfg, h.dec, ?_, h.resetSeen, h.inputs, h.initialized, h.fault, h.busy, h.nowReg,
      h.numEntries, h.table, h.rsp, h.inFlight, h.nvRest⟩
    simp only [Machine.performAccess, writeNv_nv, h.cfg, h.nv]
  | readCount => exact h
  | readEntry k i => exact h

/-- Applying an access looks only at what `SameButPort` keeps. -/
theorem SameButPort.applyAccess {s t : State} (h : SameButPort s t) (a : Access) :
    SameButPort (applyAccess a s) (applyAccess a t) := by
  have hr := h.readNv (accessAddr a)
  cases a with
  | write b v => exact h.performAccess (.write b v)
  | readCount => exact h
  | readEntry k i =>
    refine ⟨h.cfg, h.dec, h.nv, h.resetSeen, h.inputs, h.initialized, h.fault, h.busy, h.nowReg,
      h.numEntries, ?_, h.rsp, h.inFlight, h.nvRest⟩
    have hs := h.slot k
    simp only [Machine.applyAccess, landAccess, Machine.performAccess, setSlot_table, hr, hs, h.table]

theorem SameButPort.applyAll {s t : State} (h : SameButPort s t) (todo : List Access) :
    SameButPort (applyAll todo s) (applyAll todo t) := by
  induction todo generalizing s t with
  | nil => exact h
  | cons a rest ih => exact ih (h.applyAccess a)

/-- The state after one acknowledged access is `applyAccess`'s but for the port. -/
theorem sameButPort_acked (a : Access) (s : State) :
    SameButPort (applyAccess a s) (landAccess a (readNv s (accessAddr a))
      (releasePort (performAccess a (nextSample (issue a s)).2))) := by
  have h := sameButPort_sampled a s
  have hr := h.readNv (accessAddr a)
  cases a <;> constructor <;> simp [applyAccess, landAccess, performAccess, writeNv, slot]

@[simp] theorem applyAccess_cfg (a : Access) (s : State) : (applyAccess a s).cfg = s.cfg := by
  simp [applyAccess]

@[simp] theorem applyAll_cfg (todo : List Access) (s : State) : (applyAll todo s).cfg = s.cfg := by
  induction todo generalizing s with
  | nil => rfl
  | cons a rest ih => exact (ih _).trans (applyAccess_cfg a s)

@[simp] theorem applyAccess_nvRest (a : Access) (s : State) :
    (applyAccess a s).nvRest = s.nvRest := by
  cases a <;> rfl

@[simp] theorem applyAll_nvRest (todo : List Access) (s : State) :
    (applyAll todo s).nvRest = s.nvRest := by
  induction todo generalizing s with
  | nil => rfl
  | cons a rest ih => exact (ih _).trans (applyAccess_nvRest a s)

/-- The byte a phase's last access gives: INIT's count. -/
def lastRead : List Access → Byte → State → Byte
  | [], last, _ => last
  | a :: rest, _, s => lastRead rest (readNv s (accessAddr a)) (applyAccess a s)

/-- Acknowledged accesses inside the NV byte space all complete, with the effect of `applyAll`. -/
theorem drive_acked {job : Job} {todo : List Access} {last : Byte} {s : State}
    (hr : ∀ a ∈ todo, accessAddr a < s.cfg.totalBytes) (hs : acksNext todo.length s = true) :
    ∃ t, drive job todo last s = .done (lastRead todo last s) t ∧
      SameButPort (applyAll todo s) t ∧ t.nvSamples = s.nvSamples.drop todo.length ∧
      (todo ≠ [] → t.store.port.req = false) := by
  induction todo generalizing last s with
  | nil => exact ⟨s, rfl, .refl s, by simp, by simp⟩
  | cons a rest ih =>
    have hacc := access_acked (hr a (by simp)) hs
    obtain ⟨-, -, hrest⟩ := acksNext_succ hs
    have hsame := sameButPort_acked a s
    generalize hs' : landAccess a (readNv s (accessAddr a))
      (releasePort (performAccess a (nextSample (issue a s)).2)) = s' at hsame
    have hsamp : s'.nvSamples = s.nvSamples.tail := by simp [← hs']
    have hsrest : s'.nvRest = s.nvRest := by simp [← hs']
    have hcfg : s'.cfg = s.cfg := by simp [← hs']
    have hport : s'.store.port.req = false := by simp [← hs']
    obtain ⟨t, ht, hst, hts, htp⟩ :=
      ih (last := readNv s (accessAddr a)) (s := s')
        (fun b hb => by rw [hcfg]; exact hr b (by simp [hb])) (hrest s' hsamp hsrest)
    refine ⟨t, ?_, (hsame.applyAll rest).trans hst, ?_, fun _ => ?_⟩
    · rw [drive, hacc]
      simp only
      rw [hs', ht, lastRead]
      congr 1
      clear ht hst hts htp ih
      have key : ∀ (l : List Access) (b : Byte) (u v : State), SameButPort u v →
          lastRead l b v = lastRead l b u := by
        intro l
        induction l with
        | nil => intros; rfl
        | cons c l ihl =>
          intro b u v h
          rw [lastRead, lastRead, h.readNv]
          exact ihl _ _ _ (h.applyAccess c)
      exact key rest _ _ _ hsame
    · rw [hts, hsamp, List.length_cons, List.drop_tail]
    · cases rest with
      | nil =>
        have ht' : drive job [] (readNv s (accessAddr a)) s' = .done (readNv s (accessAddr a)) t := ht
        have : s' = t := by simpa [drive] using ht'
        rw [← this]; exact hport
      | cons b l => exact htp (by simp)

/-- The samples before the one that ends the step. -/
theorem AnswersThen.succ {j : Nat} {x : NvSample} {rest : List NvSample} {s : State}
    (h : AnswersThen (j + 1) x rest s) :
    (nextSample s).1.err = false ∧ (nextSample s).1.ack = true ∧
      ∀ t : State, t.nvSamples = s.nvSamples.tail → t.nvRest = s.nvRest →
        AnswersThen j x rest t := by
  obtain ⟨h1, h2, h3⟩ := acksNext_succ h.1
  refine ⟨h1, h2, fun t ht hr => ⟨h3 t ht hr, ?_, ?_⟩⟩
  · rw [← sampleAt_succ ht hr]
    exact h.2.1
  · rw [ht, List.drop_tail]
    exact h.2.2

/-- The sample that ends the step, when it is the next one. -/
theorem AnswersThen.zero {x : NvSample} {rest : List NvSample} {s : State}
    (h : AnswersThen 0 x rest s) :
    (nextSample s).1 = x ∧ s.nvSamples.tail = rest :=
  ⟨h.2.1, by rw [← h.2.2, List.drop_one]⟩

/-- `AnswersThen` looks only at the responder's samples. -/
theorem AnswersThen.congr {j : Nat} {x : NvSample} {rest : List NvSample} {s t : State}
    (h : AnswersThen j x rest s) (ht : t.nvSamples = s.nvSamples) (hr : t.nvRest = s.nvRest) :
    AnswersThen j x rest t :=
  ⟨by rw [acksNext_congr ht hr]; exact h.1, by rw [← h.2.1]; simp [sampleAt, ht, hr],
    by rw [ht]; exact h.2.2⟩

/-- The state after one acknowledged access, as `drive` goes on from it. -/
theorem drive_step {job : Job} {a : Access} {todo : List Access} {last : Byte} {s : State}
    (hr : accessAddr a < s.cfg.totalBytes) (he : (nextSample s).1.err = false)
    (ha : (nextSample s).1.ack = true) :
    ∃ s', drive job (a :: todo) last s = drive job todo (readNv s (accessAddr a)) s' ∧
      SameButPort (applyAccess a s) s' ∧ s'.nvSamples = s.nvSamples.tail ∧
      s'.nvRest = s.nvRest ∧ s'.store.port.req = false := by
  refine ⟨_, ?_, sameButPort_acked a s, by simp, by simp, by simp⟩
  rw [drive]
  rcases access_cases a s with ⟨h, -⟩ | ⟨-, h, -⟩ | ⟨-, -, -, h⟩ | ⟨-, -, h, -⟩
  · omega
  · rw [nextSample_issue_fst] at h; simp [he] at h
  · rw [h]
  · rw [nextSample_issue_fst] at h; simp [ha] at h

/-- An access that fails after `j` acknowledged ones ends the command with NV_FAULT
(41_store_commands.md R146): what the accesses before it did stays, and a failed write has landed or
not. -/
theorem drive_failed {job : Job} {todo : List Access} {x : NvSample} {rest : List NvSample} :
    ∀ {j : Nat} {last : Byte} {s : State}, (∀ a ∈ todo, accessAddr a < s.cfg.totalBytes) →
    AnswersThen j x rest s → x.err = true → (hj : j < todo.length) →
    ∃ t, drive job todo last s = .stopped (.next (raiseFault codeNvFault t)) ∧
      t.nvSamples = rest ∧
      SameButPort (if x.landed then performAccess todo[j] (applyAll (todo.take j) s)
        else applyAll (todo.take j) s) t := by
  induction todo with
  | nil => intro j _ _ _ _ _ hj; simp at hj
  | cons a todo ih =>
    intro j last s hr h hx hj
    cases j with
    | zero =>
      obtain ⟨h1, h2⟩ := h.zero
      rcases access_cases a s with ⟨h3, -⟩ | ⟨-, -, h3⟩ | ⟨-, h3, -⟩ | ⟨-, h3, -⟩
      · have := hr a (by simp); omega
      · refine ⟨_, by rw [drive, h3], ?_, ?_⟩
        · rw [nextSample_issue_fst, h1]
          split <;> simp [h2]
        · rw [nextSample_issue_fst, h1]
          have hs := sameButPort_sampled a s
          simp only [List.take_zero, applyAll, List.foldl_nil, List.getElem_cons_zero]
          split
          · exact (hs.performAccess a).trans (sameButPort_release _)
          · exact hs.trans (sameButPort_release _)
      · rw [nextSample_issue_fst, h1, hx] at h3; simp at h3
      · rw [nextSample_issue_fst, h1, hx] at h3; simp at h3
    | succ j =>
      obtain ⟨h1, h2, h3⟩ := h.succ
      obtain ⟨s', hd, hs, hn, hn', -⟩ := drive_step (job := job) (todo := todo) (last := last)
        (hr a (by simp)) h1 h2
      have hcfg : s'.cfg = s.cfg := hs.cfg.trans (applyAccess_cfg a s)
      obtain ⟨t, ht, htn, hts⟩ := ih (j := j) (last := readNv s (accessAddr a)) (s := s')
        (fun b hb => by rw [hcfg]; exact hr b (by simp [hb])) (h3 s' hn hn') hx (by simpa using hj)
      refine ⟨t, by rw [hd, ht], htn, ?_⟩
      have key : SameButPort (applyAll (todo.take j) (applyAccess a s)) (applyAll (todo.take j) s') :=
        hs.applyAll _
      simp only [List.take_succ_cons, List.getElem_cons_succ]
      split at hts
      · rename_i hl
        rw [if_pos hl]
        exact (key.performAccess _).trans hts
      · rename_i hl
        rw [if_neg hl]
        exact key.trans hts

/-- An access that is not answered after `j` acknowledged ones leaves the command in progress, that
access outstanding on the port (20_memory.md R58, R59). -/
theorem drive_waiting {job : Job} {todo : List Access} {x : NvSample} {rest : List NvSample} :
    ∀ {j : Nat} {last : Byte} {s : State}, (∀ a ∈ todo, accessAddr a < s.cfg.totalBytes) →
    AnswersThen j x rest s → x.err = false → x.ack = false → (hj : j < todo.length) →
    (j = 0 → s.store.port.req = false) →
    ∃ t, drive job todo last s = .stopped (.next (park job (todo.drop j) t)) ∧
      t.nvSamples = rest ∧ SameButPort (applyAll (todo.take j) s) t ∧
      ∃ d, t.store.port = drivenPort d todo[j] := by
  induction todo with
  | nil => intro j _ _ _ _ _ _ hj; simp at hj
  | cons a todo ih =>
    intro j last s hr h hx hk hj hp
    cases j with
    | zero =>
      obtain ⟨h1, h2⟩ := h.zero
      rcases access_cases a s with ⟨h3, -⟩ | ⟨-, h3, -⟩ | ⟨-, -, h3, -⟩ | ⟨-, -, -, h3⟩
      · have := hr a (by simp); omega
      · rw [nextSample_issue_fst, h1, hx] at h3; simp at h3
      · rw [nextSample_issue_fst, h1, hk] at h3; simp at h3
      · refine ⟨_, by rw [drive, h3]; rfl, by simp [h2], sameButPort_sampled a s, ?_⟩
        refine ⟨s.store.draws, ?_⟩
        simp [issue, hp rfl]
    | succ j =>
      obtain ⟨h1, h2, h3⟩ := h.succ
      obtain ⟨s', hd, hs, hn, hn', hq⟩ := drive_step (job := job) (todo := todo) (last := last)
        (hr a (by simp)) h1 h2
      have hcfg : s'.cfg = s.cfg := hs.cfg.trans (applyAccess_cfg a s)
      obtain ⟨t, ht, htn, hts, d, hd'⟩ := ih (j := j) (last := readNv s (accessAddr a)) (s := s')
        (fun b hb => by rw [hcfg]; exact hr b (by simp [hb])) (h3 s' hn hn') hx hk (by simpa using hj)
        (fun _ => hq)
      exact ⟨t, by rw [hd, ht]; rfl, htn, (hs.applyAll (todo.take j)).trans hts, d, hd'⟩

/-! ### Writes and reads, applied -/

theorem applyAll_append (l l' : List Access) (s : State) :
    applyAll (l ++ l') s = applyAll l' (applyAll l s) := by
  simp [applyAll, List.foldl_append]

end Sys2Proof.Machine
end

