-- ==== Sys2Proof/Laws/Frame.lean ====
section
/-! SUPPORT. No operation of the store touches the decoder, the build or the rest of the schedule. -/

namespace Sys2Proof.Machine

theorem OutsideStoreKept.refl (s : State) : OutsideStoreKept s s := ⟨rfl, rfl, rfl, rfl, rfl⟩

theorem OutsideStoreKept.trans {s t u : State} (h : OutsideStoreKept s t)
    (h' : OutsideStoreKept t u) : OutsideStoreKept s u :=
  ⟨h'.1.trans h.1, h'.2.1.trans h.2.1, h'.2.2.1.trans h.2.2.1, h'.2.2.2.1.trans h.2.2.2.1,
    h'.2.2.2.2.trans h.2.2.2.2⟩

theorem SameButPort.outside {s t : State} (h : SameButPort s t) : OutsideStoreKept s t :=
  ⟨h.cfg, h.dec, h.resetSeen, h.inputs, h.nvRest⟩

/-- Responding touches only the store. -/
theorem outside_respond (code : BitVec 4) (info : Byte) (flag : Bool) (s : State) :
    OutsideStoreKept s (respond code info flag s) := ⟨rfl, rfl, rfl, rfl, rfl⟩

/-- Whatever the NV responder answers, the accesses of a command stay inside the store and the NV
byte space. -/
theorem drive_outside {job : Job} {todo : List Access} : ∀ {last : Byte} {s : State},
    (∀ v t, drive job todo last s = .done v t → OutsideStoreKept s t) ∧
    (∀ t, drive job todo last s = .stopped (.next t) → OutsideStoreKept s t) := by
  induction todo with
  | nil =>
    intro last s
    refine ⟨fun v t h => ?_, fun t h => by simp [drive] at h⟩
    simp only [drive, Driven.done.injEq] at h
    rw [← h.2]
    exact .refl s
  | cons a rest ih =>
    intro last s
    have hs := sameButPort_sampled a s
    rcases access_cases a s with ⟨-, h⟩ | ⟨-, -, h⟩ | ⟨-, -, -, h⟩ | ⟨-, -, -, h⟩ <;>
      rw [drive, h] <;> simp only
    · exact ⟨fun v t h => by simp at h, fun t h => by simp at h⟩
    · refine ⟨fun v t h => by simp at h, fun t h => ?_⟩
      injection h with h
      injection h with h
      rw [← h]
      split <;> cases a <;> exact hs.outside
    · have he : OutsideStoreKept s (landAccess a (readNv s (accessAddr a))
          (releasePort (performAccess a (nextSample (issue a s)).2))) := by
        cases a <;> exact hs.outside
      exact ⟨fun v t h => he.trans (ih.1 v t h), fun t h => he.trans (ih.2 t h)⟩
    · refine ⟨fun v t h => by simp at h, fun t h => ?_⟩
      injection h with h
      injection h with h
      rw [← h]
      exact hs.outside

/-- A command that makes NV accesses stays inside the store and the NV byte space. -/
theorem runJob_outside {job : Job} {todo : List Access} {s t : State}
    (h : runJob job todo s = .next t) : OutsideStoreKept s t := by
  unfold runJob at h
  split at h
  · rename_i r hd
    rw [h] at hd
    exact drive_outside.2 t hd
  · rename_i last s' hd
    have e := drive_outside.1 _ _ hd
    cases job with
    | initCount now =>
      simp only [conclude, loadEntries] at h
      split at h
      · injection h with h
        rw [← h]
        exact e
      · unfold finishLoad at h
        split at h
        · rename_i r hd2
          rw [h] at hd2
          exact e.trans (drive_outside.2 t hd2)
        · rename_i v s2 hd2
          injection h with h
          rw [← h]
          have h3 := e.trans (drive_outside.1 _ _ hd2)
          exact h3
    | initEmpty now => simp only [conclude] at h; injection h with h; rw [← h]; exact e
    | initEntries now n => simp only [conclude] at h; injection h with h; rw [← h]; exact e
    | add k evicted => simp only [conclude] at h; injection h with h; rw [← h]; exact e
    | clear => simp only [conclude] at h; injection h with h; rw [← h]; exact e

/-- A step without a command stays inside the store and the NV byte space. -/
theorem storeTick_outside {s t : State} (h : storeTick s = .next t) : OutsideStoreKept s t := by
  unfold storeTick at h
  split at h
  · unfold resume at h
    split at h
    · exact runJob_outside h
    · injection h with h
      rw [← h]
      exact .refl s
  · injection h with h
    rw [← h]
    exact .refl s

/-- So does acceptance, if the command accepted does. -/
theorem accept_outside {trap : Option (BitVec 4)} {body : State → Result} {s t : State}
    (hb : ∀ u, body (beginCommand s) = .next u → OutsideStoreKept s u)
    (h : accept trap body s = .next t) : OutsideStoreKept s t := by
  rcases accept_cases trap body s with ⟨-, e⟩ | ⟨-, -, e⟩ | ⟨-, c, -, e⟩ | ⟨-, -, e⟩ <;> rw [e] at h
  · exact storeTick_outside h
  · injection h with h
    rw [← h]
    exact .refl s
  · injection h with h
    rw [← h]
    exact .refl s
  · exact hb t h

end Sys2Proof.Machine
end

