-- ==== Sys2Proof/Laws/PerInstr.lean ====
section
/-! SUPPORT. Statements made of every operation, one lemma per constructor. -/

namespace Sys2Proof.Laws.EncodedWord

open Sys2Proof Sys2Proof.Machine

/-- The row of the command table a command is encoded by (30_encoding.md R86-R90); none for RX. -/
def rowOf : Instr → Option CmdRow
  | .rx _ => none
  | .init _ _ => some rowInit
  | .advance _ => some rowAdvance
  | .check _ => some rowCheck
  | .add _ _ => some rowAdd
  | .clear => some rowClear

/-- An operation is encoded on its own agent's port: RX as its byte (40_tag_decoder.md R110), a command
as a word that satisfies its own row of the command table and no other (30_encoding.md R91). -/
def Statement (i : Instr) : Prop :=
  match encode i with
  | .rxByte b => i = .rx b
  | .cmdWord w => isCommand i = true ∧ cmdRows.filter (·.matches w) = (rowOf i).toList

/-- A word whose OP is not the row's does not satisfy the row. -/
theorem matches_of_op_ne {r : CmdRow} {w : CmdWord} (hm : r.mask.extractLsb' 0 4 = 0xF)
    (hne : w.extractLsb' 0 4 ≠ r.pattern.extractLsb' 0 4) : r.matches w = false := by
  by_contra h
  rw [Bool.not_eq_false] at h
  apply hne
  have h' : w &&& r.mask = r.pattern := by simpa [CmdRow.matches] using h
  rw [← h']
  apply BitVec.eq_of_getLsbD_eq
  intro i hi
  have hb : r.mask.getLsbD i = true := by
    have := getLsbD_of_extractLsb' hm hi
    rw [Nat.zero_add] at this
    rw [this]
    interval_cases i <;> rfl
  simp [hi, hb]

theorem op_init (r : Bool) (now : Millis) :
    (0#16 ++ now ++ 0#11 ++ BitVec.ofBool r ++ 0x1#4 : CmdWord).extractLsb' 0 4 = 0x1 := by
  apply BitVec.eq_of_getLsbD_eq
  intro i hi
  simp only [BitVec.getLsbD_extractLsb', BitVec.getLsbD_append]
  simp [hi]

theorem op_advance (now : Millis) :
    (0#16 ++ now ++ 0#12 ++ 0x2#4 : CmdWord).extractLsb' 0 4 = 0x2 := by
  apply BitVec.eq_of_getLsbD_eq
  intro i hi
  simp only [BitVec.getLsbD_extractLsb', BitVec.getLsbD_append]
  simp [hi]

theorem op_check (f : BitVec 40) :
    (0#8 ++ f ++ 0#12 ++ 0x3#4 : CmdWord).extractLsb' 0 4 = 0x3 := by
  apply BitVec.eq_of_getLsbD_eq
  intro i hi
  simp only [BitVec.getLsbD_extractLsb', BitVec.getLsbD_append]
  simp [hi]

theorem op_add (h : Byte) (f : BitVec 40) :
    (h ++ f ++ 0#12 ++ 0x4#4 : CmdWord).extractLsb' 0 4 = 0x4 := by
  apply BitVec.eq_of_getLsbD_eq
  intro i hi
  simp only [BitVec.getLsbD_extractLsb', BitVec.getLsbD_append]
  simp [hi]

theorem row_init (r : Bool) (now : Millis) :
    rowInit.matches (0#16 ++ now ++ 0#11 ++ BitVec.ofBool r ++ 0x1#4) = true := by
  rw [rowInit, matches_iff]
  apply BitVec.eq_of_getLsbD_eq
  intro i hi
  simp only [BitVec.getLsbD_and, BitVec.getLsbD_append]
  interval_cases i <;> simp

theorem row_advance (now : Millis) :
    rowAdvance.matches (0#16 ++ now ++ 0#12 ++ 0x2#4) = true := by
  rw [rowAdvance, matches_iff]
  apply BitVec.eq_of_getLsbD_eq
  intro i hi
  simp only [BitVec.getLsbD_and, BitVec.getLsbD_append]
  interval_cases i <;> simp

theorem row_check (f : BitVec 40) : rowCheck.matches (0#8 ++ f ++ 0#12 ++ 0x3#4) = true := by
  rw [rowCheck, matches_iff]
  apply BitVec.eq_of_getLsbD_eq
  intro i hi
  simp only [BitVec.getLsbD_and, BitVec.getLsbD_append]
  interval_cases i <;> simp

theorem row_add (h : Byte) (f : BitVec 40) :
    rowAdd.matches (h ++ f ++ 0#12 ++ 0x4#4) = true := by
  rw [rowAdd, matches_iff]
  apply BitVec.eq_of_getLsbD_eq
  intro i hi
  simp only [BitVec.getLsbD_and, BitVec.getLsbD_append]
  interval_cases i <;> simp

/-- A word satisfies no row but the one its OP names. -/
theorem rows_of_op {w : CmdWord} {op : BitVec 4} (h : w.extractLsb' 0 4 = op) :
    (op ≠ 0x1 → rowInit.matches w = false) ∧ (op ≠ 0x2 → rowAdvance.matches w = false) ∧
    (op ≠ 0x3 → rowCheck.matches w = false) ∧ (op ≠ 0x4 → rowAdd.matches w = false) ∧
    (op ≠ 0x5 → rowClear.matches w = false) := by
  subst h
  exact ⟨fun h => matches_of_op_ne (by decide) h, fun h => matches_of_op_ne (by decide) h,
    fun h => matches_of_op_ne (by decide) h, fun h => matches_of_op_ne (by decide) h,
    fun h => matches_of_op_ne (by decide) h⟩

theorem rx (b : Byte) : Statement (.rx b) := rfl

theorem init (r : Bool) (now : Millis) : Statement (.init r now) := by
  obtain ⟨-, h2, h3, h4, h5⟩ := rows_of_op (op_init r now)
  refine ⟨rfl, ?_⟩
  simp only [cmdRows, List.filter, row_init, h2 (by decide), h3 (by decide), h4 (by decide),
    h5 (by decide)]
  rfl

theorem advance (now : Millis) : Statement (.advance now) := by
  obtain ⟨h1, -, h3, h4, h5⟩ := rows_of_op (op_advance now)
  refine ⟨rfl, ?_⟩
  simp only [cmdRows, List.filter, row_advance, h1 (by decide), h3 (by decide), h4 (by decide),
    h5 (by decide)]
  rfl

theorem check (id : TagId) : Statement (.check id) := by
  obtain ⟨h1, h2, -, h4, h5⟩ := rows_of_op (op_check id.toField)
  refine ⟨rfl, ?_⟩
  simp only [cmdRows, List.filter, row_check, h1 (by decide), h2 (by decide), h4 (by decide),
    h5 (by decide)]
  rfl

theorem add (id : TagId) (interval : Byte) : Statement (.add id interval) := by
  obtain ⟨h1, h2, h3, -, h5⟩ := rows_of_op (op_add interval id.toField)
  refine ⟨rfl, ?_⟩
  simp only [cmdRows, List.filter, row_add, h1 (by decide), h2 (by decide), h3 (by decide),
    h5 (by decide)]
  rfl

theorem clear : Statement .clear := ⟨rfl, by decide⟩

end Sys2Proof.Laws.EncodedWord
end

