-- ==== Sys2Proof/Laws/Persist.lean ====
section
/-! SUPPORT. What the writes of PersistEntry and the reads of a load do, applied. -/

namespace Sys2Proof.Machine

/-! ### Writes -/

/-- Writes change nothing but the NV byte space. -/
theorem applyAll_writes_keep {l : List Access} (hl : ∀ a ∈ l, ∃ b v, a = .write b v) (s : State) :
    (applyAll l s).store = s.store ∧ (applyAll l s).dec = s.dec ∧
      (applyAll l s).resetSeen = s.resetSeen ∧ (applyAll l s).inputs = s.inputs := by
  induction l generalizing s with
  | nil => exact ⟨rfl, rfl, rfl, rfl⟩
  | cons a rest ih =>
    obtain ⟨b, v, rfl⟩ := hl a (by simp)
    exact ih (fun c hc => hl c (by simp [hc])) (writeNv b v s)

/-- What an address reads as after a list of writes: the last byte written to it, if any. -/
def writtenByte (x : Nat) (old : Byte) : List Access → Byte
  | [] => old
  | .write b v :: rest => writtenByte x (if x = b then v else old) rest
  | .readCount :: rest => writtenByte x old rest
  | .readEntry _ _ :: rest => writtenByte x old rest

/-- Reading after acknowledged accesses inside the NV byte space (20_memory.md R57, R59). -/
theorem readNv_applyAll {l : List Access} {s : State} (hwf : Memory.wf s.cfg s.nv = true)
    (hr : ∀ a ∈ l, accessAddr a < s.cfg.totalBytes) (x : Nat) :
    readNv (applyAll l s) x = writtenByte x (readNv s x) l ∧
      Memory.wf s.cfg (applyAll l s).nv = true := by
  induction l generalizing s with
  | nil => exact ⟨rfl, hwf⟩
  | cons a rest ih =>
    have hc : (applyAccess a s).cfg = s.cfg := applyAccess_cfg a s
    have hn : (applyAccess a s).nv = (performAccess a s).nv := by simp [applyAccess]
    have hw : Memory.wf (applyAccess a s).cfg (applyAccess a s).nv = true := by
      rw [hc, hn]; exact wf_performAccess hwf (hr a (by simp))
    obtain ⟨h1, h2⟩ := ih hw (fun b hb => by rw [hc]; exact hr b (by simp [hb]))
    rw [hc] at h2
    refine ⟨h1.trans ?_, h2⟩
    cases a with
    | write b v =>
      rw [writtenByte]
      congr 1
      exact readNv_writeNv hwf b x v
    | readCount => rfl
    | readEntry k i => rfl

theorem persistWrites_are_writes (k : Nat) (e : Entry) (count : Byte) :
    ∀ a ∈ persistWrites k e count, ∃ b v, a = .write b v := by
  intro a ha
  simp only [persistWrites, List.mem_cons, List.not_mem_nil, or_false] at ha
  rcases ha with h | h | h | h | h | h | h <;> exact ⟨_, _, h⟩

@[simp] theorem length_persistWrites (k : Nat) (e : Entry) (count : Byte) :
    (persistWrites k e count).length = 7 := rfl

/-- The addresses of PersistEntry's writes exist (20_memory.md R52). -/
theorem persistWrites_range {cfg : Config} {k : Nat} (hc : cfg.wellFormed = true)
    (hk : k < cfg.capacity) (e : Entry) (count : Byte) :
    ∀ a ∈ persistWrites k e count, accessAddr a < cfg.totalBytes := by
  have := capacity_bounds hc
  intro a ha
  simp only [persistWrites, List.mem_cons, List.not_mem_nil, or_false] at ha
  rcases ha with h | h | h | h | h | h | h <;> subst h <;>
    simp only [accessAddr, entryAddr, countAddr] <;> omega

/-- The bytes that `m` of PersistEntry's writes leave, from the one numbered `d` on
(41_store_commands.md R145). -/
theorem persistedWithin_drop_take {s : State} {k d m : Nat} (hwf : Memory.wf s.cfg s.nv = true)
    (hc : s.cfg.wellFormed = true) (hk : k < s.cfg.capacity) (hm : d + m ≤ 7) (e : Entry)
    (count : Byte) :
    PersistedWithin d (d + m) k e count s
      (applyAll (((persistWrites k e count).drop d).take m) s) := by
  have hr : ∀ a ∈ ((persistWrites k e count).drop d).take m, accessAddr a < s.cfg.totalBytes :=
    fun a ha => persistWrites_range hc hk e count a (List.mem_of_mem_drop (List.mem_of_mem_take ha))
  have h := fun x => (readNv_applyAll hwf hr x).1
  have hd : d ≤ 7 := by omega
  have hm7 : m ≤ 7 - d := by omega
  refine ⟨fun i hi => ?_, ?_, fun a ha => ?_⟩
  · rw [h]
    interval_cases d <;> interval_cases m <;>
      simp [persistWrites, writtenByte, entryAddr, countAddr] <;> interval_cases i <;> simp
  · rw [h]
    interval_cases d <;> interval_cases m <;>
      simp [persistWrites, writtenByte, entryAddr, countAddr] <;> omega
  · rw [h]
    simp only [entryOrCount, not_or, not_exists, not_and] at ha
    have h0 := ha.2 0 (by omega)
    have h1 := ha.2 1 (by omega)
    have h2 := ha.2 2 (by omega)
    have h3 := ha.2 3 (by omega)
    have h4 := ha.2 4 (by omega)
    have h5 := ha.2 5 (by omega)
    interval_cases d <;> interval_cases m <;>
      simp [persistWrites, writtenByte, ha.1, h0, h1, h2, h3, h4, h5]

/-- The bytes the first `m` of PersistEntry's writes leave (41_store_commands.md R145). -/
theorem persistedUpTo_take {s : State} {k m : Nat} (hwf : Memory.wf s.cfg s.nv = true)
    (hc : s.cfg.wellFormed = true) (hk : k < s.cfg.capacity) (hm : m ≤ 7) (e : Entry)
    (count : Byte) :
    PersistedUpTo m k e count s (applyAll ((persistWrites k e count).take m) s) := by
  have := persistedWithin_drop_take (d := 0) (m := m) hwf hc hk (by omega) e count
  rwa [Nat.zero_add] at this

/-! ### Reads of a load -/

/-- The six reads of one entry put it into its slot and leave everything else alone
(41_store_commands.md R150, R152). -/
theorem applyAll_entryReads {s : State} {k : Nat} (hk : k < s.store.table.length) :
    applyAll (entryReads k) s = { s with store := setSlot s.store k (loadedEntry s k) } := by
  have key : ∀ (e e' : Entry) (t : State), k < t.store.table.length →
      setSlot (setSlot t.store k e) k e' = setSlot t.store k e' := by
    intro e e' t _
    simp [setSlot, List.set_set]
  have hslot : ∀ (e : Entry), slot (setSlot s.store k e) k = e := fun e => by
    rw [slot_setSlot hk]; simp
  have hread : ∀ (e : Entry) (a : Nat),
      readNv { s with store := setSlot s.store k e } a = readNv s a := fun _ _ => rfl
  simp only [entryReads, applyAll, List.foldl_cons, List.foldl_nil, applyAccess, performAccess,
    landAccess, accessAddr, hslot, hread, key _ _ s hk]
  simp [loadEntryByte, setTagByte, loadedEntry, setSlot]

/-- The loaded entry depends only on the NV byte space. -/
theorem loadedEntry_store (s : State) (st : Store) (k : Nat) :
    loadedEntry { s with store := st } k = loadedEntry s k := rfl

/-- A load of the entries `k .. k+m-1`: those slots hold the persisted entries, the others and
everything outside the table are as before (41_store_commands.md R150, R152). -/
theorem applyAll_loadReads {m : Nat} : ∀ {s : State} {k : Nat}, k + m ≤ s.store.table.length →
    ∃ table, applyAll (loadReads k m) s = { s with store := { s.store with table := table } } ∧
      table.length = s.store.table.length ∧
      ∀ j, table.getD j Entry.blank =
        if k ≤ j ∧ j < k + m then loadedEntry s j else slot s.store j := by
  induction m with
  | zero =>
    intro s k _
    exact ⟨s.store.table, rfl, rfl, fun j => by rw [if_neg (by omega)]; rfl⟩
  | succ m ih =>
    intro s k hk
    rw [loadReads, applyAll_append, applyAll_entryReads (by omega)]
    obtain ⟨table, h1, h2, h3⟩ := ih (s := { s with store := setSlot s.store k (loadedEntry s k) })
      (k := k + 1) (by simp only [setSlot_table, List.length_set]; omega)
    refine ⟨table, ?_, by simpa using h2, fun j => ?_⟩
    · rw [h1]; rfl
    · rw [h3, slot_setSlot (by omega), loadedEntry_store]
      by_cases hj : j = k
      · subst hj; simp
      · simp only [hj, if_false]
        by_cases hj' : k + 1 ≤ j ∧ j < k + 1 + m
        · rw [if_pos hj', if_pos (by omega)]
        · rw [if_neg hj', if_neg (by omega)]

/-- The reads of a load of `n ≤ CAPACITY` entries exist (20_memory.md R52). -/
theorem loadReads_range {cfg : Config} {n : Nat} (hc : cfg.wellFormed = true)
    (hn : n ≤ cfg.capacity) : ∀ a ∈ loadReads 0 n, accessAddr a < cfg.totalBytes := by
  have := capacity_bounds hc
  intro a ha
  obtain ⟨j, i, -, h2, h3, rfl⟩ := mem_loadReads.1 ha
  simp only [accessAddr, entryAddr]
  omega

/-- One byte of an entry put into its slot (41_store_commands.md R150). -/
theorem persistedByte_loadEntryByte {i j : Nat} (hi : i < 6) (hj : j < 6) (e : Entry) (v : Byte) :
    persistedByte (loadEntryByte e i v) j = if j = i then v else persistedByte e j := by
  interval_cases i <;> interval_cases j <;>
    simp [persistedByte, loadEntryByte, setTagByte, tagByte]

/-- The timing fields change with the interval (41_store_commands.md R152). -/
theorem timing_loadEntryByte {i : Nat} (hi : i < 6) (e : Entry) (v : Byte) :
    (loadEntryByte e i v).carry = (if 5 = i then sentinelMax else e.carry) ∧
      (loadEntryByte e i v).lastGrant = (if 5 = i then 0 else e.lastGrant) := by
  interval_cases i <;> simp [loadEntryByte]

/-- Reads of entry bytes, applied: everything they do (41_store_commands.md R150, R152). -/
theorem loadedBy_applyAll {l : List Access} : ∀ {s : State},
    (∀ a ∈ l, ∃ k i, a = .readEntry k i ∧ k < s.store.table.length ∧ i < 6) →
    LoadedBy l s (applyAll l s) ∧ ∃ table,
      applyAll l s = { s with store := { s.store with table := table } } := by
  induction l with
  | nil => intro s _; exact ⟨⟨rfl, fun k => by simp [applyAll]⟩, s.store.table, rfl⟩
  | cons a rest ih =>
    intro s hl
    obtain ⟨k, i, rfl, hk, hi⟩ := hl a (by simp)
    have hs : applyAccess (.readEntry k i) s = { s with
        store := setSlot s.store k (loadEntryByte (slot s.store k) i (readNv s (entryAddr k i))) } :=
      rfl
    have hlen : (applyAccess (.readEntry k i) s).store.table.length = s.store.table.length := by
      simp [hs]
    obtain ⟨⟨h1, h2⟩, table, h3⟩ := ih (s := applyAccess (.readEntry k i) s)
      (fun b hb => by rw [hlen]; exact hl b (by simp [hb]))
    have hrd : ∀ x, readNv (applyAccess (.readEntry k i) s) x = readNv s x := fun _ => rfl
    have hsl : ∀ j, slot (applyAccess (.readEntry k i) s).store j =
        if j = k then loadEntryByte (slot s.store k) i (readNv s (entryAddr k i))
        else slot s.store j := fun j => by rw [hs]; exact slot_setSlot hk _ _
    have ht := timing_loadEntryByte hi (slot s.store k) (readNv s (entryAddr k i))
    have happ : applyAll (.readEntry k i :: rest) s = applyAll rest (applyAccess (.readEntry k i) s) :=
      rfl
    rw [happ]
    refine ⟨⟨h1.trans hlen, fun j => ?_⟩, table, by rw [h3, hs]; rfl⟩
    obtain ⟨g1, g2, g3⟩ := h2 j
    rw [g2, g3, hsl]
    refine ⟨fun i' hi' => ?_, ?_, ?_⟩
    · rw [g1 i' hi', hrd, hsl]
      by_cases hjk : j = k
      · subst hjk
        rw [if_pos rfl, persistedByte_loadEntryByte hi hi']
        by_cases hii : i' = i <;> simp [hii]
      · simp [hjk]
    · by_cases hjk : j = k
      · subst hjk
        rw [if_pos rfl, ht.1]
        by_cases hii : 5 = i <;> simp [hii]
      · simp [hjk]
    · by_cases hjk : j = k
      · subst hjk
        rw [if_pos rfl, ht.2]
        by_cases hii : 5 = i <;> simp [hii]
      · simp [hjk]

/-- Six persistent bytes and two timing fields are all of an entry (10_state.md R26, 20_memory.md
R51). -/
theorem entry_ext {e e' : Entry} (h : ∀ i, i < 6 → persistedByte e i = persistedByte e' i)
    (hc : e.carry = e'.carry) (hg : e.lastGrant = e'.lastGrant) : e = e' := by
  obtain ⟨⟨a0, a1, a2, a3, a4⟩, b, c, d⟩ := e
  obtain ⟨⟨a0', a1', a2', a3', a4'⟩, b', c', d'⟩ := e'
  have h0 := h 0 (by omega)
  have h1 := h 1 (by omega)
  have h2 := h 2 (by omega)
  have h3 := h 3 (by omega)
  have h4 := h 4 (by omega)
  have h5 := h 5 (by omega)
  simp only [persistedByte, tagByte] at *
  simp_all

/-- The loaded entry's bytes are those of the NV byte space. -/
theorem persistedByte_loadedEntry (s : State) (k : Nat) {i : Nat} (hi : i < 6) :
    persistedByte (loadedEntry s k) i = readNv s (entryAddr k i) := by
  interval_cases i <;> simp [persistedByte, loadedEntry, tagByte]

/-- A slot none of whose bytes was read is as before. -/
theorem LoadedBy.slot_eq {l : List Access} {s t : State} {k : Nat} (h : LoadedBy l s t)
    (hn : ∀ i, Access.readEntry k i ∉ l) : slot t.store k = slot s.store k := by
  obtain ⟨h1, h2, h3⟩ := h.2 k
  refine entry_ext (fun i hi => ?_) ?_ ?_
  · rw [h1 i hi, if_neg (hn i)]
  · rw [h2, if_neg (hn 5)]
  · rw [h3, if_neg (hn 5)]

/-- `LoadedBy` looks only at the table of the state after. -/
theorem LoadedBy.congr_right {l : List Access} {s t u : State} (h : LoadedBy l s t)
    (hu : u.store.table = t.store.table) : LoadedBy l s u := by
  have hs : ∀ k, slot u.store k = slot t.store k := fun k => by simp [slot, hu]
  refine ⟨by rw [hu]; exact h.1, fun k => ?_⟩
  simp only [hs]
  exact h.2 k

@[simp] theorem length_loadReads (m : Nat) : ∀ k, (loadReads k m).length = 6 * m := by
  induction m with
  | zero => intro k; rfl
  | succ m ih => intro k; simp [loadReads, entryReads, ih]; omega

end Sys2Proof.Machine
end

