-- ==== Sys2Proof/Laws/Resume.lean ====
section
/-! SUPPORT. A command in progress that goes on in a later step (20_memory.md R58, R59): which accesses
it still makes, and what a tick of the store then is. -/

namespace Sys2Proof.Machine

/-- The accesses of a command in progress lie within `0 .. 6 * CAPACITY` (20_memory.md R52). -/
theorem accessAddr_jobAccesses {cfg : Config} {st : Store} {job : Job} {todo : List Access}
    (hcount : st.numEntries.toNat ≤ cfg.capacity) (hj : JobOk cfg st todo job) :
    ∀ a ∈ jobAccesses st job, accessAddr a ≤ 6 * cfg.capacity := by
  intro a ha
  cases job with
  | initEmpty now => simp_all [jobAccesses, accessAddr, countAddr]
  | initCount now => simp_all [jobAccesses, accessAddr, countAddr]
  | clear => simp_all [jobAccesses, accessAddr, countAddr]
  | initEntries now n =>
    obtain ⟨j, i, -, h2, h3, rfl⟩ := mem_loadReads.1 ha
    have := hj.1
    simp only [accessAddr, entryAddr]
    omega
  | add k evicted =>
    have := hj.2
    simp only [jobAccesses, persistWrites, List.mem_cons, List.not_mem_nil, or_false] at ha
    rcases ha with h | h | h | h | h | h | h <;> subst h <;>
      simp only [accessAddr, entryAddr, countAddr] <;> omega

/-- A tick of a busy store goes on with its command; the port requests an access, the accesses still to
make exist, and no fault is recorded. -/
theorem storeTick_resumes {s : State} {f : InFlight} (h : Inv s) (hs : s.resetSeen = true)
    (hf : s.store.inFlight = some f) :
    storeTick s = runJob f.job f.todo s ∧ InFlightOk s.cfg s.store f ∧
      (∀ a ∈ f.todo, accessAddr a < s.cfg.totalBytes) ∧ s.store.port.req = true ∧
      s.store.busy = true ∧ s.store.fault = 0 := by
  have hr := h.running hs
  have hb : s.store.busy = true := by rw [hr.busyIff, hf]; rfl
  have hok := hr.inFlight f hf
  refine ⟨?_, hok, fun a ha => ?_, by rw [hr.reqIff, hf]; rfl, hb, ?_⟩
  · unfold storeTick resume
    rw [if_pos hb, hf]
  · have := accessAddr_jobAccesses hr.count hok.2.1 a (hok.1.subset ha)
    have := capacity_bounds h.build
    omega
  · by_contra hne
    rw [hr.faultIdle hne] at hb
    exact absurd hb (by decide)

/-- What is left of a phase of one access is that access. -/
theorem todo_eq_single {cfg : Config} {st : Store} {f : InFlight} {a : Access}
    (h : InFlightOk cfg st f) (hj : jobAccesses st f.job = [a]) : f.todo = [a] := by
  obtain ⟨h1, -, b, rest, h2, -⟩ := h
  rw [hj] at h1
  refine h1.eq_of_length ?_
  have := h1.length_le
  rw [h2] at this ⊢
  simp only [List.length_cons, List.length_nil] at this ⊢
  omega

/-- What is left of an ADD is the last of PersistEntry's writes. -/
theorem todo_eq_drop {cfg : Config} {st : Store} {k : Nat} {evicted : Bool} {todo : List Access}
    (h : InFlightOk cfg st ⟨.add k evicted, todo⟩) :
    todo = (persistWrites k (slot st k) st.numEntries).drop (7 - todo.length) ∧
      todo.length ≤ 7 := by
  have h1 : todo <:+ persistWrites k (slot st k) st.numEntries := h.1
  have hl := h1.length_le
  rw [length_persistWrites] at hl
  refine ⟨?_, hl⟩
  have := List.suffix_iff_eq_drop.1 h1
  rwa [length_persistWrites] at this

/-- What is left of a load are reads of entry bytes below the count. -/
theorem todo_readEntry {cfg : Config} {st : Store} {now : Millis} {n : Byte} {todo : List Access}
    (h : InFlightOk cfg st ⟨.initEntries now n, todo⟩) :
    ∀ a ∈ todo, ∃ k i, a = .readEntry k i ∧ k < n.toNat ∧ i < 6 := by
  intro a ha
  have hm : a ∈ loadReads 0 n.toNat := h.1.subset ha
  obtain ⟨j, i, -, h2, h3, rfl⟩ := mem_loadReads.1 hm
  exact ⟨j, i, rfl, by omega, h3⟩

theorem portShows_drivenPort (d : Nat) (a : Access) : PortShows (drivenPort d a) a := by
  cases a <;> simp [drivenPort, PortShows]

/-- `drive_waiting` for a command in progress, whose first access is on the port already: after `j`
acknowledged accesses the next one stays outstanding, and the port shows it. -/
theorem drive_waiting_resumed {job : Job} {todo : List Access} {x : NvSample}
    {rest : List NvSample} {j : Nat} {last : Byte} {s : State}
    (hr : ∀ a ∈ todo, accessAddr a < s.cfg.totalBytes) (hA : AnswersThen j x rest s)
    (he : x.err = false) (hk : x.ack = false) (hj : j < todo.length)
    (hp : ∀ a, todo.head? = some a → PortShows s.store.port a) :
    ∃ t, drive job todo last s = .stopped (.next (park job (todo.drop j) t)) ∧
      t.nvSamples = rest ∧ SameButPort (applyAll (todo.take j) s) t ∧
      PortShows t.store.port todo[j] := by
  cases todo with
  | nil => simp at hj
  | cons a todo =>
    have hpa := hp a rfl
    cases j with
    | zero =>
      have hq : s.store.port.req = true := by cases a <;> exact hpa.1
      have hi : issue a s = s := by simp [issue, hq]
      obtain ⟨h1, rfl⟩ := hA.zero
      have h1 : sampleAt 0 s = x := h1
      have hacc : access a s = .waiting { s with nvSamples := s.nvSamples.tail } := by
        simp [access, hr a (by simp), hi, nextSample, h1, he, hk]
      exact ⟨{ s with nvSamples := s.nvSamples.tail }, by rw [drive, hacc]; rfl, rfl, by constructor <;> rfl, hpa⟩
    | succ j =>
      obtain ⟨h1, h2, h3⟩ := hA.succ
      obtain ⟨s', hd, hsm, hn, hn', hq⟩ := drive_step (job := job) (todo := todo) (last := last)
        (hr a (by simp)) h1 h2
      have hcfg : s'.cfg = s.cfg := hsm.cfg.trans (applyAccess_cfg a s)
      obtain ⟨t, ht, htn, hts, d, hd'⟩ := drive_waiting (job := job) (todo := todo) (j := j)
        (last := readNv s (accessAddr a)) (s := s')
        (fun b hb => by rw [hcfg]; exact hr b (by simp [hb])) (h3 s' hn hn') he hk (by simpa using hj)
        (fun _ => hq)
      refine ⟨t, by rw [hd, ht]; rfl, htn, (hsm.applyAll (todo.take j)).trans hts, ?_⟩
      rw [hd']
      exact portShows_drivenPort _ _

end Sys2Proof.Machine
end

