-- ==== Sys2Proof/Tests/Slice0.lean ====
section
/-! SUPPORT. Tests: the well-formedness checks, words written out from the spec's encodings, single
steps of spec/95_test_vectors.md, and for every statement a state and operands that meet its
hypotheses. -/

namespace Sys2Proof.Tests

open Sys2Proof Sys2Proof.Machine

/-! ## Well-formedness -/

theorem test_wf_default : Config.default.wellFormed = true := by decide

theorem test_wf_smallest :
    ({ Config.default with totalBytes := 7, nvInit := List.replicate 7 0 } : Config).wellFormed
      = true := by decide

theorem test_wf_refuses_six_bytes :
    ({ Config.default with totalBytes := 6 } : Config).sizeOk = false := by decide

theorem test_wf_refuses_1532_bytes :
    ({ Config.default with totalBytes := 1532 } : Config).sizeOk = false := by decide

theorem test_wf_accepts_1531_bytes :
    ({ Config.default with totalBytes := 1531 } : Config).sizeOk = true := by decide

theorem test_wf_refuses_time_unit_60 :
    ({ Config.default with timeUnitS := 60 } : Config).timeUnitOk = false := by decide

theorem test_wf_refuses_alphabet_az :
    ({ Config.default with hexAlphabet := .az } : Config).alphabetOk = false := by decide

theorem test_wf_refuses_narrow_address :
    ({ Config.default with nvAddrW := 4 } : Config).addrWidthOk = false := by decide

theorem test_wf_refuses_short_nv_init :
    ({ Config.default with nvInit := List.replicate 18 0xFF } : Config).nvInitOk = false := by decide

/-! ## Words of the spec's encodings (30_encoding.md R86-R91, 95_test_vectors.md part 2) -/

/-- Any byte is an RX (40_tag_decoder.md R110). -/
theorem test_decode_rx : decodeTableWord 8 0x02 = some (.rx 0x02) := by decide

/-- W[3:0] = 1, W[4] = R, W[47:16] = NOW (R86). -/
theorem test_decode_init_reset : decodeTableWord 64 0x0000FFFFFFF00011 =
    some (.init true 0xFFFFFFF0) := by decide

theorem test_decode_init_load : decodeTableWord 64 0x0000000001000001 =
    some (.init false 0x100) := by decide

/-- W[3:0] = 2, W[47:16] = NOW (R87). -/
theorem test_decode_advance : decodeTableWord 64 0x0000000003E80002 =
    some (.advance 0x3E8) := by decide

/-- W[3:0] = 3, W[55:16] = ID (R88). -/
theorem test_decode_check : decodeTableWord 64 0x0001234567890003 =
    some (.check ⟨0x01, 0x23, 0x45, 0x67, 0x89⟩) := by decide

/-- W[3:0] = 4, W[55:16] = ID, W[63:56] = INTERVAL (R89). -/
theorem test_decode_add : decodeTableWord 64 0x05ABCDEF01230004 =
    some (.add ⟨0xAB, 0xCD, 0xEF, 0x01, 0x23⟩ 0x05) := by decide

/-- W[3:0] = 5 (R90). -/
theorem test_decode_clear : decodeTableWord 64 0x0000000000000005 = some .clear := by decide

/-- OP 0 is illegal (R91). -/
theorem test_decode_zero_illegal : decodeCmd 0 = .error (.illegalOpcode 0x0) := by decide

/-- OP 6 is illegal (R91). -/
theorem test_decode_six_illegal : decodeCmd 0x6 = .error (.illegalOpcode 0x6) := by decide

/-- OP 0xF is illegal (R91). -/
theorem test_decode_fifteen_illegal : decodeCmd 0xF = .error (.illegalOpcode 0xF) := by decide

/-- INIT with bit 5 set is illegal (R86, R91). -/
theorem test_decode_init_bit5_illegal : decodeCmd 0x21 = .error (.reservedBits 0x1) := by decide

/-- CHECK with an INTERVAL is illegal (R88, R91). -/
theorem test_decode_check_high_illegal :
    decodeCmd 0x0101234567890003 = .error (.reservedBits 0x3) := by decide

/-- CLEAR with bit 63 set is illegal (R90, R91). -/
theorem test_decode_clear_high_illegal :
    decodeCmd 0x8000000000000005 = .error (.reservedBits 0x5) := by decide

theorem test_encode_add : encode (.add ⟨0xAB, 0xCD, 0xEF, 0x01, 0x23⟩ 0x05) =
    .cmdWord 0x05ABCDEF01230004 := by decide

theorem test_encode_init : encode (.init true 0xFFFFFFF0) = .cmdWord 0x0000FFFFFFF00011 := by decide

/-! ## Small states -/

/-- The identifier 0x0123456789. -/
def tagA : TagId := ⟨0x01, 0x23, 0x45, 0x67, 0x89⟩

/-- The identifier 0xABCDEF0123. -/
def tagB : TagId := ⟨0xAB, 0xCD, 0xEF, 0x01, 0x23⟩

/-- The identifier 0x1111111111. -/
def tagC : TagId := ⟨0x11, 0x11, 0x11, 0x11, 0x11⟩

/-- The identifier 0x4444444444. -/
def tagD : TagId := ⟨0x44, 0x44, 0x44, 0x44, 0x44⟩

/-- `CAPACITY = 3`, seconds as the interval's unit, and these NV contents. -/
def cfgOf (init : List Byte) : Config := { Config.default with timeUnitS := 1, nvInit := init }

/-- A store that has been initialized, with these entries and this clock. -/
def served (now : Millis) (entries : List Entry) : State :=
  let s := State.resetOf (cfgOf (List.replicate 19 0xFF))
  { s with store := { s.store with
      initialized := true
      nowReg := now
      numEntries := BitVec.ofNat 8 entries.length
      table := entries ++ List.replicate (3 - entries.length) Entry.blank } }

/-- The store just after reset, its NV byte space holding `n` in byte 0 and the entry A, interval 2. -/
def media (n : Byte) : State :=
  .resetOf (cfgOf ([n, 0x01, 0x23, 0x45, 0x67, 0x89, 0x02] ++ List.replicate 12 0xFF))

/-- The decoder at position `p`, with this buffer. -/
def decAt (p : BitVec 4) (buf : Vector Byte 6) : State :=
  { State.reset with dec := { Decoder.atReset with pos := p, buf := buf } }

/-- A schedule of one entry. -/
def offered (i : Input) (s : State) : State := { s with inputs := [i] }

/-- The NV responder's next samples. -/
def answered (l : List NvSample) (s : State) : State := { s with nvSamples := l }

/-- `nv_ack`. -/
def ackSample : NvSample := ⟨true, false, true⟩
/-- `nv_err`; a write has not landed. -/
def errSample : NvSample := ⟨false, true, false⟩
/-- No answer. -/
def noSample : NvSample := ⟨false, false, false⟩

/-- Entry A with interval `h`, granted at 0. -/
def entryA (h : Byte) (carry : Millis) : Entry := ⟨tagA, h, carry, 0⟩

/-- A full table of A, B and C. -/
def full (now : Millis) : State :=
  served now [entryA 1 0, ⟨tagB, 1, 3000, 0⟩, ⟨tagC, 1, 3000, 0⟩]

/-- What a step answers, seen through `f`. -/
def seen {α : Type} (f : State → α) (r : Result) : Option α :=
  match r with
  | .next s => some (f s)
  | .fault _ => none
  | .refused _ => none

/-- The response. -/
def rspOf (s : State) : Bool × BitVec 4 × Byte × Bool :=
  (s.store.rsp.valid, s.store.rsp.code, s.store.rsp.info, s.store.rsp.flag)

/-- The first bytes of the NV byte space. -/
def nvBytes (n : Nat) (s : State) : List Byte := (List.range n).map (readNv s)

/-! ## Single steps -/

/-- 40_tag_decoder.md R110, its example: RX 0x41 at position 0 gives FRAMING. -/
theorem test_rx_framing :
    seen (fun s => (s.dec.valid, s.dec.status, s.dec.pos)) (exec (.rx 0x41) State.reset) =
      some (true, statusFraming, 0) := by decide

/-- 95_test_vectors.md DV1: the last byte of the frame of 0123456789 with checksum 89 gives OK. -/
theorem test_rx_ok :
    seen (fun s => (s.dec.valid, s.dec.status, s.dec.id, s.dec.pos))
      (exec (.rx 0x03) (decAt 15 #v[0x01, 0x23, 0x45, 0x67, 0x89, 0x89])) =
      some (true, statusOK, 0x0123456789, 0) := by decide

/-- 41_store_commands.md R150, its example: INIT R=0, NOW=500 loads the one entry. -/
theorem test_init_load :
    seen (fun s => (rspOf s, s.store.numEntries, slot s.store 0, s.store.nowReg))
      (exec (.init false 500) (media 1)) =
      some ((true, codeOK, 1, false), 1, ⟨tagA, 2, 0xFFFFFFFF, 0⟩, 500) := by decide

/-- 95_test_vectors.md SV12: blank media and INIT R=1, NOW=0; byte 0 is written. -/
theorem test_init_reset :
    seen (fun s => (rspOf s, nvBytes 2 s, s.store.initialized))
      (exec (.init true 0) State.reset) =
      some ((true, codeOK, 0, true), [0x00, 0xFF], true) := by decide

/-- 41_store_commands.md R155, its example: the fold at a wrap. -/
theorem test_advance_wrap :
    seen (fun s => (rspOf s, slot s.store 0, s.store.nowReg))
      (exec (.advance 0x10) (served 0xFFFFFFF0 [⟨tagA, 1, 0, 0xFFFFFFE0⟩])) =
      some ((true, codeOK, 1, true), ⟨tagA, 1, 0x10, 0x10⟩, 0x10) := by decide

/-- 95_test_vectors.md SV11: an equal reading is no wrap. -/
theorem test_advance_equal :
    seen rspOf (exec (.advance 0x50) (served 0x50 [])) =
      some (true, codeOK, 0, false) := by decide

/-- 41_store_commands.md R160, its example: one second of interval, one second elapsed. -/
theorem test_check_allowed :
    seen (fun s => (rspOf s, slot s.store 0)) (exec (.check tagA) (served 1000 [entryA 1 0])) =
      some ((true, codeAllowed, 0, false), ⟨tagA, 1, 0, 1000⟩) := by decide

/-- 41_store_commands.md R141: 999 ms of carry and 1999 ms since the baseline are one second. -/
theorem test_check_separate_floors :
    seen rspOf (exec (.check tagA) (served 1999 [entryA 2 999])) =
      some (true, codeDenied, 0, false) := by decide

/-- 41_store_commands.md R170, its example: an append. -/
theorem test_add_append :
    seen (fun s => (rspOf s, s.store.numEntries, nvBytes 8 s)) (exec (.add tagA 1) (served 0 [])) =
      some ((true, codeOK, 0, false), 1, [0x01, 0x01, 0x23, 0x45, 0x67, 0x89, 0x01, 0xFF]) := by
  decide

/-- 95_test_vectors.md P3a, step 9: a full table evicts the slot with the largest elapsed time. -/
theorem test_add_evict :
    seen (fun s => (rspOf s, (slot s.store 1).id, s.store.numEntries))
      (exec (.add tagD 7) (served 2000 [⟨tagC, 5, 0, 1000⟩, ⟨tagB, 5, 0xFFFFFFFF, 0⟩,
        ⟨tagA, 5, 0, 1000⟩])) =
      some ((true, codeOK, 1, true), tagD, 3) := by decide

/-- 41_store_commands.md R175, its example. -/
theorem test_clear :
    seen (fun s => (rspOf s, s.store.numEntries, nvBytes 2 s)) (exec .clear (full 0)) =
      some ((true, codeOK, 0, false), 0, [0x00, 0xFF]) := by decide

/-- 95_test_vectors.md SV15: `nv_err` on ADD's third write. -/
theorem test_add_nv_fault :
    seen (fun s => (rspOf s, s.store.fault, nvBytes 4 s, s.store.numEntries))
      (exec (.add tagA 1) (answered [ackSample, ackSample, errSample] (served 0 []))) =
      some ((true, codeNvFault, 0, false), 0xA, [0xFF, 0x01, 0x23, 0xFF], 1) := by decide

/-- The next step runs the word that stands for it: an illegal word is answered ILLEGAL_CMD. -/
theorem test_step_illegal :
    seen rspOf (step (State.reset.withFetchWord 64 0x0)) =
      some (true, codeIllegalCmd, 0, false) := by decide

/-- The next step runs the byte that stands for it. -/
theorem test_step_rx :
    seen (fun s => s.dec.pos) (step (State.reset.withFetchWord 8 0x02)) = some 1 := by decide

/-! ## States and operands that meet the hypotheses of the statements

Each theorem names its statement and, where the statement has several clauses, the clause and the end
of its range. -/

theorem serving_served (now : Millis) (es : List Entry) : Serving (served now es) :=
  ⟨⟨rfl, rfl⟩, rfl⟩

theorem sound_served_empty : Sound (served 5000 []) := ⟨⟨by decide, by decide⟩, by decide⟩

theorem sound_full : Sound (full 5000) := ⟨⟨by decide, by decide⟩, by decide⟩

theorem sound_media (n : Byte) : Sound (media n) :=
  ⟨⟨rfl, by simp [media, State.resetOf, Store.atReset]⟩, rfl⟩

theorem ready_media (n : Byte) : Ready (media n) := ⟨rfl, rfl⟩

/-- An idle store's invariant, its parts each checked on the data. -/
theorem inv_of_idle {s : State} (h : s.cfg.wellFormed = true)
    (ht : s.store.table.length = s.cfg.capacity) (hn : Memory.wf s.cfg s.nv = true)
    (hp : s.store.port.addr = 0) (hc : s.store.numEntries.toNat ≤ s.cfg.capacity)
    (hf : s.store.fault ∈ faultCodes) (hv : s.store.rsp.valid = false) (hb : s.store.busy = false)
    (hi : s.store.inFlight = none) (hr : s.store.port.req = false) (hB : BaselinesOk s.store) :
    Inv s where
  build := h
  tableLength := ht
  nvCanonical := hn
  portWidth := by rw [hp]; exact Nat.two_pow_pos _
  running := fun _ =>
    { count := hc
      faultCode := hf
      rspCode := fun h' => by rw [hv] at h'; exact absurd h' (by decide)
      busyIff := by rw [hb, hi]; rfl
      reqIff := by rw [hr, hi]; rfl
      faultIdle := fun _ => hb
      baselines := fun _ => hB
      inFlight := fun f hf' => by rw [hi] at hf'; exact absurd hf' (by simp) }

/-- A store in the fault state. -/
def faulted : State :=
  { full 5000 with store := { (full 5000).store with fault := codeIllegalCmd } }

theorem inv_media : Inv (media 1) :=
  inv_of_idle (by decide) (by decide) (by decide) rfl (by decide) (by decide) rfl rfl rfl rfl
    (fun _ h => absurd h (by decide +revert))

theorem baselines_full : BaselinesOk (full 5000).store := by
  show ∀ k, k < 3 → _
  decide

theorem inv_full : Inv (full 5000) :=
  inv_of_idle (by decide) (by decide) (by decide) rfl (by decide) (by decide) rfl rfl rfl rfl
    baselines_full

theorem inv_faulted : Inv faulted :=
  inv_of_idle (by decide) (by decide) (by decide) rfl (by decide) (by decide) rfl rfl rfl rfl
    baselines_full

/-- A store in the middle of CLEAR, its write outstanding. -/
def clearing : State :=
  { full 5000 with store := { (full 5000).store with
      busy := true
      numEntries := 0
      port := ⟨true, true, 0, 0⟩
      inFlight := some ⟨.clear, [.write 0 0]⟩ } }

theorem inv_clearing : Inv clearing where
  build := by decide
  tableLength := by decide
  nvCanonical := by decide
  portWidth := by decide
  running := fun _ =>
    { count := by decide
      faultCode := by decide
      rspCode := fun h => absurd h (by decide)
      busyIff := rfl
      reqIff := rfl
      faultIdle := fun h => absurd rfl h
      baselines := fun _ k hk => absurd hk (Nat.not_lt_zero k)
      inFlight := fun f hf => by
        obtain rfl : (⟨.clear, [.write 0 0]⟩ : InFlight) = f := Option.some.inj hf
        exact ⟨List.suffix_refl _, ⟨rfl, rfl⟩, .write 0 0, [], rfl, rfl, rfl, rfl, rfl⟩ }

/-- `s` with this command in progress and this on the NV port. -/
def parked (f : InFlight) (p : NvPort) (s : State) : State :=
  { s with store := { s.store with busy := true, port := p, inFlight := some f } }

/-- The invariant of a store with a command in progress, its parts each checked on the data. -/
theorem inv_of_parked {f : InFlight} {p : NvPort} {s : State} (h : Inv s) (hs : s.resetSeen = true)
    (hp : p.addr < 2 ^ s.cfg.nvAddrW) (hq : p.req = true) (hf : s.store.fault = 0)
    (hi : InFlightOk s.cfg { s.store with busy := true, port := p, inFlight := some f } f) :
    Inv (parked f p s) where
  build := h.build
  tableLength := h.tableLength
  nvCanonical := h.nvCanonical
  portWidth := hp
  running := fun _ =>
    { count := (h.running hs).count
      faultCode := (h.running hs).faultCode
      rspCode := (h.running hs).rspCode
      busyIff := rfl
      reqIff := hq
      faultIdle := fun hne => absurd hf hne
      baselines := (h.running hs).baselines
      inFlight := fun g hg => by
        obtain rfl : f = g := Option.some.inj hg
        exact hi }

/-- PersistEntry(2) of `full 5000` from its write `d` on. -/
def addTodo (d : Nat) : List Access :=
  (persistWrites 2 ⟨tagC, 1, 3000, 0⟩ 3).drop d

/-- An ADD in progress that put entry C into slot 2 of a full table, its write `d` outstanding. -/
def adding (d : Nat) (p : NvPort) : State := parked ⟨.add 2 true, addTodo d⟩ p (full 5000)

/-- No write has been acknowledged: the first identifier byte is on the port. -/
def addingFirst : State := adding 0 ⟨true, true, 13, 0x11⟩
/-- Only the count is left. -/
def addingLast : State := adding 6 ⟨true, true, 0, 3⟩

theorem inv_addingFirst : Inv addingFirst :=
  inv_of_parked inv_full rfl (by decide) rfl rfl
    ⟨List.suffix_refl _, ⟨rfl, by decide⟩, _, _, rfl, rfl, rfl, rfl, rfl⟩

theorem inv_addingLast : Inv addingLast :=
  inv_of_parked inv_full rfl (by decide) rfl rfl
    ⟨List.drop_suffix _ _, ⟨rfl, by decide⟩, _, _, rfl, rfl, rfl, rfl, rfl⟩

/-- INIT R=1 in progress. -/
def emptying : State := parked ⟨.initEmpty 7, [.write 0 0]⟩ ⟨true, true, 0, 0⟩ (media 1)

/-- INIT R=0 in progress on media with count `n`, its read of the count outstanding. -/
def counting (n : Byte) : State := parked ⟨.initCount 7, [.readCount]⟩ ⟨true, false, 0, 0⟩ (media n)

/-- The reads of one entry after its first two. -/
def loadTodo : List Access := (loadReads 0 1).drop 2

/-- INIT R=0 in progress, two bytes of its one entry read. -/
def loading : State :=
  parked ⟨.initEntries 7 1, loadTodo⟩ ⟨true, false, 3, 0⟩
    { media 1 with store := { (media 1).store with
        table := (media 1).store.table.set 0 ⟨⟨0x01, 0x23, 0, 0, 0⟩, 0, 0, 0⟩ } }

theorem inv_media_of (n : Byte) : Inv (media n) :=
  inv_of_idle rfl (by simp [media, State.resetOf, Store.atReset]) rfl rfl (Nat.zero_le _)
    (by simp [media, State.resetOf, Store.atReset, faultCodes]) rfl rfl rfl rfl
    (fun _ h => absurd h (Nat.not_lt_zero _))

theorem inv_emptying : Inv emptying :=
  inv_of_parked inv_media rfl (by decide) rfl rfl
    ⟨List.suffix_refl _, trivial, _, _, rfl, rfl, rfl, rfl, rfl⟩

theorem inv_counting (n : Byte) : Inv (counting n) :=
  inv_of_parked (inv_media_of n) rfl (Nat.two_pow_pos _) rfl rfl
    ⟨List.suffix_refl _, trivial, _, _, rfl, rfl, rfl, rfl⟩

theorem inv_loading : Inv loading :=
  inv_of_parked
    (inv_of_idle (by decide) (by decide) (by decide) rfl (by decide) (by decide) rfl rfl rfl rfl
      (fun _ h => absurd h (Nat.not_lt_zero _)))
    rfl (by decide) rfl rfl
    ⟨List.drop_suffix _ _, ⟨by decide, by
        show ∀ k, k < 1 → _
        decide⟩, _, _, rfl, rfl, rfl, rfl⟩

/-- The two bytes read so far are those of the NV byte space. -/
theorem mirrorInv_loading : MirrorInv loading := by
  refine fun _ _ => ⟨by decide, ?_⟩
  show ∀ k i, k < 1 → i < 6 → _
  intro k i hk hi
  interval_cases k
  interval_cases i <;> decide

/-- The invariant does not look at the NV responder's samples. -/
theorem inv_answered {s : State} (l : List NvSample) (h : Inv s) : Inv (answered l s) :=
  ⟨h.build, h.tableLength, h.nvCanonical, h.portWidth, h.running⟩

/-! ### Encodings -/

theorem witness_EncodedOperationDecodesBack :
    Instr.wellFormed (.add tagB 0xFF) = true := by decide

theorem witness_DecodedWordEncodesBack :
    decode (.cmdWord 0x05ABCDEF01230004) = .ok (.add tagB 5) := by decide

theorem witness_IllegalWords_opcode :
    decodeCmd 0x0001234567890003 = .ok (.check tagA) := by decide

theorem witness_IllegalWords_zero : (0 : CmdWord).extractLsb' 0 4 = 0x0 := by decide

theorem witness_IllegalWords_six : 0x6 ≤ ((0x6 : CmdWord).extractLsb' 0 4).toNat := by decide

theorem witness_IllegalWords_fifteen : 0x6 ≤ ((0xF : CmdWord).extractLsb' 0 4).toNat := by decide

theorem witness_IllegalWords_step :
    State.reset.cfg.wellFormed = true ∧ State.reset.resetSeen = true ∧
      Ready (offered (.cycle none (some 0x8000000000000005)) State.reset) ∧
      decodeCmd 0x8000000000000005 = .error (.reservedBits 0x5) :=
  ⟨by decide, rfl, ⟨rfl, rfl⟩, by decide⟩

/-! ### The decoder -/

theorem witness_RxAtDigit_first :
    1 ≤ (decAt 1 (Vector.replicate 6 0)).dec.pos.toNat ∧
      (decAt 1 (Vector.replicate 6 0)).dec.pos.toNat ≤ 12 ∧
      hexval 0x30 = some 0 ∧ hexval 0x2F = none := by decide

theorem witness_RxAtDigit_last :
    1 ≤ (decAt 12 (Vector.replicate 6 0)).dec.pos.toNat ∧
      (decAt 12 (Vector.replicate 6 0)).dec.pos.toNat ≤ 12 ∧
      hexval 0x46 = some 15 ∧ hexval 0x47 = none := by decide

theorem witness_RxAtReturnAndFeed :
    (decAt 13 (Vector.replicate 6 0)).dec.pos = 13 ∧
      (decAt 14 (Vector.replicate 6 0)).dec.pos = 14 ∧ (0x0D : Byte) ≠ 0x0A := by decide

theorem witness_RxAtEnd_match :
    (decAt 15 #v[1, 2, 4, 8, 16, 31]).dec.pos = 15 ∧
      xorData #v[1, 2, 4, 8, 16, 31] = bufByte #v[1, 2, 4, 8, 16, 31] 5 := by decide

theorem witness_RxAtEnd_mismatch :
    xorData #v[1, 2, 4, 8, 16, 30] ≠ bufByte #v[1, 2, 4, 8, 16, 30] 5 ∧ (0x04 : Byte) ≠ 0x03 := by
  decide

theorem witness_BytesBeforeStartMarker :
    Decoder.atReset.pos = 0 ∧ ∀ b ∈ [(0x01 : Byte), 0x03], b ≠ 0x02 := by decide

theorem witness_IdleCycles :
    State.reset.resetSeen = true ∧ (offered (.cycle none none) State.reset).inputs = [.cycle none none] ∧
      ∃ t, step (offered (.cycle none none) State.reset) = .next t :=
  ⟨rfl, rfl, _, rfl⟩

theorem witness_HexAlphabet_first :
    1 ≤ (decAt 1 (Vector.replicate 6 0)).dec.pos.toNat ∧
      (decAt 1 (Vector.replicate 6 0)).dec.pos.toNat ≤ 12 := by decide

theorem witness_HexAlphabet_last :
    1 ≤ (decAt 12 (Vector.replicate 6 0)).dec.pos.toNat ∧
      (decAt 12 (Vector.replicate 6 0)).dec.pos.toNat ≤ 12 := by decide

theorem witness_ValidFrame : Decoder.atReset.pos = 0 := by decide

theorem witness_WrongChecksum : Decoder.atReset.pos = 0 ∧ (0x00 : Byte) ≠ tagXor tagA := by decide

theorem witness_SingleBit_first : Decoder.atReset.pos = 0 ∧ 1 ≤ 1 ∧ 1 ≤ 12 ∧ 0 < 8 := by decide

theorem witness_SingleBit_last : Decoder.atReset.pos = 0 ∧ 1 ≤ 12 ∧ 12 ≤ 12 ∧ 7 < 8 := by decide

theorem witness_FramesAreIndependent_result :
    shownResult (rxByte 0x41 Decoder.atReset) ≠ none := by decide

theorem witness_FramesAreIndependent_start :
    (decAt 0 #v[1, 2, 3, 4, 5, 6]).dec.pos = 0 ∧ Decoder.atReset.pos = 0 ∧
      (decAt 0 #v[1, 2, 3, 4, 5, 6]).dec.buf ≠ Decoder.atReset.buf := by decide

/-! ### Acceptance and faults -/

theorem witness_FaultState :
    faulted.store.busy = false ∧ faulted.store.fault ≠ 0 ∧ isCommand (.check tagA) = true := by
  decide

theorem witness_CommandBeforeInit :
    Ready State.reset ∧ State.reset.store.initialized = false := ⟨⟨rfl, rfl⟩, rfl⟩

theorem witness_FaultAndInitialized_faulted :
    Inv faulted ∧ faulted.store.fault ≠ 0 ∧ faulted.inputs = [] ∧
      ∃ t, step faulted = .next t ∧ t.resetSeen = true :=
  ⟨inv_faulted, by decide, rfl, _, rfl, rfl⟩

theorem witness_FaultAndInitialized_raised :
    Inv (media 1) ∧ (media 1).store.fault = 0 ∧
      ∃ t, step (offered (.cycle none (some 0)) (media 1)) = .next t ∧ t.resetSeen = true ∧
        t.store.fault ≠ 0 :=
  ⟨inv_media, rfl, _, rfl, rfl, by decide⟩

theorem witness_FaultAndInitialized_init :
    (media 1).store.initialized = false ∧
      ∃ t, step (offered (.cycle none (some 0x11)) (media 1)) = .next t ∧ t.resetSeen = true ∧
        t.store.initialized = true :=
  ⟨rfl, _, rfl, rfl, rfl⟩

theorem witness_BusyStore :
    clearing.store.busy = true ∧
      (offered (.cycle none (some 5)) clearing).inputs = [.cycle none (some 5)] := ⟨rfl, rfl⟩

/-! ### INIT -/

theorem witness_InitWithReset :
    Ready State.reset ∧ Sound State.reset ∧ acksNext 1 State.reset = true :=
  ⟨⟨rfl, rfl⟩, ⟨⟨by decide, by decide⟩, by decide⟩, by decide⟩

theorem witness_InitLoads_none :
    Ready (media 0) ∧ Sound (media 0) ∧ (readNv (media 0) countAddr).toNat ≤ (media 0).cfg.capacity ∧
      acksNext (1 + 6 * (readNv (media 0) countAddr).toNat) (media 0) = true :=
  ⟨ready_media 0, sound_media 0, by decide, by decide⟩

theorem witness_InitLoads_full :
    Ready (media 3) ∧ Sound (media 3) ∧ (readNv (media 3) countAddr).toNat ≤ (media 3).cfg.capacity ∧
      acksNext (1 + 6 * (readNv (media 3) countAddr).toNat) (media 3) = true :=
  ⟨ready_media 3, sound_media 3, by decide, by decide⟩

theorem witness_InitRefuses :
    Ready (media 4) ∧ Sound (media 4) ∧ (media 4).cfg.capacity < (readNv (media 4) countAddr).toNat ∧
      acksNext 1 (media 4) = true :=
  ⟨ready_media 4, sound_media 4, by decide, by decide⟩

theorem witness_LoadedTags :
    Ready (media 1) ∧ Sound (media 1) ∧ (readNv (media 1) countAddr).toNat ≤ (media 1).cfg.capacity ∧
      acksNext (1 + 6 * (readNv (media 1) countAddr).toNat) (media 1) = true ∧
      (∃ t, exec (.init false 7) (media 1) = .next t) ∧
      ∃ k, k < (readNv (media 1) countAddr).toNat ∧ (loadedEntry (media 1) k).id = tagA :=
  ⟨ready_media 1, sound_media 1, by decide, by decide, ⟨_, rfl⟩, 0, by decide, by decide⟩

/-- The slot ADD or a load has left, its sentinel not yet spent. -/
theorem witness_LoadedTags_sentinel :
    let s := served 5000 [entryA 255 0xFFFFFFFF]
    Serving s ∧ s.cfg.wellFormed = true ∧ lookup s.store tagA = some 0 ∧
      (slot s.store 0).carry = 0xFFFFFFFF := ⟨serving_served _ _, by decide, by decide, by decide⟩

/-! ### ADVANCE -/

theorem witness_Advance_equal :
    Serving (full 5000) ∧ (full 5000).store.nowReg.toNat ≤ (5000 : Millis).toNat :=
  ⟨serving_served _ _, by decide⟩

theorem witness_Advance_wrap :
    Serving (full 5000) ∧ (4999 : Millis).toNat < (full 5000).store.nowReg.toNat ∧
      2 < (full 5000).store.numEntries.toNat ∧ 2 < (full 5000).store.table.length :=
  ⟨serving_served _ _, by decide, by decide, by decide⟩

/-- The fold's two clauses meet at a banked total of 0xFFFFFFFF. -/
theorem witness_Fold_kept :
    let s := served 5000 [entryA 1 (0xFFFFFFFF - 5000)]
    Serving s ∧ s.cfg.wellFormed = true ∧ 0 < s.store.numEntries.toNat ∧
      0 < s.store.table.length ∧ (0 : Millis).toNat < s.store.nowReg.toNat ∧
      (∃ t, exec (.advance 0) s = .next t) ∧
      (slot s.store 0).carry.toNat + (s.store.nowReg - (slot s.store 0).lastGrant).toNat
        = 0xFFFFFFFF :=
  ⟨serving_served _ _, by decide, by decide, by decide, by decide, ⟨_, rfl⟩, by decide⟩

theorem witness_Fold_saturated :
    let s := served 5000 [entryA 1 (0xFFFFFFFF - 4999)]
    Serving s ∧ s.cfg.wellFormed = true ∧ 0 < s.store.numEntries.toNat ∧
      0 < s.store.table.length ∧ (0 : Millis).toNat < s.store.nowReg.toNat ∧
      (∃ t, exec (.advance 0) s = .next t) ∧
      0xFFFFFFFF <
        (slot s.store 0).carry.toNat + (s.store.nowReg - (slot s.store 0).lastGrant).toNat :=
  ⟨serving_served _ _, by decide, by decide, by decide, by decide, ⟨_, rfl⟩, by decide⟩

/-! ### CHECK -/

theorem witness_ElapsedAndRequired : Config.default.wellFormed = true := by decide

theorem witness_Lookup :
    (full 5000).store.numEntries.toNat ≤ (full 5000).store.table.length := by decide

theorem witness_CheckDecides_unknown :
    Serving (full 5000) ∧ lookup (full 5000).store tagD = none := ⟨serving_served _ _, by decide⟩

theorem witness_CheckDecides_allowed :
    Serving (full 1000) ∧ lookup (full 1000).store tagA = some 0 ∧
      required (full 1000).cfg (full 1000).store 0 ≤ elapsed (full 1000).store 0 :=
  ⟨serving_served _ _, by decide, by decide⟩

theorem witness_CheckDecides_denied :
    Serving (full 999) ∧ lookup (full 999).store tagA = some 0 ∧
      ¬ required (full 999).cfg (full 999).store 0 ≤ elapsed (full 999).store 0 :=
  ⟨serving_served _ _, by decide, by decide⟩

theorem witness_GrantIsFollowedByDenial :
    Serving (full 1000) ∧ (full 1000).cfg.wellFormed = true ∧
      lookup (full 1000).store tagA = some 0 ∧ (slot (full 1000).store 0).interval ≠ 0 ∧
      ∃ t, exec (.check tagA) (full 1000) = .next t ∧ t.store.rsp.code = codeAllowed :=
  ⟨serving_served _ _, by decide, by decide, by decide, _, rfl, rfl⟩

/-! ### ADD -/

theorem witness_Victim_evicts :
    (full 5000).store.numEntries.toNat ≤ (full 5000).cfg.capacity ∧
      (placeTag (full 5000).cfg (full 5000).store tagD).evicted = true := by decide

theorem witness_AddAppends_last :
    let s := served 5000 [entryA 1 0, ⟨tagB, 1, 0, 0⟩]
    Serving s ∧ Sound s ∧ acksNext 7 s = true ∧ lookup s.store tagD = none ∧
      s.store.numEntries.toNat + 1 = s.cfg.capacity :=
  ⟨serving_served _ _, ⟨⟨by decide, by decide⟩, by decide⟩, by decide, by decide, by decide⟩

theorem witness_AddReregisters :
    Serving (full 5000) ∧ Sound (full 5000) ∧ acksNext 7 (full 5000) = true ∧
      (full 5000).store.numEntries.toNat ≤ (full 5000).cfg.capacity ∧
      lookup (full 5000).store tagC = some 2 :=
  ⟨serving_served _ _, sound_full, by decide, by decide, by decide⟩

theorem witness_AddEvicts :
    Serving (full 5000) ∧ Sound (full 5000) ∧ acksNext 7 (full 5000) = true ∧
      lookup (full 5000).store tagD = none ∧
      (full 5000).store.numEntries.toNat = (full 5000).cfg.capacity :=
  ⟨serving_served _ _, sound_full, by decide, by decide, by decide⟩

theorem witness_AddedTag :
    Serving (full 5000) ∧ Sound (full 5000) ∧ acksNext 7 (full 5000) = true ∧
      (full 5000).store.numEntries.toNat ≤ (full 5000).cfg.capacity ∧
      ∃ t, exec (.add tagD 1) (full 5000) = .next t :=
  ⟨serving_served _ _, sound_full, by decide, by decide, _, rfl⟩

/-- The first tag of an empty table: seven writes, then a count and one entry of reads. -/
theorem witness_AddedTagSurvivesRestart :
    let s := answered (List.replicate 14 ackSample ++ [errSample]) (served 5000 [])
    Serving s ∧ Sound s ∧ s.store.numEntries.toNat ≤ s.cfg.capacity ∧
      7 + (1 + 6 * (placeTag s.cfg s.store tagD).count.toNat) = 14 ∧ acksNext 14 s = true ∧
      ∃ t, exec (.add tagD 1) s = .next t :=
  ⟨serving_served _ _, sound_served_empty, by decide, by decide, by decide, _, rfl⟩

theorem witness_NvFailureEndsAdd_first :
    AnswersThen 0 errSample [] (answered [errSample] (full 5000)) ∧ errSample.err = true :=
  ⟨⟨by decide, rfl, rfl⟩, rfl⟩

theorem witness_NvFailureEndsAdd_last :
    let s := answered (List.replicate 6 ackSample ++ [errSample]) (full 5000)
    Serving s ∧ Sound s ∧ s.store.numEntries.toNat ≤ s.cfg.capacity ∧ 6 < 7 ∧
      AnswersThen 6 errSample [] s ∧ errSample.err = true :=
  ⟨serving_served _ _, sound_full, by decide, by decide,
    ⟨by decide, rfl, rfl⟩, rfl⟩

theorem witness_InterruptedAdd_first :
    let s := answered [noSample] (served 5000 [])
    Serving s ∧ s.resetSeen = true ∧ Sound s ∧ s.store.port.req = false ∧
      s.store.numEntries.toNat ≤ s.cfg.capacity ∧ 0 < 7 ∧ AnswersThen 0 noSample [] s ∧
      noSample.ack = false ∧ noSample.err = false :=
  ⟨serving_served _ _, rfl, sound_served_empty, rfl, by decide, by decide,
    ⟨by decide, rfl, rfl⟩, rfl, rfl⟩

theorem witness_InterruptedAdd_sixth :
    AnswersThen 5 noSample []
      (answered (List.replicate 5 ackSample ++ [noSample]) (served 5000 [])) :=
  ⟨by decide, rfl, rfl⟩

theorem witness_InterruptedAdd_last :
    AnswersThen 6 noSample []
      (answered (List.replicate 6 ackSample ++ [noSample]) (served 5000 [])) :=
  ⟨by decide, rfl, rfl⟩

theorem witness_UnansweredAccess :
    let s := answered [noSample] clearing
    Inv s ∧ s.resetSeen = true ∧ s.store.busy = true ∧ AnswersThen 0 noSample [] s ∧
      noSample.ack = false ∧ noSample.err = false :=
  ⟨inv_answered _ inv_clearing, rfl, rfl, ⟨by decide, rfl, rfl⟩, rfl, rfl⟩

/-- A store whose NV responder, after `l`, never completes an access. -/
def silent (l : List NvSample) (s : State) : State := { s with nvSamples := l, nvRest := noSample }

/-- A responder that never completes an access, through cycles with and without a byte and a word. -/
theorem witness_UnansweredAccess_forEver :
    let s := { silent [] clearing with inputs := [.cycle (some 2) (some 0x11), .cycle none none] }
    Inv s ∧ s.resetSeen = true ∧ s.store.busy = true ∧ NeverAnswers s ∧
      (∀ i ∈ s.inputs, ∃ rx cmd, i = .cycle rx cmd) ∧ AnswersThen 0 noSample [] s :=
  ⟨⟨inv_clearing.build, inv_clearing.tableLength, inv_clearing.nvCanonical, inv_clearing.portWidth,
    inv_clearing.running⟩, rfl, rfl, fun _ => ⟨rfl, rfl⟩, by simp, by decide, rfl, rfl⟩

theorem witness_UnansweredAccess_add :
    let s := answered (List.replicate 6 ackSample ++ [noSample]) addingFirst
    Inv s ∧ s.resetSeen = true ∧ s.store.inFlight = some ⟨.add 2 true, addTodo 0⟩ ∧
      6 < (addTodo 0).length ∧ AnswersThen 6 noSample [] s :=
  ⟨inv_answered _ inv_addingFirst, rfl, rfl, by decide,
    by decide, rfl, rfl⟩

theorem witness_UnansweredAccess_load :
    let s := answered [ackSample, noSample] loading
    Inv s ∧ s.resetSeen = true ∧ s.store.inFlight = some ⟨.initEntries 7 1, loadTodo⟩ ∧
      1 < loadTodo.length ∧ AnswersThen 1 noSample [] s :=
  ⟨inv_answered _ inv_loading, rfl, rfl, by decide, by decide, rfl, rfl⟩

theorem witness_UnansweredAccess_one :
    AnswersThen 0 noSample [] (answered [noSample] clearing) ∧
      AnswersThen 0 noSample [] (answered [noSample] emptying) ∧
      AnswersThen 0 noSample [] (answered [noSample] (counting 1)) ∧
      Inv emptying ∧ Inv (counting 1) ∧ Inv clearing :=
  ⟨⟨by decide, rfl, rfl⟩, ⟨by decide, rfl, rfl⟩, ⟨by decide, rfl, rfl⟩, inv_emptying,
    inv_counting 1, inv_clearing⟩

/-- The count is acknowledged and the last read of the one entry is not answered. -/
theorem witness_UnansweredAccess_count :
    let s := answered (List.replicate 6 ackSample ++ [noSample]) (counting 1)
    Inv s ∧ s.resetSeen = true ∧ s.store.inFlight = some ⟨.initCount 7, [.readCount]⟩ ∧
      (readNv s countAddr).toNat ≤ s.cfg.capacity ∧ 5 < 6 * (readNv s countAddr).toNat ∧
      AnswersThen (1 + 5) noSample [] s :=
  ⟨inv_answered _ (inv_counting 1), rfl, rfl, by decide, by decide,
    by decide, rfl, rfl⟩

/-! ### CLEAR and failures -/

theorem witness_Clear :
    Serving (full 5000) ∧ Sound (full 5000) ∧ acksNext 1 (full 5000) = true ∧
      ∃ t, exec .clear (full 5000) = .next t :=
  ⟨serving_served _ _, sound_full, by decide, _, rfl⟩

theorem witness_NvFailureEndsInitAndClear :
    let s := answered [errSample] (full 5000)
    Ready s ∧ Sound s ∧ AnswersThen 0 errSample [] s ∧ errSample.err = true ∧
      s.store.initialized = true :=
  ⟨⟨rfl, rfl⟩, sound_full, ⟨by decide, rfl, rfl⟩, rfl, rfl⟩

theorem witness_NvFailureEndsInit_first_entry :
    let s := answered [ackSample, errSample] (media 1)
    Ready s ∧ Sound s ∧ (readNv s countAddr).toNat ≤ s.cfg.capacity ∧
      0 < 6 * (readNv s countAddr).toNat ∧ AnswersThen (1 + 0) errSample [] s :=
  ⟨ready_media 1, sound_media 1, by decide, by decide, by decide, rfl, rfl⟩

theorem witness_NvFailureEndsInit_last_entry :
    let s := answered (List.replicate 18 ackSample ++ [errSample]) (media 3)
    Ready s ∧ Sound s ∧ (readNv s countAddr).toNat = s.cfg.capacity ∧
      17 + 1 = 6 * (readNv s countAddr).toNat ∧ AnswersThen (1 + 17) errSample [] s :=
  ⟨ready_media 3, sound_media 3, by decide, by decide,
    by decide, rfl, rfl⟩

/-! ### Commands in progress -/

theorem witness_ResumedAdd_whole :
    Inv addingFirst ∧ addingFirst.resetSeen = true ∧ acksNext (addTodo 0).length addingFirst = true ∧
      addingFirst.store.inFlight = some ⟨.add 2 true, addTodo 0⟩ :=
  ⟨inv_addingFirst, rfl, by decide, rfl⟩

theorem witness_ResumedAdd_last :
    Inv addingLast ∧ addingLast.resetSeen = true ∧ acksNext (addTodo 6).length addingLast = true ∧
      addingLast.store.inFlight = some ⟨.add 2 true, addTodo 6⟩ :=
  ⟨inv_addingLast, rfl, by decide, rfl⟩

theorem witness_ResumedClear :
    Inv clearing ∧ clearing.resetSeen = true ∧ acksNext 1 clearing = true ∧
      clearing.store.inFlight = some ⟨.clear, [.write 0 0]⟩ := ⟨inv_clearing, rfl, by decide, rfl⟩

theorem witness_ResumedInit_empty :
    Inv emptying ∧ emptying.resetSeen = true ∧ acksNext 1 emptying = true ∧
      emptying.store.inFlight = some ⟨.initEmpty 7, [.write 0 0]⟩ :=
  ⟨inv_emptying, rfl, by decide, rfl⟩

theorem witness_ResumedInit_refused :
    Inv (counting 4) ∧ (counting 4).cfg.capacity < (readNv (counting 4) countAddr).toNat ∧
      acksNext 1 (counting 4) = true := ⟨inv_counting 4, by decide, by decide⟩

theorem witness_ResumedInit_count :
    Inv (counting 3) ∧ (readNv (counting 3) countAddr).toNat = (counting 3).cfg.capacity ∧
      acksNext (1 + 6 * (readNv (counting 3) countAddr).toNat) (counting 3) = true :=
  ⟨inv_counting 3, by decide, by decide⟩

theorem witness_ResumedInit_entries :
    Inv loading ∧ MirrorInv loading ∧ loading.resetSeen = true ∧
      acksNext loadTodo.length loading = true ∧
      loading.store.inFlight = some ⟨.initEntries 7 1, loadTodo⟩ :=
  ⟨inv_loading, mirrorInv_loading, rfl, by decide, rfl⟩

theorem witness_NvFailureResumed_add :
    let s := answered (List.replicate 6 ackSample ++ [errSample]) addingFirst
    Inv s ∧ s.store.inFlight = some ⟨.add 2 true, addTodo 0⟩ ∧ 6 < (addTodo 0).length ∧
      AnswersThen 6 errSample [] s ∧ errSample.err = true :=
  ⟨inv_answered _ inv_addingFirst, rfl, by decide,
    ⟨by decide, rfl, rfl⟩, rfl⟩

theorem witness_NvFailureResumed_load :
    let s := answered [ackSample, errSample] loading
    Inv s ∧ s.store.inFlight = some ⟨.initEntries 7 1, loadTodo⟩ ∧ 1 < loadTodo.length ∧
      AnswersThen 1 errSample [] s :=
  ⟨inv_answered _ inv_loading, rfl, by decide, by decide, rfl, rfl⟩

theorem witness_NvFailureResumed_one :
    AnswersThen 0 errSample [] (answered [errSample] clearing) ∧
      AnswersThen 0 errSample [] (answered [errSample] emptying) ∧
      AnswersThen 0 errSample [] (answered [errSample] (counting 1)) :=
  ⟨⟨by decide, rfl, rfl⟩, ⟨by decide, rfl, rfl⟩, ⟨by decide, rfl, rfl⟩⟩

theorem witness_NvFailureResumed_count :
    let s := answered [ackSample, errSample] (counting 1)
    Inv s ∧ (readNv s countAddr).toNat ≤ s.cfg.capacity ∧ 0 < 6 * (readNv s countAddr).toNat ∧
      AnswersThen (1 + 0) errSample [] s :=
  ⟨inv_answered _ (inv_counting 1), by decide, by decide, by decide, rfl, rfl⟩

theorem witness_UnansweredInitAndClear :
    let s := answered [noSample] (full 5000)
    Ready s ∧ Sound s ∧ s.store.port.req = false ∧ AnswersThen 0 noSample [] s ∧
      s.store.initialized = true := ⟨⟨rfl, rfl⟩, sound_full, rfl, ⟨by decide, rfl, rfl⟩, rfl⟩

theorem witness_UnansweredInit_entries :
    let s := answered (List.replicate 18 ackSample ++ [noSample]) (media 3)
    Ready s ∧ Sound s ∧ (readNv s countAddr).toNat ≤ s.cfg.capacity ∧
      17 < 6 * (readNv s countAddr).toNat ∧ AnswersThen (1 + 17) noSample [] s :=
  ⟨ready_media 3, sound_media 3, by decide, by decide,
    by decide, rfl, rfl⟩

/-- 20_memory.md R58: the step in which the outstanding write of CLEAR is acknowledged. -/
theorem test_resumed_clear :
    seen (fun s => (rspOf s, nvBytes 2 s, cmdReady s)) (step clearing) =
      some ((true, codeOK, 0, false), [0x00, 0xFF], true) := by decide

/-- 41_store_commands.md R150: the step in which the last four bytes of the entry are read. -/
theorem test_resumed_load :
    seen (fun s => (rspOf s, slot s.store 0, s.store.nowReg)) (step loading) =
      some ((true, codeOK, 1, false), ⟨tagA, 2, 0xFFFFFFFF, 0⟩, 7) := by decide

/-! ### The machine -/

theorem witness_IllFormed_small :
    ¬ (7 ≤ ({ Config.default with totalBytes := 6 } : Config).totalBytes) := by decide

theorem witness_IllFormed_large :
    ¬ (({ Config.default with totalBytes := 1532 } : Config).totalBytes ≤ 1531) := by decide

theorem witness_IllFormed_unit :
    ¬ (({ Config.default with timeUnitS := 60 } : Config).timeUnitS = 1 ∨
      ({ Config.default with timeUnitS := 60 } : Config).timeUnitS = 3600) := by decide

theorem witness_IllFormed_alphabet :
    ¬ (({ Config.default with hexAlphabet := .az } : Config).hexAlphabet = .af) := by decide

theorem witness_CapacityIsFixed : ∃ t, step State.reset = .next t := ⟨_, rfl⟩

theorem witness_ResetEdge :
    let s := offered (.reset none none true) clearing
    s.cfg.wellFormed = true ∧ Memory.wf s.cfg s.nv = true ∧
      s.inputs = [.reset none none true] ∧ writeOutstanding s = true :=
  ⟨by decide, by decide, rfl, by decide⟩

theorem witness_PowerLoss :
    let s := { clearing with inputs := [.powerLoss false, .cycle none none] }
    s.cfg.wellFormed = true ∧ Memory.wf s.cfg s.nv = true ∧
      s.inputs = .powerLoss false :: [.cycle none none] ∧ writeOutstanding s = true :=
  ⟨by decide, by decide, rfl, by decide⟩

/-- Power has come back and no reset edge yet: a cycle, or that edge. -/
theorem witness_PowerLoss_unpowered :
    let s := losePower true clearing
    s.cfg.wellFormed = true ∧ s.resetSeen = false ∧
      (offered (.cycle (some 2) (some 5)) s).inputs = .cycle (some 2) (some 5) :: [] ∧
      (offered (.reset none none false) s).inputs = .reset none none false :: [] :=
  ⟨by decide, rfl, rfl, rfl⟩

/-- 70_reset_and_hazards.md R231: power loss, a cycle, then the reset edge; the NV byte space is as the
loss of power left it. -/
theorem test_power_cycle_reset :
    seen (fun s => (s.resetSeen, s.dec.pos, s.store.fault, s.store.busy, nvBytes 2 s))
      (andThen (applyInput (.cycle none (some 5)) (losePower true clearing))
        (applyInput (.reset none none false))) =
      some (true, 0, 0, false, nvBytes 2 (losePower true clearing)) := by decide

theorem witness_StepRuns :
    State.reset.cfg.wellFormed = true ∧ State.reset.resetSeen = true ∧
      decode (.rxByte 0xFF) = .ok (.rx 0xFF) ∧ decode (.cmdWord 5) = .ok .clear ∧
      (offered (.cycle (some 0xFF) (some 5)) State.reset).inputs =
        [.cycle (some 0xFF) (some 5)] := by decide

/-- A word that decodes to nothing, alone and beside a byte. -/
theorem witness_StepRuns_illegal :
    decode (.cmdWord 0) = .error (.illegalOpcode 0) ∧
      (offered (.cycle none (some 0)) (full 5000)).inputs = [.cycle none (some 0)] ∧
      (offered (.cycle (some 2) (some 0)) (full 5000)).inputs = [.cycle (some 2) (some 0)] :=
  ⟨by decide, rfl, rfl⟩

theorem witness_Agents :
    (offered (.cycle (some 2) none) State.reset).inputs = [.cycle (some 2) none] ∧
      (offered (.cycle (some 2) (some 5)) (full 5000)).inputs = [.cycle (some 2) (some 5)] ∧
      (∃ t, step (offered (.cycle (some 2) none) State.reset) = .next t) ∧
      (∃ t, step (offered (.cycle (some 2) (some 5)) (full 5000)) = .next t) ∧
      State.reset.dec = (full 5000).dec := ⟨rfl, rfl, ⟨_, rfl⟩, ⟨_, rfl⟩, rfl⟩

theorem witness_OnlyInitAndAdvance :
    (full 5000).store.busy = false ∧ (∃ t, exec .clear (full 5000) = .next t) ∧
      (∀ r now, Instr.clear ≠ .init r now) ∧ ∀ now, Instr.clear ≠ .advance now :=
  ⟨rfl, ⟨_, rfl⟩, by simp, by simp⟩

/-- A CLEAR in progress while an INIT is offered, which is not accepted. -/
theorem witness_NoInitNext_clearing :
    let s := offered (.cycle none (some 0x11)) clearing
    Inv s ∧ NextIsCycle s ∧ NoInitNext s ∧ (∀ now, ¬ NextTakes (.advance now) s) ∧
      UniqueIds s.store ∧ ∃ t, step s = .next t ∧ t.resetSeen = true :=
  ⟨⟨inv_clearing.build, inv_clearing.tableLength, inv_clearing.nvCanonical, inv_clearing.portWidth,
    inv_clearing.running⟩, ⟨by simp [offered], by simp [offered]⟩,
    ⟨fun _ _ h => absurd h.1.1 (by decide), fun f hf => by
      obtain rfl : (⟨.clear, [.write 0 0]⟩ : InFlight) = f := Option.some.inj hf
      rfl⟩,
    fun _ h => absurd h.1.1 (by decide), fun _ _ hj => absurd hj (Nat.not_lt_zero _), _, rfl, rfl⟩

/-- An idle store that takes a CLEAR. -/
theorem witness_NoInitNext_full :
    let s := offered (.cycle none (some 5)) (full 5000)
    Inv s ∧ NextIsCycle s ∧ NoInitNext s ∧ (∀ now, ¬ NextTakes (.advance now) s) ∧
      NextTakes .clear s ∧ ∃ t, step s = .next t ∧ t.resetSeen = true := by
  have only : ∀ i, NextTakes i (offered (.cycle none (some 5)) (full 5000)) → i = .clear := by
    rintro i ⟨-, rx, w, rest, hi, hd⟩
    obtain ⟨⟨-, rfl⟩, -⟩ : (none = rx ∧ (5 : CmdWord) = w) ∧ rest = [] := by
      simpa [offered] using hi
    have hc : decode (.cmdWord 5) = .ok .clear := by decide
    exact (Except.ok.inj (hc.symm.trans hd)).symm
  exact ⟨⟨inv_full.build, inv_full.tableLength, inv_full.nvCanonical, inv_full.portWidth,
    inv_full.running⟩, ⟨by simp [offered], by simp [offered]⟩,
    ⟨fun r now h => Instr.noConfusion (only _ h), fun f hf => by
      cases (show none = some f from hf)⟩,
    fun now h => Instr.noConfusion (only _ h),
    ⟨⟨rfl, rfl⟩, none, 5, [], rfl, by decide⟩, _, rfl, rfl⟩

theorem witness_InvHoldsAtReset : (cfgOf (List.replicate 19 0)).wellFormed = true := by decide

theorem witness_EveryStepKeepsInv : Inv clearing ∧ ∃ t, step clearing = .next t :=
  ⟨inv_clearing, _, rfl⟩

theorem witness_NoStepLeavesTheNvByteSpace :
    Inv (full 5000) ∧ (full 5000).resetSeen = true ∧ (∃ t, step (full 5000) = .next t) ∧
      6 * (full 5000).cfg.capacity < 19 := ⟨inv_full, rfl, ⟨_, rfl⟩, by decide⟩

/-- CLEAR's write is outstanding, so byte 0 will mirror the count of 0. -/
theorem mirrorInv_clearing : MirrorInv clearing :=
  fun _ _ => ⟨by decide, fun k hk => absurd hk (Nat.not_lt_zero k)⟩

theorem witness_EveryStepKeepsTheMirror :
    Inv clearing ∧ MirrorInv clearing ∧ ∃ t, step clearing = .next t :=
  ⟨inv_clearing, mirrorInv_clearing, _, rfl⟩

/-- A store that holds entry A and mirrors it. -/
def mirrored : State :=
  { media 1 with store := { (media 1).store with
      initialized := true
      numEntries := 1
      table := (media 1).store.table.set 0 ⟨tagA, 2, 0, 0⟩ } }

theorem mirrors_mirrored : Mirrors mirrored := by
  refine ⟨by decide, ?_⟩
  show ∀ k, k < 1 → ∀ i, i < 6 → _
  decide

theorem witness_Mirror_serving :
    Inv mirrored ∧ MirrorInv mirrored ∧ mirrored.resetSeen = true ∧ Serving mirrored :=
  ⟨inv_of_idle (by decide) (by decide) (by decide) rfl (by decide) (by decide) rfl rfl rfl rfl
    (show ∀ k, k < 1 → _ by decide), fun _ _ _ => mirrors_mirrored, rfl, ⟨rfl, rfl⟩, rfl⟩

/-- An idle store that has just answered, with every form of a cycle without a word. -/
theorem witness_IdleStore :
    let s := { full 5000 with store := { (full 5000).store with
      rsp := ⟨true, codeOK, 3, false⟩, draws := 1 } }
    s.cfg.wellFormed = true ∧ s.resetSeen = true ∧ s.store.busy = false ∧ s.inputs = [] ∧
      (offered (.cycle none none) s).inputs = .cycle none none :: [] ∧
      (offered (.cycle (some 0xFF) none) s).inputs = .cycle (some 0xFF) none :: [] :=
  ⟨by decide, rfl, rfl, rfl, rfl, rfl⟩

theorem witness_IdentifiersStayUnique :
    (full 5000).store.busy = false ∧ Built (full 5000) ∧
      (full 5000).store.numEntries.toNat ≤ (full 5000).cfg.capacity ∧
      (∀ j, j < 3 → ∀ k, k < 3 → (slot (full 5000).store j).id = (slot (full 5000).store k).id →
        j = k) ∧
      ∃ t, exec (.add tagD 1) (full 5000) = .next t :=
  ⟨rfl, sound_full.1, by decide, by decide, _, rfl⟩

end Sys2Proof.Tests
end

section
/-! PROOFS. The build of a machine (00_scope.md R8, R9): which builds run, and that no step changes
one. -/

namespace Sys2Proof.Machine

/-! ### Every command of the store stays inside the store and the NV byte space -/

theorem OutsideStoreKept.cfg_eq {s t : State} (h : OutsideStoreKept s t) : t.cfg = s.cfg := h.1

theorem runInit_outside {r : Bool} {now : Millis} {s t : State}
    (h : runInit r now s = .next t) : OutsideStoreKept s t := by
  cases r <;> exact runJob_outside h

/-- An operation that ends in a response stays inside the store. -/
theorem outside_of_responds {code : BitVec 4} {info : Byte} {flag : Bool} {s t : State}
    (h : (.next (respond code info flag s) : Result) = .next t) : OutsideStoreKept s t := by
  injection h with h
  subst h
  exact outside_respond code info flag s

theorem runAdvance_outside {now : Millis} {s t : State}
    (h : runAdvance now s = .next t) : OutsideStoreKept s t :=
  outside_of_responds (s := { s with store := { s.store with
    table := advanceTable now s.store, nowReg := now } }) h

theorem runCheck_outside {id : TagId} {s t : State}
    (h : runCheck id s = .next t) : OutsideStoreKept s t := by
  unfold runCheck at h
  split at h
  · exact outside_of_responds h
  · rename_i k _
    split at h
    · exact outside_of_responds (s := { s with store := grantSlot k s.store }) h
    · exact outside_of_responds h

theorem runAdd_outside {id : TagId} {interval : Byte} {s t : State}
    (h : runAdd id interval s = .next t) : OutsideStoreKept s t :=
  runJob_outside (s := { s with store := addToTable _ id interval s.store }) h

theorem runClear_outside {s t : State} (h : runClear s = .next t) : OutsideStoreKept s t :=
  runJob_outside (s := { s with store := { s.store with numEntries := 0 } }) h

/-- A command stays inside the store if what it does once accepted does so in every state. -/
theorem accept_keeps_outside {trap : Option (BitVec 4)} {body : State → Result} {s t : State}
    (hbody : ∀ u v, body u = .next v → OutsideStoreKept u v)
    (h : accept trap body s = .next t) : OutsideStoreKept s t :=
  accept_outside (fun v hv => hbody (beginCommand s) v hv) h

/-- The frame of the five commands, however far their NV accesses get (00_scope.md R2). -/
theorem exec_outside {i : Instr} {s t : State} (hi : isCommand i = true)
    (h : exec i s = .next t) : OutsideStoreKept s t := by
  cases i with
  | rx b => cases hi
  | init r now =>
    exact accept_keeps_outside (trap := none) (body := runInit r now) (fun _ _ => runInit_outside) h
  | advance now => exact accept_keeps_outside (fun _ _ => runAdvance_outside) h
  | check id => exact accept_keeps_outside (fun _ _ => runCheck_outside) h
  | add id interval => exact accept_keeps_outside (fun _ _ => runAdd_outside) h
  | clear => exact accept_keeps_outside (fun _ _ => runClear_outside) h

theorem offerIllegal_outside {s t : State} (h : offerIllegal s = .next t) :
    OutsideStoreKept s t := by
  refine accept_keeps_outside (fun u v hv => ?_) h
  injection hv with hv
  subst hv
  exact .refl u

/-! ### The two agents' parts of a step -/

/-- No command word stands for RX (30_encoding.md R86-R90). -/
theorem isCommand_of_decodeCmd {w : CmdWord} {i : Instr} (h : decodeCmd w = .ok i) :
    isCommand i = true := by
  unfold decodeCmd at h
  split_ifs at h <;> injection h with h <;> subst h <;> rfl

/-- The decoder's part of a cycle completes and touches only the decoder (40_tag_decoder.md R110). -/
theorem cycleDecoder_next (rx : Option Byte) (s : State) :
    ∃ d, cycleDecoder rx s = .next { s with dec := d } := by
  cases rx with
  | none => exact ⟨noResult s.dec, rfl⟩
  | some b => exact ⟨rxByte b s.dec, rfl⟩

/-- The store's part of a cycle, whatever is offered to it. -/
theorem cycleStore_outside {cmd : Option CmdWord} {s t : State}
    (h : cycleStore cmd s = .next t) : OutsideStoreKept s t := by
  cases cmd with
  | none => exact storeTick_outside h
  | some w =>
    unfold cycleStore at h
    cases hw : decode (.cmdWord w) with
    | ok i =>
      simp only [hw] at h
      exact exec_outside (isCommand_of_decodeCmd hw) h
    | error e =>
      simp only [hw] at h
      exact offerIllegal_outside h

/-! ### No step changes the build -/

/-- A cycle of a machine that has seen a reset edge: the decoder's part, then the store's (log entry
17). -/
theorem applyInput_cycle {rx : Option Byte} {cmd : Option CmdWord} {s : State}
    (h : s.resetSeen = true) :
    applyInput (.cycle rx cmd) s = andThen (cycleDecoder rx s) (cycleStore cmd) := if_pos h

/-- A cycle before the first reset edge (70_reset_and_hazards.md R231). -/
theorem applyInput_cycle_unpowered {rx : Option Byte} {cmd : Option CmdWord} {s : State}
    (h : ¬ s.resetSeen = true) :
    applyInput (.cycle rx cmd) s = .next (unpoweredCycle s) := if_neg h

theorem applyInput_cfg {i : Input} {s t : State} (h : applyInput i s = .next t) :
    t.cfg = s.cfg := by
  cases i with
  | powerLoss landed =>
    injection h with h
    subst h
    exact losePower_cfg landed s
  | reset rx cmd landed =>
    injection h with h
    subst h
    exact hardReset_cfg landed s
  | cycle rx cmd =>
    by_cases hseen : s.resetSeen = true
    · obtain ⟨d, hd⟩ := cycleDecoder_next rx s
      rw [applyInput_cycle hseen, hd] at h
      have hkept : OutsideStoreKept { s with dec := d } t := cycleStore_outside h
      exact hkept.cfg_eq
    · rw [applyInput_cycle_unpowered hseen] at h
      injection h with h
      subst h
      exact unpoweredCycle_cfg s

@[simp] theorem takeInput_cfg (s : State) : (takeInput s).2.cfg = s.cfg := by
  unfold takeInput
  split <;> rfl

/-- A step of a build the model runs is one entry of the schedule. -/
theorem step_of_wellFormed {s : State} (h : s.cfg.wellFormed = true) :
    step s = applyInput (takeInput s).1 (takeInput s).2 := if_pos h

/-- A step of any other build is a refusal (00_scope.md R9). -/
theorem step_of_not_wellFormed {s : State} (h : ¬ s.cfg.wellFormed = true) :
    step s = .refused .configurationRefused := if_neg h

/-- Only a well-formed build has a next state. -/
theorem wellFormed_of_step {s t : State} (h : step s = .next t) : s.cfg.wellFormed = true := by
  by_contra hwf
  rw [step_of_not_wellFormed hwf] at h
  cases h

theorem step_cfg {s t : State} (h : step s = .next t) : t.cfg = s.cfg := by
  rw [step_of_wellFormed (wellFormed_of_step h)] at h
  exact (applyInput_cfg h).trans (takeInput_cfg s)

/-- Settles O44: reset edges and losses of power keep the build, and so do both agents' parts of a
cycle. -/
theorem capacityIsFixedAtBuildTime : Obligations.CapacityIsFixedAtBuildTime := by
  refine ⟨fun _ => rfl, fun s t h => ?_⟩
  have hcfg := step_cfg h
  exact ⟨hcfg, congrArg Config.capacity hcfg⟩

/-! ### Which builds run -/

/-- The checks of a build, spelled out (00_scope.md R7, R9). -/
theorem wellFormed_iff {c : Config} : c.wellFormed = true ↔
    (7 ≤ c.totalBytes ∧ c.totalBytes ≤ 1531) ∧ (c.timeUnitS = 1 ∨ c.timeUnitS = 3600) ∧
      c.hexAlphabet = .af ∧ c.totalBytes ≤ 2 ^ c.nvAddrW ∧ c.nvInit.length = c.totalBytes := by
  simp only [Config.wellFormed, Config.sizeOk, Config.timeUnitOk, Config.alphabetOk,
    Config.addrWidthOk, Config.nvInitOk, Bool.and_eq_true, decide_eq_true_eq, and_assoc]

/-- Settles O43: a build that breaks one of R9's bounds is not well-formed, and such a build's steps are
refused. -/
theorem illFormedConfigurationIsRefused : Obligations.IllFormedConfigurationIsRefused := by
  refine ⟨fun c h => ?_, fun s hbad => ?_⟩
  · obtain ⟨⟨hlo, hhi⟩, hunit, haf, -, -⟩ := wellFormed_iff.1 h
    obtain ⟨hone, hmax, -, -⟩ := capacity_bounds h
    exact ⟨hone, hmax, hlo, hhi, hunit, haf⟩
  · refine step_of_not_wellFormed fun h => hbad ?_
    obtain ⟨⟨hlo, hhi⟩, hunit, haf, -, -⟩ := wellFormed_iff.1 h
    exact ⟨hlo, hhi, hunit, haf⟩

end Sys2Proof.Machine
end

section
/-! PROOFS. The command words (30_encoding.md R85-R91): the layout of each command, and what a
ready store answers to a word that has none of them. -/

namespace Sys2Proof

/-! ### Words cut into fields -/

/-- Two words agree on each of the fields that stand one above the other from bit `lo` up, given by their
widths. -/
def FieldsAgree (u v : CmdWord) : Nat → List Nat → Prop
  | _, [] => True
  | lo, n :: rest => u.extractLsb' lo n = v.extractLsb' lo n ∧ FieldsAgree u v (lo + n) rest

/-- Two words agree on a field exactly when they agree on its bits. -/
theorem extractLsb'_eq_iff {u v : CmdWord} {lo n : Nat} :
    u.extractLsb' lo n = v.extractLsb' lo n ↔
      ∀ k < n, u.getLsbD (lo + k) = v.getLsbD (lo + k) := by
  rw [BitVec.eq_of_getLsbD_eq_iff]
  refine forall₂_congr fun k hk => ?_
  simp [hk]

theorem fieldsAgree_iff {u v : CmdWord} : ∀ {widths : List Nat} {lo : Nat},
    FieldsAgree u v lo widths ↔ ∀ k < widths.sum, u.getLsbD (lo + k) = v.getLsbD (lo + k)
  | [], lo => by simp [FieldsAgree]
  | n :: rest, lo => by
    rw [FieldsAgree, extractLsb'_eq_iff, fieldsAgree_iff, List.sum_cons]
    constructor
    · rintro ⟨hlow, hhigh⟩ k hk
      by_cases h : k < n
      · exact hlow k h
      · have hbit := hhigh (k - n) (by omega)
        rwa [show lo + n + (k - n) = lo + k by omega] at hbit
    · refine fun h => ⟨fun k hk => h k (by omega), fun k hk => ?_⟩
      rw [Nat.add_assoc]
      exact h (n + k) (by omega)

/-- A layout that fills the word determines it. -/
theorem eq_iff_fieldsAgree {u v : CmdWord} {widths : List Nat} (h : widths.sum = 64) :
    u = v ↔ FieldsAgree u v 0 widths := by
  rw [fieldsAgree_iff, h, BitVec.eq_of_getLsbD_eq_iff]
  simp only [Nat.zero_add]

/-- A mask keeps a field it has all ones in. -/
theorem extractLsb'_and_of_ones {mask : CmdWord} {lo n : Nat}
    (h : mask.extractLsb' lo n = BitVec.allOnes n) (w : CmdWord) :
    (w &&& mask).extractLsb' lo n = w.extractLsb' lo n := by
  rw [BitVec.extractLsb'_and, h, BitVec.and_allOnes]

/-- A mask clears a field it has all zeros in. -/
theorem extractLsb'_and_of_zeros {mask : CmdWord} {lo n : Nat}
    (h : mask.extractLsb' lo n = 0#n) (w : CmdWord) :
    (w &&& mask).extractLsb' lo n = 0#n := by
  rw [BitVec.extractLsb'_and, h, BitVec.and_zero]

/-! ### The five rows, field by field (30_encoding.md R86-R90)

Each row's layout cuts the word at the ends of its operands and zeros; the mask is all ones or all zeros
in every field of the cut. -/

theorem initRow_iff {w : CmdWord} : w &&& 0xFFFF00000000FFEF = 0x0000000000000001 ↔
    w.extractLsb' 0 4 = 0x1 ∧ w.extractLsb' 5 11 = 0 ∧ w.extractLsb' 48 16 = 0 := by
  rw [eq_iff_fieldsAgree (widths := [4, 1, 11, 32, 16]) rfl]
  simp (disch := decide) [FieldsAgree, extractLsb'_and_of_ones, extractLsb'_and_of_zeros]

theorem advanceRow_iff {w : CmdWord} : w &&& 0xFFFF00000000FFFF = 0x0000000000000002 ↔
    w.extractLsb' 0 4 = 0x2 ∧ w.extractLsb' 4 12 = 0 ∧ w.extractLsb' 48 16 = 0 := by
  rw [eq_iff_fieldsAgree (widths := [4, 12, 32, 16]) rfl]
  simp (disch := decide) [FieldsAgree, extractLsb'_and_of_ones, extractLsb'_and_of_zeros]

theorem checkRow_iff {w : CmdWord} : w &&& 0xFF0000000000FFFF = 0x0000000000000003 ↔
    w.extractLsb' 0 4 = 0x3 ∧ w.extractLsb' 4 12 = 0 ∧ w.extractLsb' 56 8 = 0 := by
  rw [eq_iff_fieldsAgree (widths := [4, 12, 40, 8]) rfl]
  simp (disch := decide) [FieldsAgree, extractLsb'_and_of_ones, extractLsb'_and_of_zeros]

theorem addRow_iff {w : CmdWord} : w &&& 0x000000000000FFFF = 0x0000000000000004 ↔
    w.extractLsb' 0 4 = 0x4 ∧ w.extractLsb' 4 12 = 0 := by
  rw [eq_iff_fieldsAgree (widths := [4, 12, 48]) rfl]
  simp (disch := decide) [FieldsAgree, extractLsb'_and_of_ones, extractLsb'_and_of_zeros]

theorem clearRow_iff {w : CmdWord} : w &&& 0xFFFFFFFFFFFFFFFF = 0x0000000000000005 ↔
    w.extractLsb' 0 4 = 0x5 ∧ w.extractLsb' 4 60 = 0 := by
  rw [eq_iff_fieldsAgree (widths := [4, 60]) rfl]
  simp (disch := decide) [FieldsAgree, extractLsb'_and_of_ones]

/-! ### The decoder reads the layouts -/

/-- The word has the layout of the command, with the command's operands in its fields
(30_encoding.md R86-R90). No word has RX's. -/
def HasLayout (w : CmdWord) : Instr → Prop
  | .rx _ => False
  | .init r now => w.extractLsb' 0 4 = 0x1 ∧ w.getLsbD 4 = r ∧ w.extractLsb' 5 11 = 0 ∧
      w.extractLsb' 16 32 = now ∧ w.extractLsb' 48 16 = 0
  | .advance now => w.extractLsb' 0 4 = 0x2 ∧ w.extractLsb' 4 12 = 0 ∧
      w.extractLsb' 16 32 = now ∧ w.extractLsb' 48 16 = 0
  | .check id => w.extractLsb' 0 4 = 0x3 ∧ w.extractLsb' 4 12 = 0 ∧
      w.extractLsb' 16 40 = id.toField ∧ w.extractLsb' 56 8 = 0
  | .add id interval => w.extractLsb' 0 4 = 0x4 ∧ w.extractLsb' 4 12 = 0 ∧
      w.extractLsb' 16 40 = id.toField ∧ w.extractLsb' 56 8 = interval
  | .clear => w.extractLsb' 0 4 = 0x5 ∧ w.extractLsb' 4 60 = 0

theorem hasLayout_of_decodeCmd {w : CmdWord} {i : Instr} (h : decodeCmd w = .ok i) :
    HasLayout w i := by
  unfold decodeCmd at h
  split_ifs at h with hinit hadvance hcheck hadd hclear <;> injection h with h <;> subst h
  · obtain ⟨hop, hmid, htop⟩ := initRow_iff.1 ((matches_iff _ _ w).1 hinit)
    exact ⟨hop, rfl, hmid, rfl, htop⟩
  · obtain ⟨hop, hmid, htop⟩ := advanceRow_iff.1 ((matches_iff _ _ w).1 hadvance)
    exact ⟨hop, hmid, rfl, htop⟩
  · obtain ⟨hop, hmid, htop⟩ := checkRow_iff.1 ((matches_iff _ _ w).1 hcheck)
    exact ⟨hop, hmid, (toField_ofField _).symm, htop⟩
  · obtain ⟨hop, hmid⟩ := addRow_iff.1 ((matches_iff _ _ w).1 hadd)
    exact ⟨hop, hmid, (toField_ofField _).symm, rfl⟩
  · exact clearRow_iff.1 ((matches_iff _ _ w).1 hclear)

theorem decodeCmd_of_hasLayout {w : CmdWord} {i : Instr} (h : HasLayout w i) :
    decodeCmd w = .ok i := by
  cases i with
  | rx b => exact h.elim
  | init r now =>
    obtain ⟨hop, rfl, hmid, rfl, htop⟩ := h
    have hrow : rowInit.matches w = true := (matches_iff _ _ w).2 (initRow_iff.2 ⟨hop, hmid, htop⟩)
    simp [decodeCmd, hrow, fieldR, fieldNow]
  | advance now =>
    obtain ⟨hop, hmid, rfl, htop⟩ := h
    obtain ⟨hinit, -⟩ := Laws.EncodedWord.rows_of_op hop
    have hrow : rowAdvance.matches w = true :=
      (matches_iff _ _ w).2 (advanceRow_iff.2 ⟨hop, hmid, htop⟩)
    simp [decodeCmd, hinit, hrow, fieldNow]
  | check id =>
    obtain ⟨hop, hmid, hid, htop⟩ := h
    obtain ⟨hinit, hadvance, -⟩ := Laws.EncodedWord.rows_of_op hop
    have hrow : rowCheck.matches w = true :=
      (matches_iff _ _ w).2 (checkRow_iff.2 ⟨hop, hmid, htop⟩)
    simp [decodeCmd, hinit, hadvance, hrow, fieldId, hid]
  | add id interval =>
    obtain ⟨hop, hmid, hid, rfl⟩ := h
    obtain ⟨hinit, hadvance, hcheck, -⟩ := Laws.EncodedWord.rows_of_op hop
    have hrow : rowAdd.matches w = true := (matches_iff _ _ w).2 (addRow_iff.2 ⟨hop, hmid⟩)
    simp [decodeCmd, hinit, hadvance, hcheck, hrow, fieldId, fieldInterval, hid]
  | clear =>
    obtain ⟨hinit, hadvance, hcheck, hadd, -⟩ := Laws.EncodedWord.rows_of_op h.1
    have hrow : rowClear.matches w = true := (matches_iff _ _ w).2 (clearRow_iff.2 h)
    simp [decodeCmd, hinit, hadvance, hcheck, hadd, hrow]

/-- A word decodes to a command exactly when it has the command's layout. -/
theorem decodeCmd_eq_ok_iff {w : CmdWord} {i : Instr} : decodeCmd w = .ok i ↔ HasLayout w i :=
  ⟨hasLayout_of_decodeCmd, decodeCmd_of_hasLayout⟩

/-- Settles O4: the decoder reads the layouts, and each row's mask covers the fields that are not
operands. -/
theorem commandWordLayouts : Obligations.CommandWordLayouts := fun _ =>
  ⟨fun _ _ => decodeCmd_eq_ok_iff, initRow_iff, fun _ => decodeCmd_eq_ok_iff, advanceRow_iff,
    fun _ => decodeCmd_eq_ok_iff, checkRow_iff, fun _ _ => decodeCmd_eq_ok_iff, addRow_iff,
    decodeCmd_eq_ok_iff, clearRow_iff⟩

/-! ### Legal and illegal words (30_encoding.md R91) -/

/-- OP of a command's word is one of 0x1-0x5 (30_encoding.md R86-R90). -/
theorem op_range_of_hasLayout {w : CmdWord} {i : Instr} (h : HasLayout w i) :
    w.extractLsb' 0 4 ≠ 0x0 ∧ (w.extractLsb' 0 4).toNat < 0x6 := by
  cases i with
  | rx b => exact h.elim
  | init _ _ | advance _ | check _ | add _ _ | clear =>
    rw [h.1]
    decide

/-- A word is legal exactly when it satisfies a row: a row's word carries some operands. -/
theorem exists_decodeCmd_iff {w : CmdWord} : (∃ i, decodeCmd w = .ok i) ↔
    w &&& 0xFFFF00000000FFEF = 0x1 ∨ w &&& 0xFFFF00000000FFFF = 0x2 ∨
    w &&& 0xFF0000000000FFFF = 0x3 ∨ w &&& 0x000000000000FFFF = 0x4 ∨
    w &&& 0xFFFFFFFFFFFFFFFF = 0x5 := by
  simp only [decodeCmd_eq_ok_iff, initRow_iff, advanceRow_iff, checkRow_iff, addRow_iff,
    clearRow_iff]
  constructor
  · rintro ⟨i, h⟩
    cases i with
    | rx b => exact h.elim
    | init r now =>
      obtain ⟨hop, -, hmid, -, htop⟩ := h
      exact .inl ⟨hop, hmid, htop⟩
    | advance now =>
      obtain ⟨hop, hmid, -, htop⟩ := h
      exact .inr (.inl ⟨hop, hmid, htop⟩)
    | check id =>
      obtain ⟨hop, hmid, -, htop⟩ := h
      exact .inr (.inr (.inl ⟨hop, hmid, htop⟩))
    | add id interval =>
      obtain ⟨hop, hmid, -, -⟩ := h
      exact .inr (.inr (.inr (.inl ⟨hop, hmid⟩)))
    | clear => exact .inr (.inr (.inr (.inr h)))
  · rintro (⟨hop, hmid, htop⟩ | ⟨hop, hmid, htop⟩ | ⟨hop, hmid, htop⟩ | ⟨hop, hmid⟩ | h)
    · exact ⟨.init (fieldR w) (fieldNow w), hop, rfl, hmid, rfl, htop⟩
    · exact ⟨.advance (fieldNow w), hop, hmid, rfl, htop⟩
    · exact ⟨.check (fieldId w), hop, hmid, (toField_ofField _).symm, htop⟩
    · exact ⟨.add (fieldId w) (fieldInterval w), hop, hmid, (toField_ofField _).symm, rfl⟩
    · exact ⟨.clear, h⟩

/-- A word whose OP names no command is refused. -/
theorem decodeCmd_error_of_op {w : CmdWord}
    (h : w.extractLsb' 0 4 = 0x0 ∨ 0x6 ≤ (w.extractLsb' 0 4).toNat) :
    ∃ e, decodeCmd w = .error e := by
  cases hw : decodeCmd w with
  | error e => exact ⟨e, rfl⟩
  | ok i =>
    obtain ⟨hzero, hsix⟩ := op_range_of_hasLayout (hasLayout_of_decodeCmd hw)
    exact absurd h (by simp only [hzero, false_or]; omega)

namespace Machine

/-- A cycle comes down to the store's part, in a state that differs in the decoder and the schedule only
(log entry 17). -/
theorem step_cycle {s : State} {rx : Option Byte} {cmd : Option CmdWord} {rest : List Input}
    (hcfg : s.cfg.wellFormed = true) (hseen : s.resetSeen = true)
    (hin : s.inputs = .cycle rx cmd :: rest) :
    ∃ d, step s = cycleStore cmd { s with inputs := rest, dec := d } := by
  obtain ⟨d, hd⟩ := cycleDecoder_next rx { s with inputs := rest }
  have htake : takeInput s = (.cycle rx cmd, { s with inputs := rest }) := by
    simp [takeInput, hin]
  have hrun : ({ s with inputs := rest } : State).resetSeen = true := hseen
  refine ⟨d, ?_⟩
  rw [step_of_wellFormed hcfg, htake, applyInput_cycle hrun, hd]
  rfl

theorem cycleStore_illegal {w : CmdWord} {e : DecodeError} (h : decodeCmd w = .error e)
    (s : State) : cycleStore (some w) s = offerIllegal s := by
  simp [cycleStore, decode, h]

theorem offerIllegal_ready {s : State} (h : Ready s) :
    offerIllegal s = .next (raiseFault codeIllegalCmd (beginCommand s)) := accept_traps h

/-- Settles O5: legality and OP come from the layouts; the step of a ready store that is offered an
illegal word is fault entry, which touches nothing but the fault and the response. -/
theorem illegalWordsAnswerIllegalCmd : Obligations.IllegalWordsAnswerIllegalCmd := by
  refine ⟨fun w => exists_decodeCmd_iff, fun w i h => ?_, fun w => decodeCmd_error_of_op,
    fun s rx w rest e hcfg hseen hready hin hw => ?_⟩
  · have hlayout := hasLayout_of_decodeCmd h
    cases i with
    | rx b => exact hlayout
    | init _ _ | advance _ | check _ | add _ _ | clear => exact hlayout.1
  · obtain ⟨d, hstep⟩ := step_cycle hcfg hseen hin
    rw [cycleStore_illegal hw] at hstep
    exact ⟨_, hstep.trans (offerIllegal_ready hready), ⟨rfl, rfl, rfl, rfl⟩, rfl, rfl, rfl,
      rfl, rfl, fun _ => rfl, rfl, rfl⟩

end Machine
end Sys2Proof
end

section
/-! PROOFS. The hex alphabet at the decoder's digit positions (30_encoding.md R82, 40_tag_decoder.md
R113). -/

namespace Sys2Proof.Machine

/-- A byte in the alphabet is the digit of its value: `hexDigit` is the inverse of `hexval`. -/
theorem hexval_eq_some_iff {b : Byte} {v : Nibble} : hexval b = some v ↔ b = hexDigit v := by
  refine ⟨fun h => BitVec.eq_of_toNat_eq ?_, fun h => h ▸ hexval_hexDigit v⟩
  unfold hexval at h
  split_ifs at h with hdigit hletter <;> injection h with h <;> subst h
  · have hlt : b.toNat - 0x30 < 10 := by omega
    simp [hexDigit, Nat.mod_eq_of_lt (show b.toNat - 0x30 < 16 by omega), hlt]
    omega
  · have hlt : ¬ b.toNat - 0x41 + 10 < 10 := by omega
    simp [hexDigit, Nat.mod_eq_of_lt (show b.toNat - 0x41 + 10 < 16 by omega), hlt]
    omega

/-- At a digit position RX is DIGIT (40_tag_decoder.md R110, R113). -/
theorem rxByte_digit {d : Decoder} (hlo : 1 ≤ d.pos.toNat) (hhi : d.pos.toNat ≤ 12) (b : Byte) :
    rxByte b d = rxDigit b d := by
  have hpos : d.pos ≠ 0 := fun h => by simp [h] at hlo
  rw [rxByte, if_neg hpos, if_pos hhi]

theorem rxDigit_of_none {b : Byte} (h : hexval b = none) (d : Decoder) :
    rxDigit b d = emitError statusEncoding d := by
  simp [rxDigit, h]

theorem rxDigit_of_some {b : Byte} {v : Nibble} (h : hexval b = some v) (d : Decoder) :
    rxDigit b d = goTo (d.pos + 1) { d with buf := storeNibble d.pos.toNat v d.buf } := by
  simp [rxDigit, h]

/-- The sixteen digits with their values, as R82 lists them. -/
def hexTable : List (Byte × Nibble) :=
  [(0x30, 0x0), (0x31, 0x1), (0x32, 0x2), (0x33, 0x3), (0x34, 0x4), (0x35, 0x5), (0x36, 0x6),
    (0x37, 0x7), (0x38, 0x8), (0x39, 0x9), (0x41, 0xA), (0x42, 0xB), (0x43, 0xC), (0x44, 0xD),
    (0x45, 0xE), (0x46, 0xF)]

/-- R82's table pairs each nibble with its digit, and holds no other pair. -/
theorem mem_hexTable_iff {b : Byte} {v : Nibble} : (b, v) ∈ hexTable ↔ b = hexDigit v := by
  have htable : hexTable = (List.finRange 16).map fun k =>
      (hexDigit (BitVec.ofFin k), BitVec.ofFin k) := by decide
  rw [htable, List.mem_map]
  constructor
  · rintro ⟨k, -, hk⟩
    injection hk with hb hv
    rw [← hb, ← hv]
  · rintro rfl
    exact ⟨v.toFin, List.mem_finRange _, rfl⟩

/-- Settles O7: the table lists the digits `hexval` accepts, and DIGIT emits ENCODING exactly where
`hexval` has no value. -/
theorem hexAlphabetIsTheSixteenCodes : Obligations.HexAlphabetIsTheSixteenCodes := by
  refine ⟨fun b v => hexval_eq_some_iff.trans mem_hexTable_iff.symm, fun s b hlo hhi => ?_⟩
  refine ⟨_, rfl, ?_⟩
  dsimp only
  rw [rxByte_digit hlo hhi]
  cases hv : hexval b with
  | none =>
    rw [rxDigit_of_none hv]
    simp [emitError]
  | some v =>
    rw [rxDigit_of_some hv]
    simp [goTo, noResult]

end Sys2Proof.Machine
end

section
/-! PROOFS. RX position by position (40_tag_decoder.md R112-R118): what the byte at each position does to
the decoder, and that it does nothing else. -/

namespace Sys2Proof.Machine

/-! ### What each position does with its byte -/

/-- RX replaces the decoder and nothing else (40_tag_decoder.md R110). -/
theorem exec_rx_of_dec {b : Byte} {s : State} {d : Decoder} (h : rxByte b s.dec = d) :
    exec (.rx b) s = .next { s with dec := d } := by
  rw [← h]
  rfl

theorem rxByte_start {d : Decoder} (h : d.pos = 0) (b : Byte) :
    rxByte b d = rxMark markSTX 1 b d := by
  simp [rxByte, h, rxStart, rxMark]

theorem rxByte_return {d : Decoder} (h : d.pos = 13) (b : Byte) :
    rxByte b d = rxMark markCR 14 b d := by
  simp [rxByte, h]

theorem rxByte_feed {d : Decoder} (h : d.pos = 14) (b : Byte) :
    rxByte b d = rxMark markLF 15 b d := by
  simp [rxByte, h]

theorem rxByte_end {d : Decoder} (h : d.pos = 15) (b : Byte) : rxByte b d = rxLast b d := by
  simp [rxByte, h]

@[simp] theorem rxMark_self (mark : Byte) (next : BitVec 4) (d : Decoder) :
    rxMark mark next mark d = goTo next d := if_pos rfl

theorem rxMark_of_ne {b mark : Byte} (h : b ≠ mark) (next : BitVec 4) (d : Decoder) :
    rxMark mark next b d = emitError statusFraming d := if_neg h

@[simp] theorem rxLast_markETX (d : Decoder) : rxLast markETX d = compareChecksum d := if_pos rfl

theorem rxLast_of_ne {b : Byte} (h : b ≠ markETX) (d : Decoder) :
    rxLast b d = emitError statusFraming d := if_neg h

theorem compareChecksum_of_match {d : Decoder} (h : xorData d.buf = bufByte d.buf 5) :
    compareChecksum d = emitOk (bufTag d.buf) d := if_pos h

theorem compareChecksum_of_mismatch {d : Decoder} (h : xorData d.buf ≠ bufByte d.buf 5) :
    compareChecksum d = emitError statusChecksum d := if_neg h

/-! ### The digit positions -/

/-- Settles O8: outside the alphabet DIGIT is an ENCODING error; a digit is stored by STORE_NIBBLE, which
touches one nibble of one byte of the buffer. -/
theorem rxAtDigitPositions : Obligations.RxAtDigitPositions := by
  intro s b hlo hhi
  have hdigit := rxByte_digit hlo hhi b
  cases hv : hexval b with
  | none =>
    have hexec := exec_rx_of_dec (hdigit.trans (rxDigit_of_none hv s.dec))
    exact ⟨_, hexec, rfl, fun _ => rfl, fun _ => ⟨rfl, rfl, rfl, rfl⟩, nofun⟩
  | some v =>
    have hexec := exec_rx_of_dec (hdigit.trans (rxDigit_of_some hv s.dec))
    have hpos : (s.dec.pos + 1).toNat = s.dec.pos.toNat + 1 :=
      BitVec.toNat_add_of_lt (show s.dec.pos.toNat + 1 < 2 ^ 4 by omega)
    have hbuf := bufByte_storeNibble s.dec.pos.toNat v s.dec.buf
    refine ⟨_, hexec, rfl, fun _ => rfl, nofun, ?_⟩
    rintro _ ⟨⟩
    refine ⟨rfl, hpos, fun j hj => (hbuf j).trans (if_neg fun h => hj h.1), ?_⟩
    have hbyte := (hbuf _).trans (if_pos ⟨rfl, show (s.dec.pos.toNat - 1) / 2 < 6 by omega⟩)
    simp only [goTo, noResult, hbyte]
    split
    · exact ⟨high_withHighNibble _ _, low_withHighNibble _ _⟩
    · exact ⟨low_withLowNibble _ _, high_withLowNibble _ _⟩

/-! ### The marker positions -/

/-- At a marker position RX takes the marker and nothing else (40_tag_decoder.md R112, R115, R116). -/
theorem exec_rx_mark {s : State} {b mark : Byte} {next : BitVec 4}
    (h : rxByte b s.dec = rxMark mark next b s.dec) :
    ∃ t, exec (.rx b) s = .next t ∧ t.store = s.store ∧ NvKept s t ∧ t.dec.buf = s.dec.buf ∧
      (b = mark → t.dec.valid = false ∧ t.dec.pos = next) ∧
      (b ≠ mark → t.dec.valid = true ∧ t.dec.status = statusFraming ∧ t.dec.pos = 0) := by
  refine ⟨_, exec_rx_of_dec h, rfl, fun _ => rfl, ?_⟩
  dsimp only
  by_cases hb : b = mark
  · subst hb
    rw [rxMark_self]
    exact ⟨rfl, fun _ => ⟨rfl, rfl⟩, fun hne => absurd rfl hne⟩
  · rw [rxMark_of_ne hb]
    exact ⟨rfl, fun heq => absurd heq hb, fun _ => ⟨rfl, rfl, rfl⟩⟩

/-- Settles O9: positions 13 and 14 are marker positions, for CR and LF. -/
theorem rxAtReturnAndFeedPositions : Obligations.RxAtReturnAndFeedPositions := fun _ b =>
  ⟨fun h => exec_rx_mark (rxByte_return h b), fun h => exec_rx_mark (rxByte_feed h b)⟩

/-- Settles O10: ETX is checked first, and only then the checksum compared. -/
theorem rxAtEndPosition : Obligations.RxAtEndPosition := by
  intro s b h
  refine ⟨_, exec_rx_of_dec (rxByte_end h b), rfl, fun _ => rfl, ?_⟩
  dsimp only
  by_cases hb : b = markETX
  · subst hb
    rw [rxLast_markETX]
    by_cases hx : xorData s.dec.buf = bufByte s.dec.buf 5
    · rw [compareChecksum_of_match hx]
      exact ⟨rfl, rfl, rfl, fun hne => absurd rfl hne,
        fun _ => ⟨fun hne => absurd hx hne, fun _ => ⟨rfl, rfl⟩⟩⟩
    · rw [compareChecksum_of_mismatch hx]
      exact ⟨rfl, rfl, rfl, fun hne => absurd rfl hne,
        fun _ => ⟨fun _ => rfl, fun heq => absurd heq hx⟩⟩
  · rw [rxLast_of_ne hb]
    exact ⟨rfl, rfl, rfl, fun _ => rfl, fun heq => absurd heq hb⟩

/-! ### Bytes before the start marker -/

theorem rxByte_start_of_ne {d : Decoder} {b : Byte} (h : d.pos = 0) (hb : b ≠ markSTX) :
    rxByte b d = emitError statusFraming d := (rxByte_start h b).trans (rxMark_of_ne hb 1 d)

/-- A run without STX, its first byte at any index of the stream: each FRAMING leaves position 0, so the
next byte meets the same check. -/
theorem run_without_start (bs : List Byte) : ∀ (i : Nat) (d : Decoder), d.pos = 0 →
    (∀ b ∈ bs, b ≠ markSTX) →
    decResults i bs d = (List.range' i bs.length).map (fun k => (k, ⟨statusFraming, none⟩)) ∧
      (decAfter bs d).pos = 0 ∧ (decAfter bs d).buf = d.buf := by
  induction bs with
  | nil => exact fun _ _ hpos _ => ⟨rfl, hpos, rfl⟩
  | cons b rest ih =>
    intro i d hpos hne
    obtain ⟨hb, hrest⟩ := List.forall_mem_cons.mp hne
    have hrx := rxByte_start_of_ne hpos hb
    have hshown := shownResult_emitError (show statusFraming ≠ statusOK by decide) d
    obtain ⟨hresults, hafter, hbuf⟩ := ih (i + 1) (emitError statusFraming d) rfl hrest
    refine ⟨?_, ?_, ?_⟩
    · simp [decResults, hrx, hshown, hresults, List.range'_succ]
    · rw [decAfter, hrx, hafter]
    · rw [decAfter, hrx, hbuf]
      rfl

/-- Settles O11: position 0 is the marker position of STX, and a run without STX never leaves it. -/
theorem bytesBeforeStartMarkerEachGiveFraming :
    Obligations.BytesBeforeStartMarkerEachGiveFraming := by
  refine ⟨fun s hpos => ?_, fun bs d hpos hne => ?_⟩
  · obtain ⟨t, hexec, hstore, hnv, hbuf, htaken, -⟩ := exec_rx_mark (rxByte_start hpos markSTX)
    obtain ⟨hvalid, hnext⟩ := htaken rfl
    exact ⟨t, hexec, hstore, hnv, hvalid, hnext, hbuf⟩
  · rw [List.range_eq_range']
    exact run_without_start bs 0 d hpos hne

end Sys2Proof.Machine
end

section
/-! PROOFS. The two quantities CHECK compares, Lookup, and the eviction arbiter
(41_store_commands.md R141-R143, R165). -/

namespace Sys2Proof.Machine

/-! ### Lookup (41_store_commands.md R143) -/

/-- Settles O28: the model compares the five bytes, which are the 40-bit field. -/
theorem lookupFindsTheLeastMatch : Obligations.LookupFindsTheLeastMatch := by
  intro st id hcount
  have in_table {k : Nat} (hk : k < st.numEntries.toNat) : k < st.table.length :=
    hk.trans_le hcount
  simp only [ne_eq, toField_inj]
  constructor
  · intro k
    rw [lookup_eq_some, and_iff_left_of_imp in_table]
  · rw [lookup_eq_none]
    exact forall₂_congr fun k hk => forall_prop_of_true (in_table hk)

/-! ### The arbiter (41_store_commands.md R165) -/

/-- Slot `v` is the first of the `n` lowest slots that has their largest elapsed time. -/
def FirstLargestElapsed (st : Store) (n v : Nat) : Prop :=
  v < n ∧ (∀ k, k < n → elapsed st k ≤ elapsed st v) ∧ ∀ k, k < v → elapsed st k < elapsed st v

theorem firstLargestElapsed_one (st : Store) : FirstLargestElapsed st 1 0 := by
  refine ⟨Nat.one_pos, fun k hk => ?_, fun k hk => absurd hk k.not_lt_zero⟩
  rw [Nat.lt_one_iff.1 hk]

/-- One comparison of the arbiter takes in the next slot: only a strictly larger time replaces the best,
so a tie stays with the lower slot. -/
theorem firstLargestElapsed_betterVictim {st : Store} {n v : Nat}
    (h : FirstLargestElapsed st n v) : FirstLargestElapsed st (n + 1) (betterVictim st v n) := by
  obtain ⟨hlt, hmax, hfirst⟩ := h
  unfold betterVictim
  split
  case isTrue hnew =>
    have hbelow : ∀ k, k < n → elapsed st k < elapsed st n :=
      fun k hk => (hmax k hk).trans_lt hnew
    refine ⟨n.lt_succ_self, fun k hk => ?_, hbelow⟩
    rcases Nat.lt_succ_iff_lt_or_eq.1 hk with hk | rfl
    · exact (hbelow k hk).le
    · exact le_rfl
  case isFalse hold =>
    refine ⟨hlt.trans n.lt_succ_self, fun k hk => ?_, hfirst⟩
    rcases Nat.lt_succ_iff_lt_or_eq.1 hk with hk | rfl
    · exact hmax k hk
    · exact Nat.le_of_not_gt hold

theorem selectVictim_one (st : Store) : selectVictim 1 st = 0 := rfl

/-- One more slot is one more comparison. -/
theorem selectVictim_add_two (n : Nat) (st : Store) :
    selectVictim (n + 2) st = betterVictim st (selectVictim (n + 1) st) (n + 1) := by
  simp [selectVictim, List.range'_1_concat, Nat.add_comm 1 n]

theorem firstLargestElapsed_selectVictim (st : Store) (n : Nat) :
    FirstLargestElapsed st (n + 1) (selectVictim (n + 1) st) := by
  induction n with
  | zero => rw [selectVictim_one]; exact firstLargestElapsed_one st
  | succ n ih => rw [selectVictim_add_two]; exact firstLargestElapsed_betterVictim ih

/-- Settles O31: the arbiter's best so far is the first largest of the slots it has compared, and of
ADD's three placements (R170) only the one in a full table asks for it. -/
theorem victimIsTheFirstLargestElapsed : Obligations.VictimIsTheFirstLargestElapsed := by
  refine ⟨fun capacity st hcap => ?_, fun s id hcount => ?_⟩
  · obtain ⟨n, rfl⟩ := Nat.exists_eq_add_of_le' hcap
    exact firstLargestElapsed_selectVictim st n
  · rcases placeTag_cases s.cfg s.store id with
      ⟨k, hfound, hplace⟩ | ⟨-, hroom, hplace⟩ | ⟨habsent, hfull, hplace⟩ <;> rw [hplace]
    · simp [hfound]
    · simp [hroom.ne]
    · simp [habsent, hcount.antisymm hfull]

/-! ### The quantities CHECK compares (41_store_commands.md R141, R142) -/

/-- A 32-bit count of milliseconds in whole seconds. -/
theorem millis_seconds_le (x : Millis) : x.toNat / 1000 ≤ 4294967 := by
  have := x.isLt
  omega

/-- The difference of two clock readings, modulo 2^32 (41_store_commands.md R141). -/
theorem toNat_millis_sub (now base : Millis) :
    (now - base).toNat = (now.toNat + 2 ^ 32 - base.toNat) % 2 ^ 32 := by
  have := base.isLt
  rw [BitVec.toNat_sub]
  congr 1
  omega

theorem elapsed_eq (st : Store) (k : Nat) : elapsed st k =
    ((st.nowReg.toNat + 2 ^ 32 - (slot st k).lastGrant.toNat) % 2 ^ 32) / 1000 +
      (slot st k).carry.toNat / 1000 := by
  rw [← toNat_millis_sub]
  rfl

/-- Both of its parts are at most a full 32-bit count. -/
theorem elapsed_le (st : Store) (k : Nat) : elapsed st k ≤ 8589934 :=
  Nat.add_le_add (millis_seconds_le _) (millis_seconds_le _)

/-- The largest interval in the largest unit: 255 hours of 3600 seconds. -/
theorem required_le {cfg : Config} (h : cfg.wellFormed = true) (st : Store) (k : Nat) :
    required cfg st k ≤ 918000 := by
  have hinterval : (slot st k).interval.toNat ≤ 255 := Nat.le_of_lt_succ (BitVec.isLt _)
  have hunit : cfg.timeUnitS ≤ 3600 := by
    obtain ⟨-, hunit, -⟩ := wellFormed_iff.1 h
    omega
  exact Nat.mul_le_mul hinterval hunit

/-- Settles O27: each quotient is floored on its own, and the bounds are those of the operands'
widths. -/
theorem elapsedAndRequiredInSeconds : Obligations.ElapsedAndRequiredInSeconds :=
  ⟨fun st k => ⟨elapsed_eq st k, elapsed_le st k⟩,
    fun _ st k hcfg => ⟨rfl, required_le hcfg st k⟩⟩

end Sys2Proof.Machine
end

section
/-! PROOFS. The fault state (60_exceptions.md R204): acceptance stops at the recorded fault, whatever is
offered. -/

namespace Sys2Proof.Machine

/-- All a command leaves behind in the fault state: the answer FAULTED, and otherwise the state it was
offered in (60_exceptions.md R204). -/
def OnlyAnsweredFaulted (s t : State) : Prop :=
  Responded codeFaulted 0 false t ∧ ControlKept s t ∧ stFault t = s.store.fault ∧
    t.store.numEntries = s.store.numEntries ∧ t.store.table = s.store.table ∧ NvKept s t ∧
    t.nvSamples = s.nvSamples ∧ OutsideStoreKept s t

theorem onlyAnsweredFaulted_respond (s : State) :
    OnlyAnsweredFaulted s (respond codeFaulted 0 false (beginCommand s)) :=
  ⟨⟨rfl, rfl, rfl, rfl⟩, ⟨rfl, rfl, rfl⟩, rfl, rfl, rfl, fun _ => rfl, rfl,
    outside_respond _ _ _ (beginCommand s)⟩

/-- The acceptance check for a recorded fault comes before what the command is or needs, INIT's
included. -/
theorem exec_faulted {i : Instr} {s : State} (hi : isCommand i = true)
    (hb : s.store.busy = false) (hf : s.store.fault ≠ 0) :
    exec i s = .next (respond codeFaulted 0 false (beginCommand s)) := by
  cases i with
  | rx b => cases hi
  | init r now => exact accept_faulted (trap := none) (body := runInit r now) hb hf
  | advance _ | check _ | add _ _ | clear => exact accept_faulted hb hf

theorem offerIllegal_faulted {s : State} (hb : s.store.busy = false) (hf : s.store.fault ≠ 0) :
    offerIllegal s = .next (respond codeFaulted 0 false (beginCommand s)) := accept_faulted hb hf

/-- Settles O17: commands and illegal words come to the same answer at acceptance, and RX reads nothing
but the decoder. -/
theorem faultStateAnswersFaulted : Obligations.FaultStateAnswersFaulted := fun s hb hf =>
  ⟨fun _ hi => ⟨_, exec_faulted hi hb hf, onlyAnsweredFaulted_respond s⟩,
    ⟨_, offerIllegal_faulted hb hf, onlyAnsweredFaulted_respond s⟩,
    fun _ _ hdec => ⟨_, _, exec_rx_of_dec rfl, exec_rx_of_dec (congrArg _ hdec), rfl, rfl, rfl⟩⟩

end Sys2Proof.Machine
end

section
/-! PROOFS. Round trips between operations and words (30_encoding.md R80-R91): the encoded word has the
layout of its operation, and no other word has it. -/

namespace Sys2Proof

/-- A word's field, given bit by bit. -/
theorem extractLsb'_eq_of_bits {w : CmdWord} {lo n : Nat} {v : BitVec n}
    (h : ∀ k < n, w.getLsbD (lo + k) = v.getLsbD k) : w.extractLsb' lo n = v := by
  apply BitVec.eq_of_getLsbD_eq
  intro k hk
  rw [BitVec.getLsbD_extractLsb', h k hk]
  simp [hk]

/-- An encoded command has the command's layout (30_encoding.md R86-R90). -/
theorem hasLayout_of_encode {i : Instr} {w : CmdWord} (h : encode i = .cmdWord w) :
    HasLayout w i := by
  cases i with
  | rx b => cases h
  | init r now =>
    injection h with h
    subst h
    refine ⟨Laws.EncodedWord.op_init r now, ?_, ?_, ?_, ?_⟩
    · simp only [BitVec.getLsbD_append]
      simp
    all_goals
      refine extractLsb'_eq_of_bits fun k hk => ?_
      simp only [BitVec.getLsbD_append]
      grind
  | advance now =>
    injection h with h
    subst h
    refine ⟨Laws.EncodedWord.op_advance now, ?_, ?_, ?_⟩
    all_goals
      refine extractLsb'_eq_of_bits fun k hk => ?_
      simp only [BitVec.getLsbD_append]
      grind
  | check id =>
    injection h with h
    subst h
    refine ⟨Laws.EncodedWord.op_check id.toField, ?_, ?_, ?_⟩
    all_goals
      refine extractLsb'_eq_of_bits fun k hk => ?_
      simp only [BitVec.getLsbD_append]
      grind
  | add id interval =>
    injection h with h
    subst h
    refine ⟨Laws.EncodedWord.op_add interval id.toField, ?_, ?_, ?_⟩
    all_goals
      refine extractLsb'_eq_of_bits fun k hk => ?_
      simp only [BitVec.getLsbD_append]
      grind
  | clear =>
    injection h with h
    subst h
    exact ⟨rfl, rfl⟩

/-- Settles O2: RX's byte is its encoding, and the word of a command has the layout the decoder reads. -/
theorem encodedOperationDecodesBack : Obligations.EncodedOperationDecodesBack := by
  intro i _
  cases i with
  | rx b => rfl
  | init _ _ | advance _ | check _ | add _ _ | clear =>
    exact decodeCmd_of_hasLayout (hasLayout_of_encode rfl)

/-- A layout's fields fill the word, so a command has one word. -/
theorem eq_of_hasLayout {u v : CmdWord} {i : Instr} (hu : HasLayout u i) (hv : HasLayout v i) :
    u = v := by
  cases i with
  | rx b => exact hu.elim
  | init r now =>
    obtain ⟨uop, ur, umid, unow, utop⟩ := hu
    obtain ⟨vop, vr, vmid, vnow, vtop⟩ := hv
    have hbit : u.extractLsb' 4 1 = v.extractLsb' 4 1 := extractLsb'_eq_iff.2 fun k hk => by
      obtain rfl : k = 0 := by omega
      exact ur.trans vr.symm
    exact (eq_iff_fieldsAgree (widths := [4, 1, 11, 32, 16]) rfl).2
      ⟨uop.trans vop.symm, hbit, umid.trans vmid.symm, unow.trans vnow.symm,
        utop.trans vtop.symm, trivial⟩
  | advance now =>
    obtain ⟨uop, umid, unow, utop⟩ := hu
    obtain ⟨vop, vmid, vnow, vtop⟩ := hv
    exact (eq_iff_fieldsAgree (widths := [4, 12, 32, 16]) rfl).2
      ⟨uop.trans vop.symm, umid.trans vmid.symm, unow.trans vnow.symm, utop.trans vtop.symm,
        trivial⟩
  | check _ | add _ _ =>
    obtain ⟨uop, umid, uid, utop⟩ := hu
    obtain ⟨vop, vmid, vid, vtop⟩ := hv
    exact (eq_iff_fieldsAgree (widths := [4, 12, 40, 8]) rfl).2
      ⟨uop.trans vop.symm, umid.trans vmid.symm, uid.trans vid.symm, utop.trans vtop.symm, trivial⟩
  | clear =>
    obtain ⟨uop, utop⟩ := hu
    obtain ⟨vop, vtop⟩ := hv
    exact (eq_iff_fieldsAgree (widths := [4, 60]) rfl).2
      ⟨uop.trans vop.symm, utop.trans vtop.symm, trivial⟩

/-- Settles O3: the word and the encoding of what it decodes to have one layout, so they are equal. -/
theorem decodedWordEncodesBack : Obligations.DecodedWordEncodesBack := by
  intro p i h
  cases p with
  | rxByte b =>
    injection h with h
    subst h
    rfl
  | cmdWord w =>
    have hw := hasLayout_of_decodeCmd h
    cases i with
    | rx b => exact hw.elim
    | init _ _ | advance _ | check _ | add _ _ | clear =>
      exact congrArg PortWord.cmdWord (eq_of_hasLayout (hasLayout_of_encode rfl) hw)

/-- Settles O1, by evaluating the decoder on each word. -/
theorem specWordsDecode : Obligations.SpecWordsDecode := by
  unfold Obligations.SpecWordsDecode
  decide

end Sys2Proof
end

section
/-! PROOFS. Everything a command can do with its NV accesses, said once (20_memory.md R58-R60): each
phase completes, fails or waits after some of its accesses, or has an access outside the NV byte space. -/

namespace Sys2Proof.Machine

/-! ### The registers that accesses leave alone -/

/-- `t` is `s` but for the contents of the NV byte space and of the slots, the NV port, the draw counter
and the samples still to come. -/
structure SameRegisters (s t : State) : Prop where
  cfg : t.cfg = s.cfg
  dec : t.dec = s.dec
  resetSeen : t.resetSeen = s.resetSeen
  inputs : t.inputs = s.inputs
  nvRest : t.nvRest = s.nvRest
  initialized : t.store.initialized = s.store.initialized
  fault : t.store.fault = s.store.fault
  busy : t.store.busy = s.store.busy
  nowReg : t.store.nowReg = s.store.nowReg
  numEntries : t.store.numEntries = s.store.numEntries
  inFlight : t.store.inFlight = s.store.inFlight
  tableLength : t.store.table.length = s.store.table.length

theorem SameRegisters.refl (s : State) : SameRegisters s s := by constructor <;> rfl

theorem SameRegisters.trans {s t u : State} (h : SameRegisters s t) (h' : SameRegisters t u) :
    SameRegisters s u where
  cfg := h'.cfg.trans h.cfg
  dec := h'.dec.trans h.dec
  resetSeen := h'.resetSeen.trans h.resetSeen
  inputs := h'.inputs.trans h.inputs
  nvRest := h'.nvRest.trans h.nvRest
  initialized := h'.initialized.trans h.initialized
  fault := h'.fault.trans h.fault
  busy := h'.busy.trans h.busy
  nowReg := h'.nowReg.trans h.nowReg
  numEntries := h'.numEntries.trans h.numEntries
  inFlight := h'.inFlight.trans h.inFlight
  tableLength := h'.tableLength.trans h.tableLength

theorem SameButPort.registers {s t : State} (h : SameButPort s t) : SameRegisters s t where
  cfg := h.cfg
  dec := h.dec
  resetSeen := h.resetSeen
  inputs := h.inputs
  nvRest := h.nvRest
  initialized := h.initialized
  fault := h.fault
  busy := h.busy
  nowReg := h.nowReg
  numEntries := h.numEntries
  inFlight := h.inFlight
  tableLength := congrArg List.length h.table

theorem sameRegisters_performAccess (a : Access) (s : State) :
    SameRegisters s (performAccess a s) := by
  constructor <;> simp

theorem sameRegisters_landAccess (a : Access) (v : Byte) (s : State) :
    SameRegisters s (landAccess a v s) := by
  cases a with
  | write b w => exact .refl s
  | readCount => exact .refl s
  | readEntry k i => constructor <;> simp [landAccess]

theorem sameRegisters_applyAccess (a : Access) (s : State) : SameRegisters s (applyAccess a s) :=
  (sameRegisters_performAccess a s).trans (sameRegisters_landAccess a _ _)

theorem sameRegisters_applyAll (todo : List Access) : ∀ s : State,
    SameRegisters s (applyAll todo s) := by
  induction todo with
  | nil => exact .refl
  | cons a rest ih => exact fun s => (sameRegisters_applyAccess a s).trans (ih _)

theorem SameRegisters.outside {s t : State} (h : SameRegisters s t) : OutsideStoreKept s t :=
  ⟨h.cfg, h.dec, h.resetSeen, h.inputs, h.nvRest⟩

theorem SameRegisters.control {s t : State} (h : SameRegisters s t) : ControlKept s t :=
  ⟨h.initialized, h.fault, h.nowReg⟩

/-! ### One list of accesses -/

/-- The port when a list of accesses is begun: free, or with the first of them outstanding on it. -/
def PortReady (p : NvPort) (todo : List Access) : Prop :=
  p.req = false ∨ ∃ a rest, todo = a :: rest ∧ PortShows p a

/-- The state in which a command fails: some of its accesses are done, and the failed one has landed or
not (20_memory.md R60). -/
def FailsAt (todo : List Access) (j : Nat) (landed : Bool) (s t : State) : Prop :=
  ∃ a, todo[j]? = some a ∧
    SameButPort (if landed then performAccess a (applyAll (todo.take j) s)
      else applyAll (todo.take j) s) t

/-- The state in which a command waits: some of its accesses are done, and the port shows the next
one. -/
def WaitsAt (todo : List Access) (j : Nat) (s t : State) : Prop :=
  SameButPort (applyAll (todo.take j) s) t ∧ ∃ a, todo[j]? = some a ∧
    (PortReady s.store.port todo → PortShows t.store.port a)

/-- Everything a list of accesses can come to. -/
inductive DriveEnd (job : Job) (todo : List Access) (last : Byte) (s : State) : Driven → Prop
  | absent (a : Access) (ha : a ∈ todo) (hout : s.cfg.totalBytes ≤ accessAddr a) :
    DriveEnd job todo last s (.stopped (.fault .nvAddressAbsent))
  | completed (t : State) (h : SameButPort (applyAll todo s) t)
    (hport : PortReady s.store.port todo → t.store.port.req = false) :
    DriveEnd job todo last s (.done (lastRead todo last s) t)
  | failed (j : Nat) (landed : Bool) (t : State) (h : FailsAt todo j landed s t) :
    DriveEnd job todo last s (.stopped (.next (raiseFault codeNvFault t)))
  | waiting (j : Nat) (t : State) (h : WaitsAt todo j s t) :
    DriveEnd job todo last s (.stopped (.next (park job (todo.drop j) t)))

/-- The last byte read depends only on what `SameButPort` keeps. -/
theorem SameButPort.lastRead {s t : State} (h : SameButPort s t) (todo : List Access) (last : Byte) :
    lastRead todo last t = lastRead todo last s := by
  induction todo generalizing last s t with
  | nil => rfl
  | cons a rest ih =>
    rw [Machine.lastRead, Machine.lastRead, h.readNv]
    exact ih (h.applyAccess a) _

/-- After an acknowledged access the rest of the list goes on from a state with a free port. -/
theorem driveEnd_cons {job : Job} {a : Access} {rest : List Access} {last : Byte} {s s' : State}
    {r : Driven} (hs : SameButPort (applyAccess a s) s') (hfree : s'.store.port.req = false)
    (h : DriveEnd job rest (readNv s (accessAddr a)) s' r) :
    DriveEnd job (a :: rest) last s r := by
  cases h with
  | absent b hb hout =>
    refine .absent b (List.mem_cons_of_mem a hb) ?_
    rwa [hs.cfg, applyAccess_cfg] at hout
  | completed t h hport =>
    rw [hs.lastRead]
    exact .completed t ((hs.applyAll rest).trans h) fun _ => hport (.inl hfree)
  | failed j landed t h =>
    obtain ⟨b, hb, h⟩ := h
    refine .failed (j + 1) landed t ⟨b, hb, ?_⟩
    have hpre : SameButPort (applyAll ((a :: rest).take (j + 1)) s) (applyAll (rest.take j) s') :=
      hs.applyAll (rest.take j)
    cases landed with
    | false => exact hpre.trans h
    | true => exact (hpre.performAccess b).trans h
  | waiting j t h =>
    obtain ⟨h, b, hb, hshows⟩ := h
    exact .waiting (j + 1) t ⟨(hs.applyAll (rest.take j)).trans h, b, hb,
      fun _ => hshows (.inl hfree)⟩

/-- A requested access is on the port: it was already, or it is now. -/
theorem portShows_issue {a : Access} {rest : List Access} {s : State}
    (h : PortReady s.store.port (a :: rest)) : PortShows (issue a s).store.port a := by
  obtain hfree | ⟨b, l, hl, hshows⟩ := h
  · have : (issue a s).store.port = drivenPort s.store.draws a := by simp [issue, hfree]
    rw [this]
    exact portShows_drivenPort _ a
  · injection hl with hb
    subst hb
    have hreq : s.store.port.req = true := by cases a <;> exact hshows.1
    rwa [show issue a s = s by simp [issue, hreq]]

/-- Everything `drive` can do, whatever the responder answers. -/
theorem driveEnd_drive (job : Job) (todo : List Access) : ∀ (last : Byte) (s : State),
    DriveEnd job todo last s (drive job todo last s) := by
  induction todo with
  | nil =>
    intro last s
    refine .completed s (.refl s) fun h => ?_
    obtain hfree | ⟨a, rest, hnil, -⟩ := h
    · exact hfree
    · cases hnil
  | cons a rest ih =>
    intro last s
    have hsampled := sameButPort_sampled a s
    rw [drive]
    rcases access_cases a s with ⟨hout, h⟩ | ⟨-, -, h⟩ | ⟨-, -, -, h⟩ | ⟨-, -, -, h⟩ <;> rw [h]
    · exact .absent a List.mem_cons_self hout
    · refine .failed 0 (nextSample (issue a s)).1.landed _ ⟨a, rfl, ?_⟩
      cases (nextSample (issue a s)).1.landed with
      | false => exact hsampled.trans (sameButPort_release _)
      | true => exact (hsampled.performAccess a).trans (sameButPort_release _)
    · exact driveEnd_cons (sameButPort_acked a s) (by simp) (ih _ _)
    · exact .waiting 0 _ ⟨hsampled, a, rfl, portShows_issue⟩

/-! ### A command's phase -/

/-- Everything a phase of a command can come to: as its accesses do, and with all of them complete it
concludes. -/
inductive RunEnd (job : Job) (todo : List Access) (s : State) : Result → Prop
  | absent (a : Access) (ha : a ∈ todo) (hout : s.cfg.totalBytes ≤ accessAddr a) :
    RunEnd job todo s (.fault .nvAddressAbsent)
  | completed (t : State) (h : SameButPort (applyAll todo s) t)
    (hport : PortReady s.store.port todo → t.store.port.req = false) :
    RunEnd job todo s (conclude job (lastRead todo 0 s) t)
  | failed (j : Nat) (landed : Bool) (t : State) (h : FailsAt todo j landed s t) :
    RunEnd job todo s (.next (raiseFault codeNvFault t))
  | waiting (j : Nat) (t : State) (h : WaitsAt todo j s t) :
    RunEnd job todo s (.next (park job (todo.drop j) t))

theorem runEnd_runJob (job : Job) (todo : List Access) (s : State) :
    RunEnd job todo s (runJob job todo s) := by
  unfold runJob
  have hend := driveEnd_drive job todo 0 s
  generalize drive job todo 0 s = r at hend
  cases hend with
  | absent a ha hout => exact .absent a ha hout
  | completed t h hport => exact .completed t h hport
  | failed j landed t h => exact .failed j landed t h
  | waiting j t h => exact .waiting j t h

/-- INIT's reads of the entries are a phase of their own (41_store_commands.md R150, R151). -/
theorem loadEntries_eq (now : Millis) (n : Byte) (s : State) :
    loadEntries now n s =
      if s.cfg.capacity < n.toNat then .next (raiseFault codeLoadFault s)
      else runJob (.initEntries now n) (loadReads 0 n.toNat) s := by
  unfold loadEntries runJob
  split
  · rfl
  · cases drive (.initEntries now n) (loadReads 0 n.toNat) 0 s <;> rfl

theorem FailsAt.registers {todo : List Access} {j : Nat} {landed : Bool} {s t : State}
    (h : FailsAt todo j landed s t) : SameRegisters s t := by
  obtain ⟨a, -, h⟩ := h
  have hpre := sameRegisters_applyAll (todo.take j) s
  cases landed with
  | false => exact hpre.trans h.registers
  | true => exact (hpre.trans (sameRegisters_performAccess a _)).trans h.registers

theorem sameRegisters_of_applied {l : List Access} {s t : State}
    (h : SameButPort (applyAll l s) t) : SameRegisters s t :=
  (sameRegisters_applyAll l s).trans h.registers

end Sys2Proof.Machine
end

section
/-! PROOFS. Everything a step can be: a reset edge, a loss of power, or the two agents' parts of a cycle,
in which the store ticks or a command is accepted (41_store_commands.md R140). -/

namespace Sys2Proof.Machine

/-- What a command does once it is accepted (41_store_commands.md R150-R175). RX is none. -/
def commandBody : Instr → State → Result
  | .rx _ => .next
  | .init r now => runInit r now
  | .advance now => runAdvance now
  | .check id => runCheck id
  | .add id interval => runAdd id interval
  | .clear => runClear

/-- The fault that stops a command at acceptance: only INIT is legal before INIT (41_store_commands.md
R140). -/
def commandTrap : Instr → State → Option (BitVec 4)
  | .init _ _ => fun _ => none
  | _ => initTrap

theorem exec_eq_accept {i : Instr} (hi : isCommand i = true) (s : State) :
    exec i s = accept (commandTrap i s) (commandBody i) s := by
  cases i with
  | rx b => cases hi
  | init _ _ | advance _ | check _ | add _ _ | clear => rfl

theorem commandTrap_eq_initTrap {i : Instr} (hi : ∀ r now, i ≠ .init r now) :
    commandTrap i = initTrap := by
  cases i with
  | init r now => exact absurd rfl (hi r now)
  | rx _ | advance _ | check _ | add _ _ | clear => rfl

theorem commandTrap_eq_some {i : Instr} {s : State} {code : BitVec 4}
    (h : commandTrap i s = some code) : code = codeNotInit := by
  cases i with
  | init r now => cases h
  | rx _ | advance _ | check _ | add _ _ | clear =>
    change initTrap s = some code at h
    unfold initTrap at h
    split at h
    · cases h
    · exact (Option.some.inj h).symm

theorem initialized_of_commandTrap {i : Instr} {s : State} (h : commandTrap i s = none)
    (hi : ∀ r now, i ≠ .init r now) : s.store.initialized = true := by
  rw [commandTrap_eq_initTrap hi] at h
  by_contra hne
  simp [initTrap, hne] at h

/-- Everything a word can do to the store it is offered to, or a cycle without one; `offers` says which
command the word may be. -/
inductive StoreStep (offers : Instr → Prop) (s : State) : Result → Prop
  | tick : StoreStep offers s (storeTick s)
  | faulted (hb : s.store.busy = false) (hf : s.store.fault ≠ 0) :
    StoreStep offers s (.next (respond codeFaulted 0 false (beginCommand s)))
  | trapped (h : Ready s) (code : BitVec 4) (hc : code = codeIllegalCmd ∨ code = codeNotInit) :
    StoreStep offers s (.next (raiseFault code (beginCommand s)))
  | runs (h : Ready s) (i : Instr) (hi : isCommand i = true) (hoffer : offers i)
    (htrap : commandTrap i s = none) : StoreStep offers s (commandBody i (beginCommand s))

theorem storeStep_exec {offers : Instr → Prop} {i : Instr} (hi : isCommand i = true)
    (hoffer : offers i) (s : State) : StoreStep offers s (exec i s) := by
  rw [exec_eq_accept hi]
  rcases accept_cases (commandTrap i s) (commandBody i) s with
    ⟨-, h⟩ | ⟨hb, hf, h⟩ | ⟨hr, c, hc, h⟩ | ⟨hr, htrap, h⟩ <;> rw [h]
  · exact .tick
  · exact .faulted hb hf
  · exact .trapped hr c (.inr (commandTrap_eq_some hc))
  · exact .runs hr i hi hoffer htrap

theorem storeStep_offerIllegal (offers : Instr → Prop) (s : State) :
    StoreStep offers s (offerIllegal s) := by
  unfold offerIllegal
  rcases accept_cases (some codeIllegalCmd) .next s with
    ⟨-, h⟩ | ⟨hb, hf, h⟩ | ⟨hr, c, hc, h⟩ | ⟨-, hnone, -⟩
  · rw [h]; exact .tick
  · rw [h]; exact .faulted hb hf
  · rw [h]; exact .trapped hr c (.inl (Option.some.inj hc).symm)
  · cases hnone

/-- The store's part of a cycle offers the command its word decodes to. -/
theorem storeStep_cycleStore (cmd : Option CmdWord) (s : State) :
    StoreStep (fun i => ∃ w, cmd = some w ∧ decodeCmd w = .ok i) s (cycleStore cmd s) := by
  cases cmd with
  | none => exact .tick
  | some w =>
    cases hw : decodeCmd w with
    | error e =>
      rw [cycleStore_illegal hw]
      exact storeStep_offerIllegal _ s
    | ok i =>
      rw [show cycleStore (some w) s = exec i s by simp [cycleStore, decode, hw]]
      exact storeStep_exec (isCommand_of_decodeCmd hw) ⟨w, rfl, hw⟩ s

/-- The next entry of the schedule is `i`, and `rest` is left (log entry 2). -/
def NextInput (s : State) (i : Input) (rest : List Input) : Prop :=
  s.inputs = i :: rest ∨ (s.inputs = [] ∧ i = .cycle none none ∧ rest = [])

theorem takeInput_of_nextInput {s : State} {i : Input} {rest : List Input}
    (h : NextInput s i rest) : takeInput s = (i, { s with inputs := rest }) := by
  obtain hin | ⟨hin, rfl, rfl⟩ := h
  · simp [takeInput, hin]
  · simp only [takeInput, hin]
    rw [← hin]

theorem exists_nextInput (s : State) : ∃ i rest, NextInput s i rest := by
  cases hin : s.inputs with
  | nil => exact ⟨_, _, .inr ⟨hin, rfl, rfl⟩⟩
  | cons i rest => exact ⟨i, rest, .inl hin⟩

/-- Everything a step can be: a loss of power, a reset edge, a cycle before the first reset edge, or the
two agents' parts of a cycle. -/
theorem step_cases {s t : State} (h : step s = .next t) : ∃ i rest, NextInput s i rest ∧
    ((∃ landed, i = .powerLoss landed ∧ t = losePower landed { s with inputs := rest }) ∨
    (∃ rx cmd landed, i = .reset rx cmd landed ∧ t = hardReset landed { s with inputs := rest }) ∨
    (∃ rx cmd, i = .cycle rx cmd ∧ s.resetSeen = false ∧
      t = unpoweredCycle { s with inputs := rest }) ∨
    (∃ rx cmd d, i = .cycle rx cmd ∧ s.resetSeen = true ∧
      cycleStore cmd { s with inputs := rest, dec := d } = .next t)) := by
  obtain ⟨i, rest, hnext⟩ := exists_nextInput s
  refine ⟨i, rest, hnext, ?_⟩
  rw [step_of_wellFormed (wellFormed_of_step h), takeInput_of_nextInput hnext] at h
  cases i with
  | powerLoss landed =>
    injection h with h
    exact .inl ⟨landed, rfl, h.symm⟩
  | reset rx cmd landed =>
    injection h with h
    exact .inr (.inl ⟨rx, cmd, landed, rfl, h.symm⟩)
  | cycle rx cmd =>
    by_cases hseen : s.resetSeen = true
    · obtain ⟨d, hd⟩ := cycleDecoder_next rx { s with inputs := rest }
      rw [applyInput_cycle (s := { s with inputs := rest }) hseen, hd] at h
      exact .inr (.inr (.inr ⟨rx, cmd, d, rfl, hseen, h⟩))
    · rw [applyInput_cycle_unpowered (s := { s with inputs := rest }) hseen] at h
      injection h with h
      exact .inr (.inr (.inl ⟨rx, cmd, rfl, by simpa using hseen, h.symm⟩))

end Sys2Proof.Machine
end

section
/-! PROOFS. A scheme for what commands keep: what holds between a command's accesses gives what holds in
the state its step ends in. -/

namespace Sys2Proof.Machine

/-- `Q job todo` holds while a phase with the accesses `todo` still to make is under way; `P` holds of the
state in which the step ends. -/
structure KeptByPhases (Q : Job → List Access → State → Prop) (P : State → Prop) : Prop where
  port : ∀ {job todo s t}, SameButPort s t → Q job todo s → Q job todo t
  access : ∀ {job a rest s}, Q job (a :: rest) s → Q job rest (applyAccess a s)
  fails : ∀ {job a rest s t} {landed : Bool}, Q job (a :: rest) s →
    SameButPort (if landed then performAccess a s else s) t → P (raiseFault codeNvFault t)
  waits : ∀ {job a rest s}, Q job (a :: rest) s → PortShows s.store.port a →
    P (park job (a :: rest) s)
  completes : ∀ {job last s t}, Q job [] s → (∀ now, job ≠ .initCount now) →
    conclude job last s = .next t → P t
  refuses : ∀ {now s}, Q (.initCount now) [.readCount] s → P (raiseFault codeLoadFault s)
  loads : ∀ {now s}, Q (.initCount now) [.readCount] s →
    (readNv s countAddr).toNat ≤ s.cfg.capacity →
    Q (.initEntries now (readNv s countAddr)) (loadReads 0 (readNv s countAddr).toNat) s

/-- What is left of a list from an element on. -/
theorem drop_eq_cons {todo : List Access} {j : Nat} {a : Access} (h : todo[j]? = some a) :
    todo.drop j = a :: todo.drop (j + 1) := by
  obtain ⟨hj, rfl⟩ := List.getElem?_eq_some_iff.1 h
  exact List.drop_eq_getElem_cons hj

namespace KeptByPhases

variable {Q : Job → List Access → State → Prop} {P : State → Prop}

/-- The first accesses done, the others still to make. -/
theorem after (k : KeptByPhases Q P) {job : Job} : ∀ {j : Nat} {todo : List Access} {s : State},
    Q job todo s → Q job (todo.drop j) (applyAll (todo.take j) s)
  | 0, _, _, h => h
  | _ + 1, [], _, h => h
  | j + 1, _ :: _, _, h => k.after (j := j) (k.access h)

/-- A phase whose conclusion, if it comes to that, is good. -/
theorem runJob_of_conclude (k : KeptByPhases Q P) {job : Job} {todo : List Access} {s t : State}
    (hQ : Q job todo s) (hport : PortReady s.store.port todo)
    (hdone : ∀ u, SameButPort (applyAll todo s) u → u.store.port.req = false →
      conclude job (lastRead todo 0 s) u = .next t → P t)
    (h : runJob job todo s = .next t) : P t := by
  have hend := runEnd_runJob job todo s
  rw [h] at hend
  generalize hr : (.next t : Result) = r at hend
  cases hend with
  | absent a ha hout => cases hr
  | completed u hu hfree => exact hdone u hu (hfree hport) hr.symm
  | failed j landed u hu =>
    obtain ⟨a, ha, hu⟩ := hu
    injection hr with hr
    have hat := k.after (j := j) hQ
    rw [drop_eq_cons ha] at hat
    rw [hr]
    exact k.fails hat hu
  | waiting j u hu =>
    obtain ⟨hu, a, ha, hshows⟩ := hu
    injection hr with hr
    have hat := k.after (j := j) hQ
    rw [drop_eq_cons ha] at hat
    rw [hr, drop_eq_cons ha]
    exact k.waits (k.port hu hat) (hshows hport)

/-- A phase other than the read of the count. -/
theorem runPhase (k : KeptByPhases Q P) {job : Job} {todo : List Access} {s t : State}
    (hjob : ∀ now, job ≠ .initCount now) (hQ : Q job todo s) (hport : PortReady s.store.port todo)
    (h : runJob job todo s = .next t) : P t := by
  have hall := k.after (j := todo.length) hQ
  rw [List.drop_length, List.take_length] at hall
  exact k.runJob_of_conclude hQ hport (fun _ hu _ => k.completes (k.port hu hall) hjob) h

/-- The read of the count, and the reads of the entries that follow it (41_store_commands.md R150,
R151). -/
theorem runCount (k : KeptByPhases Q P) {now : Millis} {s t : State}
    (hQ : Q (.initCount now) [.readCount] s) (hport : PortReady s.store.port [.readCount])
    (h : runJob (.initCount now) [.readCount] s = .next t) : P t := by
  refine k.runJob_of_conclude hQ hport (fun u hu hfree hdone => ?_) h
  have hQu := k.port hu hQ
  have hread : lastRead [.readCount] 0 s = readNv u countAddr := (hu.readNv countAddr).symm
  rw [hread, conclude, loadEntries_eq] at hdone
  split at hdone
  · injection hdone with hdone
    rw [← hdone]
    exact k.refuses hQu
  · exact k.runPhase (fun _ hjob => by cases hjob) (k.loads hQu (by omega)) (.inl hfree) hdone

/-- Any phase. -/
theorem runJob (k : KeptByPhases Q P) {job : Job} {todo : List Access} {s t : State}
    (hcount : ∀ now, job = .initCount now → todo = [.readCount]) (hQ : Q job todo s)
    (hport : PortReady s.store.port todo) (h : Machine.runJob job todo s = .next t) : P t := by
  by_cases hjob : ∃ now, job = .initCount now
  · obtain ⟨now, rfl⟩ := hjob
    obtain rfl := hcount now rfl
    exact k.runCount hQ hport h
  · exact k.runPhase (fun now hnow => hjob ⟨now, hnow⟩) hQ hport h

end KeptByPhases
end Sys2Proof.Machine
end

section
/-! PROOFS. `Inv` over every step (10_state.md R24, R27, R28, 20_memory.md R57-R59): what a command keeps
between its accesses, what each command has when it is accepted, reset and loss of power. -/

namespace Sys2Proof.Machine

/-! ### Between a command's accesses -/

/-- The part of `Inv` that does not speak of a command in progress. -/
structure Consistent (s : State) : Prop where
  build : s.cfg.wellFormed = true
  tableLength : s.store.table.length = s.cfg.capacity
  nvCanonical : Memory.wf s.cfg s.nv = true
  count : s.store.numEntries.toNat ≤ s.cfg.capacity
  faultCode : s.store.fault ∈ faultCodes
  baselines : s.store.initialized = true → BaselinesOk s.store

/-- A command under way, with the accesses `todo` of its phase still to make. -/
structure Running (job : Job) (todo : List Access) (s : State) : Prop extends Consistent s where
  noFault : s.store.fault = 0
  left : todo <:+ jobAccesses s.store job
  jobOk : JobOk s.cfg s.store todo job

theorem Inv.consistent {s : State} (h : Inv s) (hs : s.resetSeen = true) : Consistent s where
  build := h.build
  tableLength := h.tableLength
  nvCanonical := h.nvCanonical
  count := (h.running hs).count
  faultCode := (h.running hs).faultCode
  baselines := (h.running hs).baselines

theorem Inv.not_inFlight {s : State} (h : Inv s) (hs : s.resetSeen = true)
    (hb : s.store.busy = false) : s.store.inFlight = none := by
  simpa [hb] using (h.running hs).busyIff.symm

theorem Inv.port_free {s : State} (h : Inv s) (hs : s.resetSeen = true)
    (hb : s.store.busy = false) : s.store.port.req = false := by
  rw [(h.running hs).reqIff, h.not_inFlight hs hb]
  rfl

theorem InFlightOk.portReady {cfg : Config} {st : Store} {f : InFlight} (h : InFlightOk cfg st f) :
    PortReady st.port f.todo := .inr h.2.2

theorem InFlightOk.todo_of_initCount {cfg : Config} {st : Store} {f : InFlight}
    (h : InFlightOk cfg st f) {now : Millis} (hf : f.job = .initCount now) :
    f.todo = [.readCount] := todo_eq_single h (by rw [hf]; rfl)

/-- A command in progress is under way. -/
theorem Inv.runs {s : State} {f : InFlight} (h : Inv s) (hs : s.resetSeen = true)
    (hf : s.store.inFlight = some f) : Running f.job f.todo s := by
  obtain ⟨-, ⟨hleft, hok, -⟩, -, -, -, hfault⟩ := storeTick_resumes h hs hf
  exact { h.consistent hs with noFault := hfault, left := hleft, jobOk := hok }

theorem Running.addr_le {job : Job} {todo : List Access} {s : State} (h : Running job todo s) :
    ∀ a ∈ todo, accessAddr a ≤ 6 * s.cfg.capacity :=
  fun a ha => accessAddr_jobAccesses h.count h.jobOk a (h.left.subset ha)

theorem Running.addr_lt {job : Job} {todo : List Access} {s : State} (h : Running job todo s) :
    ∀ a ∈ todo, accessAddr a < s.cfg.totalBytes := fun a ha => by
  have := h.addr_le a ha
  have := capacity_bounds h.build
  omega

theorem Consistent.congr {s t : State} (h : SameButPort s t) (hs : Consistent s) :
    Consistent t where
  build := by rw [h.cfg]; exact hs.build
  tableLength := by rw [h.cfg, h.table]; exact hs.tableLength
  nvCanonical := by rw [h.cfg, h.nv]; exact hs.nvCanonical
  count := by rw [h.cfg, h.numEntries]; exact hs.count
  faultCode := by rw [h.fault]; exact hs.faultCode
  baselines hinit := (hs.baselines (by rwa [h.initialized] at hinit)).congr h.numEntries h.table h.nowReg

/-- What a phase's accesses are depends only on the table and the count. -/
theorem jobAccesses_congr {st st' : Store} (ht : st'.table = st.table)
    (hn : st'.numEntries = st.numEntries) (job : Job) : jobAccesses st' job = jobAccesses st job := by
  cases job <;> simp [jobAccesses, slot, ht, hn]

theorem JobOk.congr {cfg : Config} {st st' : Store} {todo : List Access} {job : Job}
    (h : JobOk cfg st todo job) (ht : st'.table = st.table) (hn : st'.numEntries = st.numEntries)
    (hi : st'.initialized = st.initialized) : JobOk cfg st' todo job := by
  cases job with
  | initEmpty _ | initCount _ => trivial
  | initEntries _ _ | add _ _ | clear => simpa [JobOk, slot, ht, hn, hi] using h

theorem Running.congr {job : Job} {todo : List Access} {s t : State} (h : SameButPort s t)
    (hs : Running job todo s) : Running job todo t where
  toConsistent := hs.toConsistent.congr h
  noFault := h.fault.trans hs.noFault
  left := by rw [jobAccesses_congr h.table h.numEntries]; exact hs.left
  jobOk := by rw [h.cfg]; exact hs.jobOk.congr h.table h.numEntries h.initialized

theorem Consistent.performAccess {s : State} {a : Access} (h : Consistent s)
    (ha : accessAddr a < s.cfg.totalBytes) : Consistent (performAccess a s) where
  build := by simpa using h.build
  tableLength := by simpa using h.tableLength
  nvCanonical := by rw [performAccess_cfg]; exact wf_performAccess h.nvCanonical ha
  count := by simpa using h.count
  faultCode := by simpa using h.faultCode
  baselines := by simpa using h.baselines

/-- What a job relies on does not mind an access that reads no entry byte. -/
theorem JobOk.tail {cfg : Config} {st : Store} {a : Access} {rest : List Access} {job : Job}
    (h : JobOk cfg st (a :: rest) job) (ha : ∀ k i, a ≠ .readEntry k i) :
    JobOk cfg st rest job := by
  cases job with
  | initEntries now n =>
    obtain ⟨hn, hread⟩ := h
    refine ⟨hn, fun k hk hmem => hread k hk fun hcons => ?_⟩
    obtain heq | hrest := List.mem_cons.1 hcons
    · exact ha k 5 heq.symm
    · exact hmem hrest
  | initEmpty _ | initCount _ | add _ _ | clear => exact h

/-- Only a load reads entry bytes. -/
theorem Running.load_of_readEntry {job : Job} {k i : Nat} {rest : List Access} {s : State}
    (h : Running job (.readEntry k i :: rest) s) :
    ∃ now n, job = .initEntries now n ∧ k < n.toNat ∧ i < 6 ∧ k < s.store.table.length := by
  have hmem : Access.readEntry k i ∈ jobAccesses s.store job := h.left.subset List.mem_cons_self
  cases job with
  | initEntries now n =>
    obtain ⟨k', i', -, hk, hi, heq⟩ := mem_loadReads.1 hmem
    injection heq with hkk hii
    subst hkk hii
    have hn : n.toNat ≤ s.cfg.capacity := h.jobOk.1
    have := h.tableLength
    exact ⟨now, n, rfl, by omega, hi, by omega⟩
  | initEmpty _ | initCount _ | add _ _ | clear => simp [jobAccesses, persistWrites] at hmem

/-- The slots after one byte of an entry has been read. -/
theorem slot_applyAccess_readEntry {s : State} {k : Nat} (hk : k < s.store.table.length) (i j : Nat) :
    slot (applyAccess (.readEntry k i) s).store j =
      if j = k then loadEntryByte (slot s.store k) i (readNv s (entryAddr k i))
      else slot s.store j := slot_setSlot hk _ j

theorem zero_le_millis (x : Millis) : 0 ≤ x := BitVec.le_def.2 (Nat.zero_le _)

/-- A byte read into a slot moves no baseline past the clock: INIT sets baselines to 0. -/
theorem BaselinesOk.readEntry {s : State} {k i : Nat} (h : BaselinesOk s.store)
    (hk : k < s.store.table.length) (hi : i < 6) :
    BaselinesOk (applyAccess (.readEntry k i) s).store := by
  intro j hj
  have hold : (slot s.store j).lastGrant ≤ s.store.nowReg := h j hj
  rw [slot_applyAccess_readEntry hk]
  change _ ≤ s.store.nowReg
  split
  · rename_i hjk
    subst hjk
    rw [(timing_loadEntryByte hi _ _).2]
    split
    · exact zero_le_millis _
    · exact hold
  · exact hold

/-- One access of a command under way. -/
theorem Running.applyAccess {job : Job} {a : Access} {rest : List Access} {s : State}
    (h : Running job (a :: rest) s) : Running job rest (applyAccess a s) := by
  have hleft : rest <:+ jobAccesses s.store job := (List.suffix_cons a rest).trans h.left
  cases a with
  | write b v =>
    exact { h.toConsistent.performAccess (a := .write b v) (h.addr_lt _ List.mem_cons_self) with
      noFault := h.noFault, left := hleft, jobOk := h.jobOk.tail nofun }
  | readCount => exact { h with left := hleft, jobOk := h.jobOk.tail nofun }
  | readEntry k i =>
    obtain ⟨now, n, rfl, hkn, hi, hk⟩ := h.load_of_readEntry
    obtain ⟨hn, hread⟩ := h.jobOk
    refine
      { build := h.build, tableLength := ?_, nvCanonical := h.nvCanonical, count := h.count,
        faultCode := h.faultCode, baselines := fun hinit => (h.baselines hinit).readEntry hk hi,
        noFault := h.noFault, left := hleft, jobOk := ⟨hn, fun j hj hmem => ?_⟩ }
    · exact (sameRegisters_applyAccess _ s).tableLength.trans h.tableLength
    · rw [slot_applyAccess_readEntry hk]
      have hother : Access.readEntry j 5 ≠ .readEntry k i →
          (slot s.store j).carry = sentinelMax ∧ (slot s.store j).lastGrant = 0 := fun hne =>
        hread j hj (List.not_mem_cons_of_ne_of_not_mem hne hmem)
      split
      · rename_i hjk
        subst hjk
        obtain ⟨hcarry, hgrant⟩ := timing_loadEntryByte hi (slot s.store j) (readNv s (entryAddr j i))
        rw [hcarry, hgrant]
        by_cases h5 : 5 = i
        · simp [h5]
        · rw [if_neg h5, if_neg h5]
          exact hother (by simpa using h5)
      · rename_i hjk
        exact hother (by simp [hjk])

/-! ### The states in which a step ends -/

theorem idlePort_addr_lt (cfg : Config) (draw : Nat) : (idlePort cfg draw).addr < 2 ^ cfg.nvAddrW :=
  Nat.mod_lt _ (Nat.two_pow_pos _)

/-- A response ends a command. -/
theorem Consistent.inv_respond {s : State} (h : Consistent s) {code : BitVec 4}
    (hcode : code ∈ responseCodes) (info : Byte) (flag : Bool) : Inv (respond code info flag s) where
  build := h.build
  tableLength := h.tableLength
  nvCanonical := h.nvCanonical
  portWidth := idlePort_addr_lt _ _
  running _ :=
    { count := h.count
      faultCode := h.faultCode
      rspCode := fun _ => hcode
      busyIff := rfl
      reqIff := rfl
      faultIdle := fun _ => rfl
      baselines := h.baselines
      inFlight := nofun }

theorem Consistent.inv_raiseFault {s : State} (h : Consistent s) {code : BitVec 4}
    (hfault : code ∈ faultCodes) (hcode : code ∈ responseCodes) : Inv (raiseFault code s) :=
  Consistent.inv_respond (s := { s with store := { s.store with fault := code } })
    { h with faultCode := hfault, baselines := h.baselines } hcode 0 false

/-- The port's address is the outstanding access's. -/
theorem PortShows.addr {p : NvPort} {a : Access} (h : PortShows p a) : p.addr = accessAddr a := by
  cases a with
  | write b v => exact h.2.2.1
  | readCount => exact h.2.2
  | readEntry k i => exact h.2.2

theorem PortShows.req {p : NvPort} {a : Access} (h : PortShows p a) : p.req = true := by
  cases a <;> exact h.1

/-- A command waits for its next access. -/
theorem Running.inv_park {job : Job} {a : Access} {rest : List Access} {s : State}
    (h : Running job (a :: rest) s) (hport : PortShows s.store.port a) :
    Inv (park job (a :: rest) s) where
  build := h.build
  tableLength := h.tableLength
  nvCanonical := h.nvCanonical
  portWidth := by
    have hlt : accessAddr a < s.cfg.totalBytes := h.addr_lt a List.mem_cons_self
    have := capacity_bounds h.build
    rw [park_store_port, park_cfg, hport.addr]
    omega
  running _ :=
    { count := h.count
      faultCode := h.faultCode
      rspCode := nofun
      busyIff := rfl
      reqIff := hport.req
      faultIdle := fun hne => absurd h.noFault hne
      baselines := h.baselines
      inFlight := by
        rintro _ ⟨⟩
        exact ⟨h.left, h.jobOk, a, rest, rfl, hport⟩ }

/-- The last steps of INIT: every slot below the count has baseline 0. -/
theorem Running.inv_commitInit {job : Job} {s : State} (h : Running job [] s) {n : Byte}
    (hn : n.toNat ≤ s.cfg.capacity) (hslots : ∀ k, k < n.toNat → (slot s.store k).lastGrant = 0)
    (now : Millis) (r : Bool) : Inv (commitInit n now r s) := by
  refine Consistent.inv_respond (s := { s with store :=
    { s.store with numEntries := n, nowReg := now, initialized := true } })
    { h.toConsistent with count := hn, baselines := fun _ k hk => ?_ } (by decide) n r
  exact (hslots k hk).trans_le (zero_le_millis now)

theorem Running.inv_conclude {job : Job} {last : Byte} {s t : State} (h : Running job [] s)
    (hjob : ∀ now, job ≠ .initCount now) (ht : conclude job last s = .next t) : Inv t := by
  cases job with
  | initEmpty now =>
    injection ht with ht
    subst ht
    exact h.inv_commitInit (n := 0) (Nat.zero_le _) (fun k hk => absurd hk k.not_lt_zero) now true
  | initCount now => exact absurd rfl (hjob now)
  | initEntries now n =>
    injection ht with ht
    subst ht
    obtain ⟨hn, hread⟩ := h.jobOk
    exact h.inv_commitInit hn (fun k hk => (hread k hk List.not_mem_nil).2) now false
  | add k evicted =>
    injection ht with ht
    subst ht
    exact h.toConsistent.inv_respond (by decide) _ _
  | clear =>
    injection ht with ht
    subst ht
    exact h.toConsistent.inv_respond (by decide) _ _

/-- The reads of the entries begin with all of them still to make. -/
theorem Running.loads {now : Millis} {todo : List Access} {s : State}
    (h : Running (.initCount now) todo s) {n : Byte} (hn : n.toNat ≤ s.cfg.capacity) :
    Running (.initEntries now n) (loadReads 0 n.toNat) s :=
  { h with
    left := List.suffix_refl _
    jobOk := ⟨hn, fun k hk hmem => absurd (mem_loadReads.2 ⟨k, 5, by omega, by omega, by omega, rfl⟩)
      hmem⟩ }

theorem keptByPhases_inv : KeptByPhases Running Inv where
  port := Running.congr
  access := Running.applyAccess
  fails {job a rest s t landed} h ht := by
    refine Consistent.inv_raiseFault (.congr ht ?_) (by decide) (by decide)
    cases landed with
    | false => exact h.toConsistent
    | true => exact h.toConsistent.performAccess (h.addr_lt a List.mem_cons_self)
  waits := Running.inv_park
  completes := Running.inv_conclude
  refuses h := h.toConsistent.inv_raiseFault (by decide) (by decide)
  loads h hn := h.loads hn

end Sys2Proof.Machine
end

section
/-! PROOFS. `Inv` over every step: what each command has when it is accepted, and the steps (10_state.md
R24, R27, R28, 41_store_commands.md R150-R175, 70_reset_and_hazards.md R230, R231). -/

namespace Sys2Proof.Machine

/-! ### Commands, accepted -/

/-- A command just accepted: no fault is recorded and the port is free. -/
structure Accepted (s : State) : Prop extends Consistent s where
  noFault : s.store.fault = 0
  portFree : s.store.port.req = false

theorem Inv.accepted {s : State} (h : Inv s) (hs : s.resetSeen = true) (hr : Ready s) :
    Accepted (beginCommand s) :=
  { h.consistent hs with noFault := hr.2, portFree := h.port_free hs hr.1 }

theorem Accepted.running_initEmpty {s : State} (h : Accepted s) (now : Millis) :
    Running (.initEmpty now) [.write countAddr 0] s :=
  { h with left := List.suffix_refl _, jobOk := trivial }

theorem Accepted.running_initCount {s : State} (h : Accepted s) (now : Millis) :
    Running (.initCount now) [.readCount] s :=
  { h with left := List.suffix_refl _, jobOk := trivial }

theorem Accepted.running_clear {s : State} (h : Accepted s) (hi : s.store.initialized = true) :
    Running .clear [.write countAddr 0]
      { s with store := { s.store with numEntries := 0 } } :=
  { h with
    count := Nat.zero_le _
    baselines := fun _ k hk => absurd hk k.not_lt_zero
    left := List.suffix_refl _
    jobOk := ⟨hi, rfl⟩ }

theorem Accepted.placeTag_bounds {s : State} (h : Accepted s) (id : TagId) :
    (placeTag s.cfg s.store id).slot < (placeTag s.cfg s.store id).count.toNat ∧
    (placeTag s.cfg s.store id).count.toNat ≤ s.cfg.capacity ∧
    (placeTag s.cfg s.store id).slot < s.store.table.length ∧
    ∀ j, j < (placeTag s.cfg s.store id).count.toNat → j ≠ (placeTag s.cfg s.store id).slot →
      j < s.store.numEntries.toNat :=
  Machine.placeTag_bounds id h.build h.count h.tableLength

theorem Accepted.running_add {s : State} (h : Accepted s) (hi : s.store.initialized = true)
    (id : TagId) (interval : Byte) :
    Running (.add (placeTag s.cfg s.store id).slot (placeTag s.cfg s.store id).evicted)
      (persistWrites (placeTag s.cfg s.store id).slot (addedEntry id interval s.store)
        (placeTag s.cfg s.store id).count)
      { s with store := addToTable (placeTag s.cfg s.store id) id interval s.store } := by
  obtain ⟨hocc, hcount, htable, hbelow⟩ := h.placeTag_bounds id
  have hslot := slot_addToTable htable id interval
  refine
    { build := h.build, tableLength := by simpa [addToTable] using h.tableLength,
      nvCanonical := h.nvCanonical, count := hcount, faultCode := h.faultCode,
      baselines := fun _ j hj => ?_, noFault := h.noFault, left := ?_, jobOk := ⟨hi, hocc⟩ }
  · rw [hslot]
    split
    · exact BitVec.le_refl s.store.nowReg
    · rename_i hne
      exact h.baselines hi j (hbelow j hj hne)
  · rw [jobAccesses, hslot, if_pos rfl]
    exact List.suffix_refl _

/-- A grant writes the clock into a baseline. -/
theorem Consistent.grantSlot {s : State} (h : Consistent s) {id : TagId} {k : Nat}
    (hk : lookup s.store id = some k) :
    Consistent { s with store := grantSlot k s.store } where
  build := h.build
  tableLength := by simpa [Machine.grantSlot] using h.tableLength
  nvCanonical := h.nvCanonical
  count := h.count
  faultCode := h.faultCode
  baselines hinit j hj := by
    rw [Machine.grantSlot, slot_setSlot (lookup_lt hk).2]
    split
    · exact BitVec.le_refl s.store.nowReg
    · exact h.baselines hinit j hj

/-- ADVANCE moves the clock on, or at a wrap the baselines with it. -/
theorem Consistent.advance {s : State} (h : Consistent s) (now : Millis) :
    Consistent { s with store := { s.store with
      table := advanceTable now s.store, nowReg := now } } where
  build := h.build
  tableLength := (length_advanceTable _ now).trans h.tableLength
  nvCanonical := h.nvCanonical
  count := h.count
  faultCode := h.faultCode
  baselines hinit k hk := by
    have hk : k < s.store.numEntries.toNat := hk
    have hlen : k < s.store.table.length := by
      have := h.count
      have := h.tableLength
      omega
    rw [slot_advanceTable]
    by_cases hw : wraps now s.store = true
    · rw [if_pos ⟨hw, hk, hlen⟩]
      exact BitVec.le_refl now
    · rw [if_neg fun hc => hw hc.1]
      have hnow : s.store.nowReg ≤ now := by simpa [wraps] using hw
      exact BitVec.le_trans (h.baselines hinit k hk) hnow

theorem Accepted.inv_commandBody {i : Instr} {s t : State} (h : Accepted s)
    (hi : isCommand i = true) (hinit : (∀ r now, i ≠ .init r now) → s.store.initialized = true)
    (ht : commandBody i s = .next t) : Inv t := by
  cases i with
  | rx b => cases hi
  | init r now =>
    cases r with
    | true => exact keptByPhases_inv.runPhase (by simp) (h.running_initEmpty now) (.inl h.portFree) ht
    | false => exact keptByPhases_inv.runCount (h.running_initCount now) (.inl h.portFree) ht
  | advance now =>
    injection ht with ht
    subst ht
    exact (h.toConsistent.advance now).inv_respond (by decide) _ _
  | check id =>
    simp only [commandBody, runCheck] at ht
    split at ht
    · injection ht with ht
      subst ht
      exact h.toConsistent.inv_respond (by decide) _ _
    · rename_i k hk
      split at ht <;> injection ht with ht <;> subst ht
      · exact (h.toConsistent.grantSlot hk).inv_respond (by decide) _ _
      · exact h.toConsistent.inv_respond (by decide) _ _
  | add id interval =>
    exact keptByPhases_inv.runPhase (by simp) (h.running_add (hinit nofun) id interval)
      (.inl h.portFree) ht
  | clear =>
    exact keptByPhases_inv.runPhase (by simp) (h.running_clear (hinit nofun)) (.inl h.portFree) ht

/-! ### Steps -/

/-- A step in which an idle store accepts nothing. -/
def idleTick (s : State) : State :=
  { s with store := { s.store with
      rsp := noResponse s.store.draws
      port := idlePort s.cfg s.store.draws
      draws := s.store.draws + 1 } }

theorem storeTick_idle {s : State} (hb : s.store.busy = false) :
    storeTick s = .next (idleTick s) := by
  simp [storeTick, hb, idleTick]

theorem Inv.idleTick {s : State} (h : Inv s) (hs : s.resetSeen = true)
    (hb : s.store.busy = false) : Inv (idleTick s) where
  build := h.build
  tableLength := h.tableLength
  nvCanonical := h.nvCanonical
  portWidth := idlePort_addr_lt _ _
  running _ :=
    { h.running hs with
      rspCode := nofun
      reqIff := by
        rw [show (Machine.idleTick s).store.inFlight = none from h.not_inFlight hs hb]
        rfl
      inFlight := fun f hf => by
        rw [show (Machine.idleTick s).store.inFlight = none from h.not_inFlight hs hb] at hf
        cases hf }

/-- What a tick of the store does in a state with the invariant. -/
theorem Inv.storeTick_cases {s : State} (h : Inv s) (hs : s.resetSeen = true) :
    (s.store.busy = false ∧ s.store.inFlight = none ∧ storeTick s = .next (Machine.idleTick s)) ∨
    ∃ f, s.store.inFlight = some f ∧ s.store.busy = true ∧ storeTick s = runJob f.job f.todo s := by
  cases hb : s.store.busy with
  | false => exact .inl ⟨rfl, h.not_inFlight hs hb, storeTick_idle hb⟩
  | true =>
    have hsome := (h.running hs).busyIff
    rw [hb] at hsome
    obtain ⟨f, hf⟩ := Option.isSome_iff_exists.1 hsome.symm
    exact .inr ⟨f, hf, rfl, (storeTick_resumes h hs hf).1⟩

/-- A command in progress goes on: whatever is kept between accesses is kept in the state the tick ends
in. -/
theorem KeptByPhases.resumed {Q : Job → List Access → State → Prop} {P : State → Prop}
    (k : KeptByPhases Q P) {s t : State} {f : InFlight} (h : Inv s) (hs : s.resetSeen = true)
    (hf : s.store.inFlight = some f) (hQ : Q f.job f.todo s)
    (ht : Machine.runJob f.job f.todo s = .next t) : P t := by
  have hok := (h.running hs).inFlight f hf
  exact k.runJob (fun _ => hok.todo_of_initCount) hQ hok.portReady ht

theorem Inv.storeTick {s t : State} (h : Inv s) (hs : s.resetSeen = true)
    (ht : storeTick s = .next t) : Inv t := by
  rcases h.storeTick_cases hs with ⟨hb, -, htick⟩ | ⟨f, hf, -, htick⟩ <;> rw [htick] at ht
  · injection ht with ht
    subst ht
    exact h.idleTick hs hb
  · exact keptByPhases_inv.resumed h hs hf (h.runs hs hf) ht

theorem Inv.cycleStore {cmd : Option CmdWord} {s t : State} (h : Inv s) (hs : s.resetSeen = true)
    (ht : cycleStore cmd s = .next t) : Inv t := by
  have hstep := storeStep_cycleStore cmd s
  rw [ht] at hstep
  generalize hr : (.next t : Result) = r at hstep
  cases hstep with
  | tick => exact h.storeTick hs hr.symm
  | faulted hb hf =>
    injection hr with hr
    subst hr
    exact Consistent.inv_respond (s := beginCommand s) { h.consistent hs with } (by decide) _ _
  | trapped hready code hc =>
    injection hr with hr
    subst hr
    refine (h.accepted hs hready).toConsistent.inv_raiseFault ?_ ?_ <;>
      obtain rfl | rfl := hc <;> decide
  | runs hready i hi _ htrap =>
    exact (h.accepted hs hready).inv_commandBody hi
      (initialized_of_commandTrap (s := s) htrap) hr.symm

theorem Inv.hardReset {s : State} (h : Inv s) (landed : Bool) : Inv (hardReset landed s) where
  build := by simpa using h.build
  tableLength := by simp [resetStore]
  nvCanonical := by simpa using wf_abandonAccess h.nvCanonical
  portWidth := by rw [hardReset_store, hardReset_cfg]; exact idlePort_addr_lt s.cfg s.store.draws
  running _ := by
    rw [hardReset_store, hardReset_cfg]
    exact
      { count := Nat.zero_le _
        faultCode := List.mem_cons_self
        rspCode := nofun
        busyIff := rfl
        reqIff := rfl
        faultIdle := fun _ => rfl
        baselines := nofun
        inFlight := nofun }

theorem Inv.losePower {s : State} (h : Inv s) (landed : Bool) : Inv (losePower landed s) where
  build := by simpa using h.build
  tableLength := by simp [unpoweredStore]
  nvCanonical := by simpa using wf_abandonAccess h.nvCanonical
  portWidth := by rw [losePower_store, losePower_cfg]; exact idlePort_addr_lt s.cfg s.store.draws
  running := nofun

theorem Inv.unpoweredCycle {s : State} (h : Inv s) (hs : s.resetSeen = false) :
    Inv (unpoweredCycle s) where
  build := h.build
  tableLength := by simp [unpoweredStore]
  nvCanonical := h.nvCanonical
  portWidth := idlePort_addr_lt s.cfg s.store.draws
  running hseen := by
    rw [unpoweredCycle_resetSeen, hs] at hseen
    cases hseen

/-- The decoder and the schedule are not in the invariant. -/
theorem Inv.of_dec_inputs {s : State} (h : Inv s) (d : Decoder) (rest : List Input) :
    Inv { s with inputs := rest, dec := d } := { h with }

/-- Settles O52: between its accesses a command keeps what `Inv` needs where it stops, and reset edges,
losses of power and ticks give it outright. -/
theorem everyStepKeepsInv : Obligations.EveryStepKeepsInv := by
  intro s t h ht
  obtain ⟨i, rest, -, ⟨landed, -, rfl⟩ | ⟨rx, cmd, landed, -, rfl⟩ | ⟨rx, cmd, -, hs, rfl⟩ |
    ⟨rx, cmd, d, -, hs, hcycle⟩⟩ := step_cases ht
  · exact (h.of_dec_inputs s.dec rest).losePower landed
  · exact (h.of_dec_inputs s.dec rest).hardReset landed
  · exact (h.of_dec_inputs s.dec rest).unpoweredCycle hs
  · exact (h.of_dec_inputs d rest).cycleStore hs hcycle

/-- The invariant of a machine right after reset. -/
theorem inv_resetOf {cfg : Config} (h : cfg.wellFormed = true) : Inv (State.resetOf cfg) where
  build := h
  tableLength := List.length_replicate
  nvCanonical := rfl
  portWidth := Nat.two_pow_pos _
  running _ :=
    { count := Nat.zero_le _
      faultCode := List.mem_cons_self
      rspCode := nofun
      busyIff := rfl
      reqIff := rfl
      faultIdle := fun _ => rfl
      baselines := nofun
      inFlight := nofun }

/-- Settles O51: right after reset no command is in progress and nothing is initialized. -/
theorem invHoldsAtReset : Obligations.InvHoldsAtReset :=
  ⟨fun _ => inv_resetOf, inv_resetOf (by decide), fun _ _ _ => nofun⟩

end Sys2Proof.Machine
end

section
/-! PROOFS. The mirror between the table and the NV byte space over every step (20_memory.md R65). -/

namespace Sys2Proof.Machine

/-! ### What the mirror looks at -/

/-- `t` has the build, the NV byte space, the slots and the count of `s`. -/
structure SameContents (s t : State) : Prop where
  cfg : t.cfg = s.cfg
  nv : t.nv = s.nv
  table : t.store.table = s.store.table
  numEntries : t.store.numEntries = s.store.numEntries

theorem SameButPort.contents {s t : State} (h : SameButPort s t) : SameContents s t :=
  ⟨h.cfg, h.nv, h.table, h.numEntries⟩

theorem SameContents.readNv {s t : State} (h : SameContents s t) (a : Nat) :
    readNv t a = readNv s a := by
  simp only [Machine.readNv, h.nv, h.cfg]

theorem SameContents.slot {s t : State} (h : SameContents s t) (k : Nat) :
    slot t.store k = slot s.store k := by
  simp only [Machine.slot, h.table]

theorem SameContents.applyAccess {s t : State} (h : SameContents s t) (a : Access) :
    SameContents (applyAccess a s) (applyAccess a t) := by
  cases a with
  | write b v =>
    refine ⟨h.cfg, ?_, h.table, h.numEntries⟩
    simp only [Machine.applyAccess, landAccess, performAccess, writeNv_nv, h.cfg, h.nv]
  | readCount => exact h
  | readEntry k i =>
    refine ⟨h.cfg, h.nv, ?_, h.numEntries⟩
    simp only [Machine.applyAccess, landAccess, performAccess, setSlot_table, h.slot, h.readNv,
      h.table]

theorem SameContents.applyAll (todo : List Access) : ∀ {s t : State}, SameContents s t →
    SameContents (applyAll todo s) (applyAll todo t) := by
  induction todo with
  | nil => exact id
  | cons a rest ih => exact fun h => ih (h.applyAccess a)

theorem EntryPersisted.congr {s t : State} (h : SameContents s t) {k : Nat}
    (hs : EntryPersisted s k) : EntryPersisted t k := fun i hi => by
  rw [h.readNv, h.slot, hs i hi]

theorem Mirrors.congr {s t : State} (h : SameContents s t) (hs : Mirrors s) : Mirrors t :=
  ⟨by rw [h.readNv, h.numEntries]; exact hs.1,
    fun k hk => (hs.2 k (by rwa [h.numEntries] at hk)).congr h⟩

/-! ### Between a command's accesses -/

/-- What `MirrorInv` says of a command in progress. -/
def JobMirror (todo : List Access) (s : State) : Job → Prop
  | .initEmpty _ => readNv (applyAll todo s) countAddr = 0
  | .initCount _ => True
  | .initEntries _ n => readNv s countAddr = n ∧
      ∀ k i, k < n.toNat → i < 6 → Access.readEntry k i ∉ todo →
        readNv s (entryAddr k i) = persistedByte (slot s.store k) i
  | .add _ _ => Mirrors (applyAll todo s)
  | .clear => Mirrors (applyAll todo s)

theorem mirrorInv_of_inFlight {s : State} {f : InFlight} (hf : s.store.inFlight = some f)
    (h : JobMirror f.todo s f.job) : MirrorInv s := by
  intro _ _
  rw [hf]
  obtain ⟨job, todo⟩ := f
  cases job <;> exact h

theorem MirrorInv.jobMirror {s : State} {f : InFlight} (h : MirrorInv s) (hs : s.resetSeen = true)
    (hfault : s.store.fault = 0) (hf : s.store.inFlight = some f) : JobMirror f.todo s f.job := by
  have hm := h hs hfault
  rw [hf] at hm
  obtain ⟨job, todo⟩ := f
  cases job <;> exact hm

theorem mirrorInv_of_idle {s : State} (hf : s.store.inFlight = none)
    (h : s.store.initialized = true → Mirrors s) : MirrorInv s := by
  intro _ _
  rw [hf]
  exact h

theorem MirrorInv.mirrors {s : State} (h : MirrorInv s) (hs : s.resetSeen = true)
    (hfault : s.store.fault = 0) (hf : s.store.inFlight = none)
    (hinit : s.store.initialized = true) : Mirrors s := by
  have hm := h hs hfault
  rw [hf] at hm
  exact hm hinit

/-- Nothing is said of a store in the fault state. -/
theorem mirrorInv_raiseFault {code : BitVec 4} (hcode : code ≠ 0) (s : State) :
    MirrorInv (raiseFault code s) := fun _ hfault => absurd hfault hcode

theorem JobMirror.congr {todo : List Access} {job : Job} {s t : State} (h : SameContents s t)
    (hs : JobMirror todo s job) : JobMirror todo t job := by
  cases job with
  | initEmpty now => exact ((h.applyAll todo).readNv countAddr).trans hs
  | initCount now => trivial
  | initEntries now n =>
    obtain ⟨hn, hread⟩ := hs
    refine ⟨(h.readNv countAddr).trans hn, fun k i hk hi hmem => ?_⟩
    rw [h.readNv, h.slot]
    exact hread k i hk hi hmem
  | add k evicted => exact Mirrors.congr (h.applyAll todo) hs
  | clear => exact Mirrors.congr (h.applyAll todo) hs

theorem sameContents_park (job : Job) (todo : List Access) (s : State) :
    SameContents s (park job todo s) := ⟨rfl, rfl, rfl, rfl⟩

/-- The decoder and the schedule are not in the mirror. -/
theorem MirrorInv.of_dec_inputs {s : State} (h : MirrorInv s) (d : Decoder) (rest : List Input) :
    MirrorInv { s with inputs := rest, dec := d } := by
  have hsame : SameContents s { s with inputs := rest, dec := d } := ⟨rfl, rfl, rfl, rfl⟩
  refine fun hs hfault => (?_ : MirrorInv { s with inputs := rest, dec := d }) hs hfault
  cases hf : s.store.inFlight with
  | none =>
    exact mirrorInv_of_idle hf fun hinit => (h.mirrors hs hfault hf hinit).congr hsame
  | some f => exact mirrorInv_of_inFlight hf ((h.jobMirror hs hfault hf).congr hsame)

/-- A byte that a load reads stands in its slot from then on. -/
theorem JobMirror.applyAccess {job : Job} {a : Access} {rest : List Access} {s : State}
    (hr : Running job (a :: rest) s) (h : JobMirror (a :: rest) s job) :
    JobMirror rest (applyAccess a s) job := by
  cases job with
  | initEmpty _ | add _ _ | clear => exact h
  | initCount now => trivial
  | initEntries now n =>
    obtain ⟨k, i, -, hkn, hi, rfl⟩ := mem_loadReads.1 (hr.left.subset List.mem_cons_self)
    obtain ⟨hn, hread⟩ := h
    obtain ⟨-, -, -, -, -, hk⟩ := hr.load_of_readEntry
    refine ⟨hn, fun j i' hj hi' hmem => ?_⟩
    rw [slot_applyAccess_readEntry hk]
    change readNv s (entryAddr j i') = _
    have hother : Access.readEntry j i' ≠ .readEntry k i →
        readNv s (entryAddr j i') = persistedByte (slot s.store j) i' := fun hne =>
      hread j i' hj hi' (List.not_mem_cons_of_ne_of_not_mem hne hmem)
    split
    · rename_i hjk
      subst hjk
      rw [persistedByte_loadEntryByte hi hi']
      split
      · rename_i hii
        rw [hii]
      · rename_i hii
        exact hother (by simpa using hii)
    · rename_i hjk
      exact hother (by simp [hjk])

/-- A response shows nothing of the mirror. -/
theorem Mirrors.mirrorInv_respond {s : State} (h : s.store.initialized = true → Mirrors s)
    (code : BitVec 4) (info : Byte) (flag : Bool) : MirrorInv (respond code info flag s) :=
  mirrorInv_of_idle rfl fun hinit => (h hinit).congr ⟨rfl, rfl, rfl, rfl⟩

theorem JobMirror.mirrorInv_conclude {job : Job} {last : Byte} {s t : State}
    (h : JobMirror [] s job) (hjob : ∀ now, job ≠ .initCount now)
    (ht : conclude job last s = .next t) : MirrorInv t := by
  cases job with
  | initEmpty now =>
    injection ht with ht
    subst ht
    exact mirrorInv_of_idle rfl fun _ => ⟨h, fun k hk => absurd hk k.not_lt_zero⟩
  | initCount now => exact absurd rfl (hjob now)
  | initEntries now n =>
    injection ht with ht
    subst ht
    obtain ⟨hn, hread⟩ := h
    exact mirrorInv_of_idle rfl fun _ => ⟨hn, fun k hk i hi => hread k i hk hi List.not_mem_nil⟩
  | add _ _ | clear =>
    injection ht with ht
    subst ht
    exact Mirrors.mirrorInv_respond (fun _ => h) _ _ _

theorem keptByPhases_mirror :
    KeptByPhases (fun job todo s => Running job todo s ∧ JobMirror todo s job) MirrorInv where
  port hst h := ⟨h.1.congr hst, h.2.congr hst.contents⟩
  access h := ⟨h.1.applyAccess, h.2.applyAccess h.1⟩
  fails _ _ := mirrorInv_raiseFault (by decide) _
  waits h _ := mirrorInv_of_inFlight rfl (h.2.congr (sameContents_park _ _ _))
  completes h := h.2.mirrorInv_conclude
  refuses _ := mirrorInv_raiseFault (by decide) _
  loads h hn := ⟨h.1.loads hn, rfl, fun k i hk hi hmem =>
    absurd (mem_loadReads.2 ⟨k, i, by omega, by omega, hi, rfl⟩) hmem⟩

/-! ### Commands, accepted -/

theorem readNv_applyAll_writeCount {s : State} (h : Memory.wf s.cfg s.nv = true) (v : Byte) :
    readNv (applyAll [.write countAddr v] s) countAddr = v :=
  (readNv_writeNv h countAddr countAddr v).trans (if_pos rfl)

/-- Entries have no byte in common, and none with the count (20_memory.md R51). -/
theorem not_entryOrCount {j k i : Nat} (hjk : j ≠ k) (hi : i < 6) :
    ¬ entryOrCount k (entryAddr j i) := by
  rintro (hcount | ⟨i', hi', heq⟩)
  · simp only [entryAddr, countAddr] at hcount
    omega
  · simp only [entryAddr] at heq
    omega

/-- With its seven writes done ADD's slot mirrors the NV byte space; the other occupied slots did
before. -/
theorem Accepted.mirrors_add {s : State} (h : Accepted s) (hm : Mirrors s) (id : TagId)
    (interval : Byte) :
    Mirrors (applyAll (persistWrites (placeTag s.cfg s.store id).slot
        (addedEntry id interval s.store) (placeTag s.cfg s.store id).count)
      { s with store := addToTable (placeTag s.cfg s.store id) id interval s.store }) := by
  obtain ⟨hocc, hcount, htable, hbelow⟩ := h.placeTag_bounds id
  have hslot := slot_addToTable htable id interval
  generalize placeTag s.cfg s.store id = p at *
  generalize hu : ({ s with store := addToTable p id interval s.store } : State) = u
  have hstore := (applyAll_writes_keep
    (persistWrites_are_writes p.slot (addedEntry id interval s.store) p.count) u).1
  obtain ⟨hbytes, hcountByte, hkept⟩ := persistedUpTo_take (s := u) (k := p.slot) (m := 7)
    (by rw [← hu]; exact h.nvCanonical) (by rw [← hu]; exact h.build)
    (by rw [← hu]; exact hocc.trans_le hcount) le_rfl (addedEntry id interval s.store) p.count
  rw [List.take_of_length_le (length_persistWrites _ _ _).le] at hbytes hcountByte hkept
  refine ⟨?_, fun j hj i hi => ?_⟩
  · rw [hcountByte, hstore, ← hu]
    rfl
  · rw [hstore, ← hu] at hj ⊢
    rw [hslot, hu]
    split
    · rename_i hjk
      rw [hjk, hbytes i hi, if_pos (by omega)]
    · rename_i hjk
      rw [hkept _ (not_entryOrCount hjk hi), ← hu]
      exact hm.2 j (hbelow j hj hjk) i hi

/-- The mirror looks at a slot's identifier and interval only. -/
theorem Mirrors.of_persistedBytes {s t : State} (h : Mirrors s) (hread : NvKept s t)
    (hn : t.store.numEntries = s.store.numEntries)
    (hslot : ∀ k, (slot t.store k).id = (slot s.store k).id ∧
      (slot t.store k).interval = (slot s.store k).interval) : Mirrors t := by
  refine ⟨by rw [hread, hn]; exact h.1, fun k hk i hi => ?_⟩
  obtain ⟨hid, hint⟩ := hslot k
  rw [hn] at hk
  rw [hread, h.2 k hk i hi, persistedByte, persistedByte, hid, hint]

theorem slot_grantSlot {st : Store} {k : Nat} (hk : k < st.table.length) (j : Nat) :
    slot (grantSlot k st) j =
      if j = k then { slot st k with carry := 0, lastGrant := st.nowReg } else slot st j :=
  slot_setSlot hk _ j

theorem Accepted.mirrorInv_commandBody {i : Instr} {s t : State} (h : Accepted s)
    (hi : isCommand i = true) (hinit : (∀ r now, i ≠ .init r now) → s.store.initialized = true)
    (hm : s.store.initialized = true → Mirrors s) (ht : commandBody i s = .next t) :
    MirrorInv t := by
  cases i with
  | rx b => cases hi
  | init r now =>
    cases r with
    | true =>
      exact keptByPhases_mirror.runPhase (by simp)
        ⟨h.running_initEmpty now, readNv_applyAll_writeCount h.nvCanonical 0⟩ (.inl h.portFree) ht
    | false =>
      exact keptByPhases_mirror.runCount ⟨h.running_initCount now, trivial⟩ (.inl h.portFree) ht
  | advance now =>
    injection ht with ht
    subst ht
    refine Mirrors.mirrorInv_respond (s := { s with store := { s.store with
        table := advanceTable now s.store, nowReg := now } })
      (fun hinit => (hm hinit).of_persistedBytes (fun _ => rfl) rfl fun k => ?_) _ _ _
    rw [slot_advanceTable]
    split <;> exact ⟨rfl, rfl⟩
  | check id =>
    simp only [commandBody, runCheck] at ht
    split at ht
    · injection ht with ht
      subst ht
      exact Mirrors.mirrorInv_respond hm _ _ _
    · rename_i k hk
      split at ht <;> injection ht with ht <;> subst ht
      · refine Mirrors.mirrorInv_respond (s := { s with store := grantSlot k s.store })
          (fun hinit => (hm hinit).of_persistedBytes (fun _ => rfl) rfl fun j => ?_) _ _ _
        rw [slot_grantSlot (lookup_lt hk).2]
        split
        · rename_i hjk
          subst hjk
          exact ⟨rfl, rfl⟩
        · exact ⟨rfl, rfl⟩
      · exact Mirrors.mirrorInv_respond hm _ _ _
  | add id interval =>
    have hi := hinit nofun
    exact keptByPhases_mirror.runPhase (by simp)
      ⟨h.running_add hi id interval, h.mirrors_add (hm hi) id interval⟩ (.inl h.portFree) ht
  | clear =>
    refine keptByPhases_mirror.runPhase (by simp)
      ⟨h.running_clear (hinit nofun), ?_, fun k hk => absurd hk k.not_lt_zero⟩ (.inl h.portFree) ht
    exact readNv_applyAll_writeCount (s := { s with store := { s.store with numEntries := 0 } })
      h.nvCanonical 0

/-! ### Steps -/

theorem MirrorInv.storeTick {s t : State} (hm : MirrorInv s) (h : Inv s) (hs : s.resetSeen = true)
    (ht : storeTick s = .next t) : MirrorInv t := by
  rcases h.storeTick_cases hs with ⟨-, hf, htick⟩ | ⟨f, hf, -, htick⟩ <;> rw [htick] at ht
  · injection ht with ht
    subst ht
    intro hseen hfault
    rw [show (idleTick s).store.inFlight = none from hf]
    exact fun hinit => (hm.mirrors hs hfault hf hinit).congr ⟨rfl, rfl, rfl, rfl⟩
  · have hrun := h.runs hs hf
    exact keptByPhases_mirror.resumed h hs hf ⟨hrun, hm.jobMirror hs hrun.noFault hf⟩ ht

theorem MirrorInv.cycleStore {cmd : Option CmdWord} {s t : State} (hm : MirrorInv s) (h : Inv s)
    (hs : s.resetSeen = true) (ht : cycleStore cmd s = .next t) : MirrorInv t := by
  have hstep := storeStep_cycleStore cmd s
  rw [ht] at hstep
  generalize hr : (.next t : Result) = r at hstep
  cases hstep with
  | tick => exact hm.storeTick h hs hr.symm
  | faulted hb hf =>
    injection hr with hr
    subst hr
    exact fun _ hfault => absurd hfault hf
  | trapped hready code hc =>
    injection hr with hr
    subst hr
    refine mirrorInv_raiseFault ?_ _
    obtain rfl | rfl := hc <;> decide
  | runs hready i hi _ htrap =>
    refine (h.accepted hs hready).mirrorInv_commandBody hi
      (initialized_of_commandTrap (s := s) htrap) (fun hinit => ?_) hr.symm
    exact (hm.mirrors hs hready.2 (h.not_inFlight hs hready.1) hinit).congr ⟨rfl, rfl, rfl, rfl⟩

/-- Nothing is said before the first reset edge, and right after one. -/
theorem mirrorInv_of_uninitialized {s : State} (hf : s.store.inFlight = none)
    (hi : s.store.initialized = false) : MirrorInv s :=
  mirrorInv_of_idle hf fun hinit => by simp [hi] at hinit

/-- Settles O54: a command keeps between its accesses what it has still to write or has already read, and
an idle store has the mirror itself. -/
theorem everyStepKeepsTheMirror : Obligations.EveryStepKeepsTheMirror := by
  refine ⟨fun s t h hm ht => ?_, fun s h hm hs hserv => ?_⟩
  · obtain ⟨i, rest, -, ⟨landed, -, rfl⟩ | ⟨rx, cmd, landed, -, rfl⟩ | ⟨rx, cmd, -, hs, rfl⟩ |
      ⟨rx, cmd, d, -, hs, hcycle⟩⟩ := step_cases ht
    · exact fun hseen => by cases hseen
    · exact mirrorInv_of_uninitialized rfl rfl
    · exact fun hseen => by rw [unpoweredCycle_resetSeen, hs] at hseen; cases hseen
    · exact (hm.of_dec_inputs d rest).cycleStore (h.of_dec_inputs d rest) hs hcycle
  · obtain ⟨⟨hb, hfault⟩, hinit⟩ := hserv
    exact hm.mirrors hs hfault (h.not_inFlight hs hb) hinit

end Sys2Proof.Machine
end

section
/-! PROOFS. What every step does to the fault, to `initialized` and to the upper end of the NV byte space
(60_exceptions.md R203-R205, 20_memory.md R52). -/

namespace Sys2Proof.Machine

/-! ### The fault and `initialized` -/

/-- What a step that is no reset may do to the fault and to `initialized` (60_exceptions.md R203, R205,
10_state.md R31). -/
structure FaultsRecorded (s t : State) : Prop where
  stays : s.store.fault ≠ 0 → t.store.fault = s.store.fault
  staysInitialized : s.store.initialized = true → t.store.initialized = true
  shown : s.store.fault = 0 → t.store.fault ≠ 0 → t.store.rsp = ⟨true, t.store.fault, 0, false⟩
  shownInitialized : s.store.initialized = false → t.store.initialized = true →
    t.store.rsp.valid = true ∧ t.store.rsp.code = codeOK

theorem faultsRecorded_of_same {s t : State} (hf : t.store.fault = s.store.fault)
    (hi : t.store.initialized = s.store.initialized) : FaultsRecorded s t where
  stays _ := hf
  staysInitialized h := hi.trans h
  shown h0 hne := absurd (hf.trans h0) hne
  shownInitialized hfalse htrue := by simp [hi, hfalse] at htrue

theorem faultsRecorded_raiseFault {s u : State} (hf : s.store.fault = 0)
    (hi : u.store.initialized = s.store.initialized) (code : BitVec 4) :
    FaultsRecorded s (raiseFault code u) where
  stays hne := absurd hf hne
  staysInitialized h := hi.trans h
  shown _ _ := rfl
  shownInitialized hfalse htrue := by simp [hi, hfalse] at htrue

theorem faultsRecorded_commitInit {s u : State} (hf : u.store.fault = s.store.fault) (n : Byte)
    (now : Millis) (r : Bool) : FaultsRecorded s (commitInit n now r u) where
  stays _ := hf
  staysInitialized _ := rfl
  shown h0 hne := absurd (hf.trans h0) hne
  shownInitialized _ _ := ⟨rfl, rfl⟩

/-- A command under way has changed neither the fault nor `initialized`. -/
theorem keptByPhases_faults (s : State) (h0 : s.store.fault = 0) :
    KeptByPhases (fun _ _ u => u.store.fault = s.store.fault ∧
      u.store.initialized = s.store.initialized) (FaultsRecorded s) where
  port hst h := ⟨hst.fault.trans h.1, hst.initialized.trans h.2⟩
  access {job a rest u} h :=
    have hsame := sameRegisters_applyAccess a u
    ⟨hsame.fault.trans h.1, hsame.initialized.trans h.2⟩
  fails {job a rest u t landed} h ht := by
    refine faultsRecorded_raiseFault h0 (ht.initialized.trans (Eq.trans ?_ h.2)) _
    cases landed with
    | false => rfl
    | true => exact (sameRegisters_performAccess a u).initialized
  waits h _ := faultsRecorded_of_same h.1 h.2
  completes {job last u t} h hjob ht := by
    obtain ⟨hf, hi⟩ := h
    cases job with
    | initCount now => exact absurd rfl (hjob now)
    | initEmpty _ | initEntries _ _ =>
      injection ht with ht
      subst ht
      exact faultsRecorded_commitInit hf _ _ _
    | add _ _ | clear =>
      injection ht with ht
      subst ht
      exact faultsRecorded_of_same hf hi
  refuses h := faultsRecorded_raiseFault h0 h.2 _
  loads h _ := h

theorem Accepted.faultsRecorded {i : Instr} {s t : State} (h : Accepted s)
    (hi : isCommand i = true) (ht : commandBody i s = .next t) : FaultsRecorded s t := by
  have hkept := keptByPhases_faults s h.noFault
  cases i with
  | rx b => cases hi
  | init r now =>
    cases r with
    | true => exact hkept.runPhase (by simp) ⟨rfl, rfl⟩ (.inl h.portFree) ht
    | false => exact hkept.runCount ⟨rfl, rfl⟩ (.inl h.portFree) ht
  | advance now =>
    injection ht with ht
    subst ht
    exact faultsRecorded_of_same rfl rfl
  | check id =>
    simp only [commandBody, runCheck] at ht
    split at ht
    · injection ht with ht
      subst ht
      exact faultsRecorded_of_same rfl rfl
    · split at ht <;> injection ht with ht <;> subst ht <;> exact faultsRecorded_of_same rfl rfl
  | add id interval =>
    exact hkept.runPhase
      (s := { s with store := addToTable (placeTag s.cfg s.store id) id interval s.store })
      (by simp) ⟨rfl, rfl⟩ (.inl h.portFree) ht
  | clear =>
    exact hkept.runPhase (s := { s with store := { s.store with numEntries := 0 } }) (by simp)
      ⟨rfl, rfl⟩ (.inl h.portFree) ht

theorem Inv.faultsRecorded {cmd : Option CmdWord} {s t : State} (h : Inv s)
    (hs : s.resetSeen = true) (ht : Machine.cycleStore cmd s = .next t) : FaultsRecorded s t := by
  have hstep := storeStep_cycleStore cmd s
  rw [ht] at hstep
  generalize hr : (.next t : Result) = r at hstep
  cases hstep with
  | tick =>
    rcases h.storeTick_cases hs with ⟨-, -, htick⟩ | ⟨f, hf, -, htick⟩ <;> rw [htick] at hr
    · injection hr with hr
      subst hr
      exact faultsRecorded_of_same rfl rfl
    · exact (keptByPhases_faults s (h.runs hs hf).noFault).resumed h hs hf ⟨rfl, rfl⟩ hr.symm
  | faulted hb hf =>
    injection hr with hr
    subst hr
    exact faultsRecorded_of_same rfl rfl
  | trapped hready code hc =>
    injection hr with hr
    subst hr
    exact faultsRecorded_raiseFault hready.2 rfl code
  | runs hready i hi _ _ =>
    obtain ⟨h1, h2, h3, h4⟩ := (h.accepted hs hready).faultsRecorded hi hr.symm
    exact ⟨h1, h2, h3, h4⟩

/-- Settles O19: without a reset edge or a loss of power the step is a cycle of a running machine. -/
theorem faultAndInitializedAreClearedOnlyByReset :
    Obligations.FaultAndInitializedAreClearedOnlyByReset := by
  intro s t h ht hseen hreset
  obtain ⟨i, rest, hnext, ⟨landed, -, rfl⟩ | ⟨rx, cmd, landed, rfl, -⟩ | ⟨rx, cmd, -, hs, rfl⟩ |
    ⟨rx, cmd, d, -, hs, hcycle⟩⟩ := step_cases ht
  · cases hseen
  · obtain hin | ⟨-, hcycle, -⟩ := hnext
    · exact absurd hin (hreset rx cmd landed rest)
    · cases hcycle
  · rw [unpoweredCycle_resetSeen, hs] at hseen
    cases hseen
  · obtain ⟨h1, h2, h3, h4⟩ := (h.of_dec_inputs d rest).faultsRecorded hs hcycle
    exact ⟨h1, h2, h3, h4⟩

/-! ### A next state, and the addresses no access reaches -/

/-- A command under way always has a next state: its accesses exist. -/
theorem Running.exists_runPhase {job : Job} {todo : List Access} {s : State}
    (h : Running job todo s) (hjob : ∀ now, job ≠ .initCount now) :
    ∃ t, runJob job todo s = .next t := by
  have hend := runEnd_runJob job todo s
  generalize runJob job todo s = r at hend
  cases hend with
  | absent a ha hout => exact absurd (h.addr_lt a ha) (Nat.not_lt.2 hout)
  | completed u _ _ =>
    cases job with
    | initCount now => exact absurd rfl (hjob now)
    | initEmpty _ | initEntries _ _ | add _ _ | clear => exact ⟨_, rfl⟩
  | failed j landed u _ => exact ⟨_, rfl⟩
  | waiting j u _ => exact ⟨_, rfl⟩

theorem Running.exists_runJob {job : Job} {todo : List Access} {s : State}
    (h : Running job todo s) : ∃ t, runJob job todo s = .next t := by
  by_cases hjob : ∃ now, job = .initCount now
  · obtain ⟨now, rfl⟩ := hjob
    have hall := keptByPhases_inv.after (j := todo.length) h
    rw [List.drop_length, List.take_length] at hall
    have hend := runEnd_runJob (.initCount now) todo s
    generalize runJob (.initCount now) todo s = r at hend
    cases hend with
    | absent a ha hout => exact absurd (h.addr_lt a ha) (Nat.not_lt.2 hout)
    | completed u hu _ =>
      rw [conclude, loadEntries_eq]
      split
      · exact ⟨_, rfl⟩
      · exact ((hall.congr hu).loads (by omega)).exists_runPhase (by simp)
    | failed j landed u _ => exact ⟨_, rfl⟩
    | waiting j u _ => exact ⟨_, rfl⟩
  · exact h.exists_runPhase fun now hnow => hjob ⟨now, hnow⟩

theorem Accepted.exists_commandBody {s : State} (h : Accepted s) (i : Instr)
    (hinit : (∀ r now, i ≠ .init r now) → s.store.initialized = true) :
    ∃ t, commandBody i s = .next t := by
  cases i with
  | rx _ | advance _ => exact ⟨_, rfl⟩
  | init r now =>
    cases r with
    | true => exact (h.running_initEmpty now).exists_runJob
    | false => exact (h.running_initCount now).exists_runJob
  | check id =>
    simp only [commandBody, runCheck]
    split
    · exact ⟨_, rfl⟩
    · split <;> exact ⟨_, rfl⟩
  | add id interval => exact (h.running_add (hinit nofun) id interval).exists_runJob
  | clear => exact (h.running_clear (hinit nofun)).exists_runJob

theorem Inv.exists_cycleStore {s : State} (h : Inv s) (hs : s.resetSeen = true)
    (cmd : Option CmdWord) : ∃ t, Machine.cycleStore cmd s = .next t := by
  have hstep := storeStep_cycleStore cmd s
  generalize Machine.cycleStore cmd s = r at hstep
  cases hstep with
  | tick =>
    rcases h.storeTick_cases hs with ⟨-, -, htick⟩ | ⟨f, hf, -, htick⟩ <;> rw [htick]
    · exact ⟨_, rfl⟩
    · exact (h.runs hs hf).exists_runJob
  | faulted _ _ => exact ⟨_, rfl⟩
  | trapped _ _ _ => exact ⟨_, rfl⟩
  | runs hready i _ _ htrap =>
    exact (h.accepted hs hready).exists_commandBody i (initialized_of_commandTrap (s := s) htrap)

theorem Inv.exists_step {s : State} (h : Inv s) : ∃ t, step s = .next t := by
  obtain ⟨i, rest, hnext⟩ := exists_nextInput s
  rw [step_of_wellFormed h.build, takeInput_of_nextInput hnext]
  cases i with
  | powerLoss _ => exact ⟨_, rfl⟩
  | reset _ _ _ => exact ⟨_, rfl⟩
  | cycle rx cmd =>
    by_cases hs : s.resetSeen = true
    · obtain ⟨d, hd⟩ := cycleDecoder_next rx { s with inputs := rest }
      rw [applyInput_cycle (s := { s with inputs := rest }) hs, hd]
      exact (h.of_dec_inputs d rest).exists_cycleStore hs cmd
    · rw [applyInput_cycle_unpowered (s := { s with inputs := rest }) hs]
      exact ⟨_, rfl⟩

/-- Every address above the last entry reads as before (20_memory.md R52). -/
def UpperKept (s t : State) : Prop := ∀ a, 6 * s.cfg.capacity < a → readNv t a = readNv s a

theorem upperKept_performAccess {s : State} {a : Access} (h : Consistent s)
    (ha : accessAddr a ≤ 6 * s.cfg.capacity) : UpperKept s (performAccess a s) := by
  intro x hx
  cases a with
  | write b v =>
    have hb : b ≤ 6 * s.cfg.capacity := ha
    exact (readNv_writeNv h.nvCanonical b x v).trans (if_neg (by omega))
  | readCount => rfl
  | readEntry k i => rfl

/-- A command under way has written no address above the last entry. -/
theorem keptByPhases_upper (s : State) :
    KeptByPhases (fun job todo u => Running job todo u ∧ u.cfg = s.cfg ∧ UpperKept s u)
      (UpperKept s) where
  port hst h := ⟨h.1.congr hst, hst.cfg.trans h.2.1, fun a ha => (hst.readNv a).trans (h.2.2 a ha)⟩
  access {job a rest u} h := by
    obtain ⟨hrun, hcfg, hkept⟩ := h
    have hwrite := upperKept_performAccess hrun.toConsistent (hrun.addr_le a List.mem_cons_self)
    refine ⟨hrun.applyAccess, (applyAccess_cfg a u).trans hcfg, fun x hx => ?_⟩
    rw [applyAccess, readNv_landAccess, hwrite x (by rwa [hcfg]), hkept x hx]
  fails {job a rest u t landed} h ht x hx := by
    obtain ⟨hrun, hcfg, hkept⟩ := h
    have hwrite := upperKept_performAccess hrun.toConsistent (hrun.addr_le a List.mem_cons_self)
    rw [readNv_raiseFault, ht.readNv]
    cases landed with
    | false => exact hkept x hx
    | true => exact (hwrite x (by rwa [hcfg])).trans (hkept x hx)
  waits h _ := h.2.2
  completes {job last u t} h hjob ht := by
    cases job with
    | initCount now => exact absurd rfl (hjob now)
    | initEmpty _ | initEntries _ _ | add _ _ | clear =>
      injection ht with ht
      subst ht
      exact h.2.2
  refuses h := h.2.2
  loads h hn := ⟨h.1.loads hn, h.2⟩

theorem Accepted.upperKept {i : Instr} {s t : State} (h : Accepted s)
    (hinit : (∀ r now, i ≠ .init r now) → s.store.initialized = true)
    (ht : commandBody i s = .next t) : UpperKept s t := by
  have hkept := keptByPhases_upper s
  have hsame : UpperKept s s := fun _ _ => rfl
  cases i with
  | rx _ | advance _ =>
    injection ht with ht
    subst ht
    exact hsame
  | init r now =>
    cases r with
    | true => exact hkept.runPhase (by simp) ⟨h.running_initEmpty now, rfl, hsame⟩ (.inl h.portFree) ht
    | false => exact hkept.runCount ⟨h.running_initCount now, rfl, hsame⟩ (.inl h.portFree) ht
  | check id =>
    simp only [commandBody, runCheck] at ht
    split at ht
    · injection ht with ht
      subst ht
      exact hsame
    · split at ht <;> injection ht with ht <;> subst ht <;> exact hsame
  | add id interval =>
    exact hkept.runPhase (by simp) ⟨h.running_add (hinit nofun) id interval, rfl, hsame⟩
      (.inl h.portFree) ht
  | clear =>
    exact hkept.runPhase (by simp) ⟨h.running_clear (hinit nofun), rfl, hsame⟩ (.inl h.portFree) ht

theorem Inv.upperKept_cycleStore {cmd : Option CmdWord} {s t : State} (h : Inv s)
    (hs : s.resetSeen = true) (ht : Machine.cycleStore cmd s = .next t) : UpperKept s t := by
  have hsame : UpperKept s s := fun _ _ => rfl
  have hstep := storeStep_cycleStore cmd s
  rw [ht] at hstep
  generalize hr : (.next t : Result) = r at hstep
  cases hstep with
  | tick =>
    rcases h.storeTick_cases hs with ⟨-, -, htick⟩ | ⟨f, hf, -, htick⟩ <;> rw [htick] at hr
    · injection hr with hr
      subst hr
      exact hsame
    · exact (keptByPhases_upper s).resumed h hs hf ⟨h.runs hs hf, rfl, hsame⟩ hr.symm
  | faulted _ _ =>
    injection hr with hr
    subst hr
    exact hsame
  | trapped _ _ _ =>
    injection hr with hr
    subst hr
    exact hsame
  | runs hready i _ _ htrap =>
    exact (h.accepted hs hready).upperKept (initialized_of_commandTrap (s := s) htrap) hr.symm

/-- The write that a reset or a loss of power abandons is a command's. -/
theorem Inv.upperKept_abandonAccess {s : State} (h : Inv s) (landed : Bool) :
    UpperKept s (abandonAccess landed s) := by
  intro a ha
  rw [readNv_abandonAccess h.nvCanonical]
  refine if_neg fun ⟨hw, heq⟩ => ?_
  simp only [writeOutstanding, Bool.and_eq_true] at hw
  obtain ⟨⟨⟨⟨hs, hreq⟩, -⟩, -⟩, -⟩ := hw
  rw [(h.running hs).reqIff] at hreq
  obtain ⟨f, hf⟩ := Option.isSome_iff_exists.1 hreq
  obtain ⟨-, -, b, rest, htodo, hshows⟩ := (h.running hs).inFlight f hf
  have hb := (h.runs hs hf).addr_le b (htodo ▸ List.mem_cons_self)
  rw [heq, hshows.addr] at ha
  omega

/-- Settles O53: the accesses of a command under way lie within the entries, so none is absent and none
reaches an address above them. -/
theorem noStepLeavesTheNvByteSpace : Obligations.NoStepLeavesTheNvByteSpace := by
  refine fun s h => ⟨h.exists_step, fun t ht => ?_⟩
  obtain ⟨i, rest, -, ⟨landed, -, rfl⟩ | ⟨rx, cmd, landed, -, rfl⟩ | ⟨rx, cmd, -, hs, rfl⟩ |
    ⟨rx, cmd, d, -, hs, hcycle⟩⟩ := step_cases ht
  · exact (h.of_dec_inputs s.dec rest).upperKept_abandonAccess landed
  · exact (h.of_dec_inputs s.dec rest).upperKept_abandonAccess landed
  · exact fun _ _ => rfl
  · exact (h.of_dec_inputs d rest).upperKept_cycleStore hs hcycle

end Sys2Proof.Machine
end

section
/-! PROOFS. What only INIT and ADVANCE do: no other operation and no other step writes the clock or
`initialized`, or makes two occupied slots hold one identifier (60_exceptions.md R208, 10_state.md
R27(c)). -/

namespace Sys2Proof.Machine

/-! ### Commands that only write -/

/-- The table, the count, the clock and `initialized` are as before. -/
structure SlotsAndClockKept (s t : State) : Prop where
  table : t.store.table = s.store.table
  numEntries : t.store.numEntries = s.store.numEntries
  nowReg : t.store.nowReg = s.store.nowReg
  initialized : t.store.initialized = s.store.initialized

theorem SlotsAndClockKept.of_store {s u : State} (h : u.store = s.store) : SlotsAndClockKept s u :=
  ⟨by rw [h], by rw [h], by rw [h], by rw [h]⟩

theorem SlotsAndClockKept.of_sameButPort {s u t : State} (h : SlotsAndClockKept s u)
    (ht : SameButPort u t) : SlotsAndClockKept s t :=
  ⟨ht.table.trans h.table, ht.numEntries.trans h.numEntries, ht.nowReg.trans h.nowReg,
    ht.initialized.trans h.initialized⟩

/-- Whatever the responder answers to the writes of an ADD or a CLEAR. -/
theorem runJob_of_writes {job : Job} {todo : List Access} {s t : State}
    (hjob : isInitJob job = false) (hw : ∀ a ∈ todo, ∃ b v, a = .write b v)
    (ht : runJob job todo s = .next t) : SlotsAndClockKept s t := by
  have hwrites (j : Nat) : (applyAll (todo.take j) s).store = s.store :=
    (applyAll_writes_keep (fun a ha => hw a (List.mem_of_mem_take ha)) s).1
  have hend := runEnd_runJob job todo s
  rw [ht] at hend
  generalize hr : (.next t : Result) = r at hend
  cases hend with
  | absent a ha hout => cases hr
  | completed u hu _ =>
    have hkept := (SlotsAndClockKept.of_store (applyAll_writes_keep hw s).1).of_sameButPort hu
    obtain ⟨h1, h2, h3, h4⟩ := hkept
    cases job with
    | initEmpty _ | initCount _ | initEntries _ _ => cases hjob
    | add _ _ | clear =>
      injection hr with hr
      subst hr
      exact ⟨h1, h2, h3, h4⟩
  | failed j landed u hu =>
    obtain ⟨a, -, hu⟩ := hu
    have hstore : (if landed then performAccess a (applyAll (todo.take j) s)
        else applyAll (todo.take j) s).store = s.store := by
      split
      · rw [performAccess_store, hwrites]
      · exact hwrites j
    obtain ⟨h1, h2, h3, h4⟩ := (SlotsAndClockKept.of_store hstore).of_sameButPort hu
    injection hr with hr
    subst hr
    exact ⟨h1, h2, h3, h4⟩
  | waiting j u hu =>
    obtain ⟨h1, h2, h3, h4⟩ := (SlotsAndClockKept.of_store (hwrites j)).of_sameButPort hu.1
    injection hr with hr
    subst hr
    exact ⟨h1, h2, h3, h4⟩

theorem writeCount_is_write (v : Byte) :
    ∀ a ∈ [Access.write countAddr v], ∃ b w, a = .write b w := by simp

theorem runAdd_keeps {id : TagId} {interval : Byte} {s t : State}
    (ht : runAdd id interval s = .next t) :
    SlotsAndClockKept
      { s with store := addToTable (placeTag s.cfg s.store id) id interval s.store } t :=
  runJob_of_writes (s := { s with store := addToTable (placeTag s.cfg s.store id) id interval s.store })
    rfl (persistWrites_are_writes _ _ _) ht

theorem runClear_keeps {s t : State} (ht : runClear s = .next t) :
    SlotsAndClockKept { s with store := { s.store with numEntries := 0 } } t :=
  runJob_of_writes (s := { s with store := { s.store with numEntries := 0 } }) rfl
    (writeCount_is_write 0) ht

/-- A tick, unless it goes on with an INIT. -/
theorem Inv.storeTick_keeps {s t : State} (h : Inv s) (hs : s.resetSeen = true)
    (hjob : ∀ f, s.store.inFlight = some f → isInitJob f.job = false)
    (ht : Machine.storeTick s = .next t) : SlotsAndClockKept s t := by
  rcases h.storeTick_cases hs with ⟨-, -, htick⟩ | ⟨f, hf, -, htick⟩ <;> rw [htick] at ht
  · injection ht with ht
    subst ht
    exact ⟨rfl, rfl, rfl, rfl⟩
  · refine runJob_of_writes (hjob f hf) (fun a ha => ?_) ht
    have hmem := (h.runs hs hf).left.subset ha
    have hinit := hjob f hf
    cases hj : f.job with
    | initEmpty _ | initCount _ | initEntries _ _ => rw [hj] at hinit; cases hinit
    | add k evicted =>
      rw [hj] at hmem
      exact persistWrites_are_writes _ _ _ a hmem
    | clear =>
      rw [hj] at hmem
      exact writeCount_is_write 0 a hmem

theorem storeTick_idle_keeps {s t : State} (hb : s.store.busy = false)
    (ht : storeTick s = .next t) : SlotsAndClockKept s t := by
  rw [storeTick_idle hb] at ht
  injection ht with ht
  subst ht
  exact ⟨rfl, rfl, rfl, rfl⟩

/-! ### The clock and `initialized` -/

theorem commandBody_clock {i : Instr} {s t : State} (hinit : ∀ r now, i ≠ .init r now)
    (ht : commandBody i s = .next t) : t.store.initialized = s.store.initialized ∧
      ((∀ now, i ≠ .advance now) → t.store.nowReg = s.store.nowReg) := by
  cases i with
  | rx b =>
    injection ht with ht
    subst ht
    exact ⟨rfl, fun _ => rfl⟩
  | init r now => exact absurd rfl (hinit r now)
  | advance now =>
    injection ht with ht
    subst ht
    exact ⟨rfl, fun hne => absurd rfl (hne now)⟩
  | check id =>
    simp only [commandBody, runCheck] at ht
    split at ht
    · injection ht with ht
      subst ht
      exact ⟨rfl, fun _ => rfl⟩
    · split at ht <;> injection ht with ht <;> subst ht <;> exact ⟨rfl, fun _ => rfl⟩
  | add id interval =>
    have hkept := runAdd_keeps ht
    exact ⟨hkept.initialized, fun _ => hkept.nowReg⟩
  | clear =>
    have hkept := runClear_keeps ht
    exact ⟨hkept.initialized, fun _ => hkept.nowReg⟩

/-- What is offered to a store writes `initialized` only as an INIT, and the clock only as an INIT or an
ADVANCE that is accepted. -/
theorem storeStep_clock {offers : Instr → Prop} {s t : State} (h : StoreStep offers s (.next t))
    (htick : storeTick s = .next t → SlotsAndClockKept s t)
    (hinit : ∀ r now, Ready s → ¬ offers (.init r now)) :
    t.store.initialized = s.store.initialized ∧
      ((∀ now, Ready s → ¬ offers (.advance now)) → t.store.nowReg = s.store.nowReg) := by
  generalize hr : (.next t : Result) = r at h
  cases h with
  | tick =>
    have hkept := htick hr.symm
    exact ⟨hkept.initialized, fun _ => hkept.nowReg⟩
  | faulted _ _ | trapped _ _ _ =>
    injection hr with hr
    subst hr
    exact ⟨rfl, fun _ => rfl⟩
  | runs hready i _ hoffer _ =>
    obtain ⟨h1, h2⟩ := commandBody_clock (i := i)
      (fun r now hi => hinit r now hready (hi ▸ hoffer)) hr.symm
    exact ⟨h1, fun hadv => h2 fun now hi => hadv now hready (hi ▸ hoffer)⟩

theorem nextTakes_of_offered {s : State} {i : Instr} {rx : Option Byte} {cmd : Option CmdWord}
    {rest : List Input} (hnext : NextInput s (.cycle rx cmd) rest) (hr : Ready s)
    (h : ∃ w, cmd = some w ∧ decodeCmd w = .ok i) : NextTakes i s := by
  obtain ⟨w, rfl, hw⟩ := h
  obtain hin | ⟨-, hcycle, -⟩ := hnext
  · exact ⟨hr, rx, w, rest, hin, hw⟩
  · cases hcycle

/-- Settles O50: an operation is INIT, ADVANCE, or one that leaves both registers alone, and a cycle is
an accepted operation, a tick, or an answer without effect. -/
theorem onlyInitAndAdvanceSetTheClock : Obligations.OnlyInitAndAdvanceSetTheClock := by
  refine ⟨fun s t i hb ht hinit hadv => ?_, fun s t h hs hcycle hno ht => ?_⟩
  · by_cases hi : isCommand i = true
    · have hstep := storeStep_exec (offers := (· = i)) hi rfl s
      rw [ht] at hstep
      obtain ⟨h1, h2⟩ := storeStep_clock hstep (storeTick_idle_keeps hb)
        fun r now _ heq => hinit r now heq.symm
      exact ⟨h2 fun now _ heq => hadv now heq.symm, h1⟩
    · cases i with
      | rx b =>
        injection ht with ht
        subst ht
        exact ⟨rfl, rfl⟩
      | init _ _ | advance _ | check _ | add _ _ | clear => exact absurd rfl hi
  · obtain ⟨hreset, hpower⟩ := hcycle
    obtain ⟨hnoTake, hnoJob⟩ := hno
    obtain ⟨i, rest, hnext, ⟨landed, rfl, -⟩ | ⟨rx, cmd, landed, rfl, -⟩ | ⟨rx, cmd, -, hunseen, -⟩ |
      ⟨rx, cmd, d, rfl, -, hcycle⟩⟩ := step_cases ht
    · obtain hin | ⟨-, hcycle, -⟩ := hnext
      · exact absurd hin (hpower landed rest)
      · cases hcycle
    · obtain hin | ⟨-, hcycle, -⟩ := hnext
      · exact absurd hin (hreset rx cmd landed rest)
      · cases hcycle
    · rw [hs] at hunseen
      cases hunseen
    · have hstep := storeStep_cycleStore cmd { s with inputs := rest, dec := d }
      rw [hcycle] at hstep
      obtain ⟨h1, h2⟩ := storeStep_clock hstep
        ((h.of_dec_inputs d rest).storeTick_keeps hs hnoJob)
        fun r now hready hoffer => hnoTake r now (nextTakes_of_offered hnext hready hoffer)
      exact ⟨h1, fun hadv => h2 fun now hready hoffer =>
        hadv now (nextTakes_of_offered hnext hready hoffer)⟩

/-! ### Identifiers stay unique -/

/-- Uniqueness looks at the count and at the occupied slots' identifiers only. -/
theorem UniqueIds.of_ids {st st' : Store} (h : UniqueIds st) (hn : st'.numEntries = st.numEntries)
    (hid : ∀ k, (slot st' k).id = (slot st k).id) : UniqueIds st' := by
  intro j k hj hk heq
  rw [hn] at hj hk
  rw [hid, hid] at heq
  exact h j k hj hk heq

theorem uniqueIds_of_empty {st : Store} (h : st.numEntries = 0) : UniqueIds st := by
  intro j k hj
  rw [h] at hj
  exact absurd hj j.not_lt_zero

theorem SlotsAndClockKept.uniqueIds {s t : State} (h : SlotsAndClockKept s t)
    (hu : UniqueIds s.store) : UniqueIds t.store :=
  hu.of_ids h.numEntries fun k => by simp only [slot, h.table]

/-- An occupied slot that ADD does not write holds another identifier than ADD's. -/
theorem id_ne_of_ne_placeTag {cfg : Config} {st : Store} {id : TagId} {k : Nat}
    (hu : UniqueIds st) (hk : k < st.numEntries.toNat) (hlen : k < st.table.length)
    (hne : k ≠ (placeTag cfg st id).slot) : (slot st k).id ≠ id := by
  rcases placeTag_cases cfg st id with ⟨p, hp, hplace⟩ | ⟨hnone, -, -⟩ | ⟨hnone, -, -⟩
  · obtain ⟨⟨hocc, -⟩, hid, -⟩ := lookup_eq_some.1 hp
    rw [hplace] at hne
    exact fun heq => hne (hu k p hk hocc (heq.trans hid.symm))
  · exact lookup_eq_none.1 hnone k hk hlen
  · exact lookup_eq_none.1 hnone k hk hlen

theorem UniqueIds.addToTable {cfg : Config} {st : Store} (hu : UniqueIds st)
    (hc : cfg.wellFormed = true) (hn : st.numEntries.toNat ≤ cfg.capacity)
    (ht : st.table.length = cfg.capacity) (id : TagId) (interval : Byte) :
    UniqueIds (addToTable (placeTag cfg st id) id interval st) := by
  obtain ⟨-, hcount, htable, hbelow⟩ := placeTag_bounds id hc hn ht
  have hslot := slot_addToTable htable id interval
  have hother : ∀ k, k < (placeTag cfg st id).count.toNat → k ≠ (placeTag cfg st id).slot →
      (slot st k).id ≠ id := fun k hk hne =>
    id_ne_of_ne_placeTag hu (hbelow k hk hne) (by omega) hne
  intro j k hj hk heq
  rw [hslot, hslot] at heq
  split at heq <;> split at heq
  · omega
  · rename_i hne
    exact absurd heq.symm (hother k hk hne)
  · rename_i hne _
    exact absurd heq (hother j hj hne)
  · rename_i hjne hkne
    exact hu j k (hbelow j hj hjne) (hbelow k hk hkne) heq

theorem commandBody_uniqueIds {i : Instr} {s t : State} (hinit : ∀ r now, i ≠ .init r now)
    (hb : Built s) (hn : s.store.numEntries.toNat ≤ s.cfg.capacity) (hu : UniqueIds s.store)
    (ht : commandBody i s = .next t) : UniqueIds t.store := by
  cases i with
  | rx b =>
    injection ht with ht
    subst ht
    exact hu
  | init r now => exact absurd rfl (hinit r now)
  | advance now =>
    injection ht with ht
    subst ht
    refine hu.of_ids rfl fun k => ?_
    change (slot { s.store with table := advanceTable now s.store, nowReg := now } k).id = _
    rw [slot_advanceTable]
    split <;> rfl
  | check id =>
    simp only [commandBody, runCheck] at ht
    split at ht
    · injection ht with ht
      subst ht
      exact hu
    · rename_i k hk
      split at ht <;> injection ht with ht <;> subst ht
      · refine hu.of_ids rfl fun j => ?_
        change (slot (grantSlot k s.store) j).id = _
        rw [slot_grantSlot (lookup_lt hk).2]
        split
        · rename_i hjk
          rw [hjk]
        · rfl
      · exact hu
  | add id interval =>
    exact (runAdd_keeps ht).uniqueIds (hu.addToTable hb.1 hn hb.2 id interval)
  | clear => exact uniqueIds_of_empty (runClear_keeps ht).numEntries

theorem storeStep_uniqueIds {offers : Instr → Prop} {s t : State}
    (h : StoreStep offers s (.next t))
    (htick : storeTick s = .next t → SlotsAndClockKept s t)
    (hinit : ∀ r now, Ready s → ¬ offers (.init r now))
    (hb : Built s) (hn : s.store.numEntries.toNat ≤ s.cfg.capacity) (hu : UniqueIds s.store) :
    UniqueIds t.store := by
  generalize hr : (.next t : Result) = r at h
  cases h with
  | tick => exact (htick hr.symm).uniqueIds hu
  | faulted _ _ | trapped _ _ _ =>
    injection hr with hr
    subst hr
    exact hu
  | runs hready i _ hoffer _ =>
    exact commandBody_uniqueIds (i := i) (s := beginCommand s)
      (fun r now hi => hinit r now hready (hi ▸ hoffer)) hb hn hu hr.symm

/-- Settles O55: ADD's new entry meets no other slot with its identifier, and nothing else but a load
writes one. -/
theorem identifiersStayUnique : Obligations.IdentifiersStayUnique := by
  refine ⟨fun s t i hb hbuilt hn hu hinit ht => ?_, fun s t h hno hu ht hseen => ?_⟩
  · by_cases hi : isCommand i = true
    · have hstep := storeStep_exec (offers := (· = i)) hi rfl s
      rw [ht] at hstep
      exact storeStep_uniqueIds hstep (storeTick_idle_keeps hb)
        (fun r now _ heq => hinit r now heq.symm) hbuilt hn hu
    · cases i with
      | rx b =>
        injection ht with ht
        subst ht
        exact hu
      | init _ _ | advance _ | check _ | add _ _ | clear => exact absurd rfl hi
  · obtain ⟨hnoTake, hnoJob⟩ := hno
    obtain ⟨i, rest, hnext, ⟨landed, -, rfl⟩ | ⟨rx, cmd, landed, -, rfl⟩ | ⟨rx, cmd, -, hs, rfl⟩ |
      ⟨rx, cmd, d, rfl, hs, hcycle⟩⟩ := step_cases ht
    · cases hseen
    · exact uniqueIds_of_empty rfl
    · rw [unpoweredCycle_resetSeen, hs] at hseen
      cases hseen
    · have hstep := storeStep_cycleStore cmd { s with inputs := rest, dec := d }
      rw [hcycle] at hstep
      exact storeStep_uniqueIds hstep ((h.of_dec_inputs d rest).storeTick_keeps hs hnoJob)
        (fun r now hready hoffer => hnoTake r now (nextTakes_of_offered hnext hready hoffer))
        ⟨h.build, h.tableLength⟩ (h.running hs).count hu

end Sys2Proof.Machine
end

section
/-! PROOFS. Frames (40_tag_decoder.md R110-R121, 30_encoding.md R80-R84): what a stream of digits leaves in
the buffer, what a whole frame gives, and what one flipped bit does to it. -/

namespace Sys2Proof.Machine

/-- Settles O6: RX replaces the decoder and nothing else. -/
theorem rxCompletesAndTouchesOnlyTheDecoder : Obligations.RxCompletesAndTouchesOnlyTheDecoder :=
  fun _ _ => ⟨_, exec_rx_of_dec rfl, rfl, rfl, fun _ => rfl, rfl, rfl, rfl, rfl, rfl⟩

/-- Settles O12: without a byte the decoder ticks, and the store does not touch it. -/
theorem idleCyclesKeepAPartialFrame : Obligations.IdleCyclesKeepAPartialFrame := by
  intro s t cmd rest hs hin ht
  have htake : takeInput s = (.cycle none cmd, { s with inputs := rest }) :=
    takeInput_of_nextInput (.inl hin)
  rw [step_of_wellFormed (wellFormed_of_step ht), htake,
    applyInput_cycle (s := { s with inputs := rest }) hs] at ht
  obtain ⟨-, hdec, -⟩ := cycleStore_outside ht
  rw [hdec]
  exact ⟨rfl, rfl, rfl⟩

/-! ### Streams cut in two -/

theorem decAfter_append (xs ys : List Byte) : ∀ d : Decoder,
    decAfter (xs ++ ys) d = decAfter ys (decAfter xs d) := by
  induction xs with
  | nil => exact fun _ => rfl
  | cons x xs ih => exact fun d => ih (rxByte x d)

theorem decResults_append (xs ys : List Byte) : ∀ (i : Nat) (d : Decoder),
    decResults i (xs ++ ys) d =
      decResults i xs d ++ decResults (i + xs.length) ys (decAfter xs d) := by
  induction xs with
  | nil => exact fun _ _ => rfl
  | cons x xs ih =>
    intro i d
    rw [List.cons_append, decResults, ih, decResults, List.append_assoc, List.length_cons, decAfter,
      Nat.add_assoc, Nat.add_comm 1]

/-! ### The buffer, nibble by nibble (40_tag_decoder.md R114) -/

/-- Nibble `m` of the buffer, the high one of byte 0 first. -/
def nibbleAt (buf : Vector Byte 6) (m : Nat) : Nibble :=
  if m % 2 = 0 then (bufByte buf (m / 2)).extractLsb' 4 4
  else (bufByte buf (m / 2)).extractLsb' 0 4

/-- The digit at position `p` goes into nibble `p - 1`. -/
theorem nibbleAt_storeNibble {p m : Nat} (hp : 1 ≤ p) (hm : m < 12) (v : Nibble)
    (buf : Vector Byte 6) :
    nibbleAt (storeNibble p v buf) m = if m = p - 1 then v else nibbleAt buf m := by
  have hbyte := bufByte_storeNibble p v buf (m / 2)
  by_cases hsame : m / 2 = (p - 1) / 2
  · rw [if_pos ⟨hsame, by omega⟩] at hbyte
    rw [nibbleAt, nibbleAt, hbyte]
    by_cases hp2 : p % 2 = 1 <;> by_cases hm2 : m % 2 = 0
    · rw [if_pos hm2, if_pos hp2, if_pos (show m = p - 1 by omega), high_withHighNibble]
    · rw [if_neg hm2, if_pos hp2, if_neg (show ¬ m = p - 1 by omega), if_neg hm2,
        low_withHighNibble]
    · rw [if_pos hm2, if_neg hp2, if_neg (show ¬ m = p - 1 by omega), if_pos hm2,
        high_withLowNibble]
    · rw [if_neg hm2, if_neg hp2, if_pos (show m = p - 1 by omega), low_withLowNibble]
  · rw [if_neg (fun h => hsame h.1)] at hbyte
    rw [nibbleAt, hbyte, if_neg (show ¬ m = p - 1 from fun h => hsame (by rw [h]))]
    rfl

theorem high_append_low (b : Byte) :
    (b.extractLsb' 4 4 ++ b.extractLsb' 0 4 : BitVec (4 + 4)) = b := by
  apply BitVec.eq_of_getLsbD_eq
  intro i hi
  simp only [BitVec.getLsbD_append, BitVec.getLsbD_extractLsb']
  grind

theorem bufByte_eq_nibbles (buf : Vector Byte 6) (j : Nat) :
    bufByte buf j = nibbleAt buf (2 * j) ++ nibbleAt buf (2 * j + 1) := by
  have hhigh : nibbleAt buf (2 * j) = (bufByte buf j).extractLsb' 4 4 := by
    rw [nibbleAt, if_pos (by omega), show 2 * j / 2 = j by omega]
  have hlow : nibbleAt buf (2 * j + 1) = (bufByte buf j).extractLsb' 0 4 := by
    rw [nibbleAt, if_neg (by omega), show (2 * j + 1) / 2 = j by omega]
  rw [hhigh, hlow]
  exact (high_append_low _).symm

/-! ### A run of digits -/

theorem rxByte_hexDigit {d : Decoder} (hlo : 1 ≤ d.pos.toNat) (hhi : d.pos.toNat ≤ 12)
    (v : Nibble) : rxByte (hexDigit v) d =
      goTo (d.pos + 1) { d with buf := storeNibble d.pos.toNat v d.buf } :=
  (rxByte_digit hlo hhi _).trans (rxDigit_of_some (hexval_hexDigit v) d)

/-- Digits at the digit positions give no result, and stand in the buffer one after the other. -/
theorem run_digits (ns : List Nibble) : ∀ (i : Nat) (d : Decoder), 1 ≤ d.pos.toNat →
    d.pos.toNat + ns.length ≤ 13 →
    decResults i (ns.map hexDigit) d = [] ∧
    (decAfter (ns.map hexDigit) d).pos.toNat = d.pos.toNat + ns.length ∧
    ∀ m, m < 12 → nibbleAt (decAfter (ns.map hexDigit) d).buf m =
      if d.pos.toNat ≤ m + 1 ∧ m + 1 < d.pos.toNat + ns.length then
        ns.getD (m + 1 - d.pos.toNat) 0
      else nibbleAt d.buf m := by
  induction ns with
  | nil =>
    refine fun i d _ _ => ⟨rfl, rfl, fun m _ => ?_⟩
    rw [if_neg (by simp only [List.length_nil]; omega)]
    rfl
  | cons v ns ih =>
    intro i d hlo hhi
    rw [List.length_cons] at hhi
    have hrx := rxByte_hexDigit hlo (by omega) v
    have hpos : (rxByte (hexDigit v) d).pos.toNat = d.pos.toNat + 1 := by
      rw [hrx]
      exact BitVec.toNat_add_of_lt (show d.pos.toNat + 1 < 2 ^ 4 by omega)
    obtain ⟨hresults, hafter, hbuf⟩ := ih (i + 1) (rxByte (hexDigit v) d) (by omega) (by omega)
    refine ⟨?_, ?_, fun m hm => ?_⟩
    · rw [List.map_cons, decResults, hresults, hrx]
      rfl
    · rw [List.map_cons, decAfter, hafter, hpos, List.length_cons]
      omega
    · rw [List.map_cons, decAfter, hbuf m hm, hpos, List.length_cons]
      have hstored : nibbleAt (rxByte (hexDigit v) d).buf m =
          if m = d.pos.toNat - 1 then v else nibbleAt d.buf m := by
        rw [hrx]
        exact nibbleAt_storeNibble hlo hm v d.buf
      by_cases hfirst : m + 1 = d.pos.toNat
      · rw [if_neg (by omega), if_pos (by omega), hstored, if_pos (by omega),
          show m + 1 - d.pos.toNat = 0 by omega]
        rfl
      · by_cases hlater : d.pos.toNat + 1 ≤ m + 1 ∧ m + 1 < d.pos.toNat + 1 + ns.length
        · rw [if_pos hlater, if_pos (by omega),
            show m + 1 - d.pos.toNat = (m + 1 - (d.pos.toNat + 1)) + 1 by omega]
          rfl
        · rw [if_neg hlater, if_neg (by omega), hstored, if_neg (by omega)]

/-! ### A whole frame -/

/-- The frame with the digits `ns` between its markers (30_encoding.md R80). -/
def digitFrame (ns : List Nibble) : List Byte :=
  markSTX :: ns.map hexDigit ++ [markCR, markLF, markETX]

/-- The byte that digits `2j` and `2j + 1` spell (30_encoding.md R83). -/
def spelledByte (ns : List Nibble) (j : Nat) : Byte := ns.getD (2 * j) 0 ++ ns.getD (2 * j + 1) 0

/-- The start marker at position 0 opens a frame. -/
theorem rxByte_markSTX {d : Decoder} (h : d.pos = 0) : rxByte markSTX d = goTo 1 d :=
  (rxByte_start h _).trans (rxMark_self _ _ _)

/-- Twelve digits between the markers bring the decoder to CHECKSUM_COMPARE, with the spelled bytes in the
buffer, and no result before it (40_tag_decoder.md R112-R118). -/
theorem run_digitFrame {ns : List Nibble} (hlen : ns.length = 12) {d : Decoder} (h : d.pos = 0) :
    ∃ d', (∀ j, j < 6 → bufByte d'.buf j = spelledByte ns j) ∧
      decAfter (digitFrame ns) d = compareChecksum d' ∧
      decResults 0 (digitFrame ns) d =
        (shownResult (compareChecksum d')).toList.map fun r => (15, r) := by
  have hstart := rxByte_markSTX h
  obtain ⟨hresults, hpos, hbuf⟩ := run_digits ns 1 (goTo 1 d) le_rfl
    (by rw [hlen]; exact le_rfl)
  generalize hd : decAfter (ns.map hexDigit) (goTo 1 d) = d1 at hpos hbuf
  have hpos1 : d1.pos = 13 := BitVec.eq_of_toNat_eq (by rw [hpos, hlen]; rfl)
  have hreturn : rxByte markCR d1 = goTo 14 d1 :=
    (rxByte_return hpos1 _).trans (rxMark_self _ _ _)
  have hfeed : rxByte markLF (goTo 14 d1) = goTo 15 (goTo 14 d1) :=
    (rxByte_feed rfl _).trans (rxMark_self _ _ _)
  have hend : rxByte markETX (goTo 15 (goTo 14 d1)) = compareChecksum (goTo 15 (goTo 14 d1)) :=
    (rxByte_end rfl _).trans (rxLast_markETX _)
  refine ⟨goTo 15 (goTo 14 d1), fun j hj => ?_, ?_, ?_⟩
  · have hnibble (m : Nat) (hm : m < 12) : nibbleAt d1.buf m = ns.getD m 0 := by
      rw [hbuf m hm, hlen]
      exact if_pos (show 1 ≤ m + 1 ∧ m + 1 < 1 + 12 by omega)
    change bufByte d1.buf j = _
    rw [bufByte_eq_nibbles, hnibble _ (by omega), hnibble _ (by omega)]
    rfl
  · rw [digitFrame, List.cons_append, decAfter, hstart, decAfter_append, hd]
    simp only [decAfter, hreturn, hfeed, hend]
  · rw [digitFrame, List.cons_append, decResults, hstart, decResults_append, hresults, hd,
      List.length_map, hlen]
    simp only [decResults, hreturn, hfeed, hend, shownResult_goTo, Option.toList_none, List.map_nil,
      List.nil_append, List.append_nil, Nat.reduceAdd]

/-- The exclusive-or of the five spelled data bytes (30_encoding.md R84). -/
def spelledXor (ns : List Nibble) : Byte :=
  spelledByte ns 0 ^^^ spelledByte ns 1 ^^^ spelledByte ns 2 ^^^ spelledByte ns 3 ^^^ spelledByte ns 4

theorem xorData_of_spelled {ns : List Nibble} {buf : Vector Byte 6}
    (h : ∀ j, j < 6 → bufByte buf j = spelledByte ns j) : xorData buf = spelledXor ns := by
  rw [xorData, h 0 (by omega), h 1 (by omega), h 2 (by omega), h 3 (by omega), h 4 (by omega)]
  rfl

/-- A frame whose checksum digits spell another byte than the exclusive-or gives CHECKSUM at the last
byte. -/
theorem digitFrame_mismatch {ns : List Nibble} (hlen : ns.length = 12)
    (hne : spelledXor ns ≠ spelledByte ns 5) {d : Decoder} (h : d.pos = 0) :
    decResults 0 (digitFrame ns) d = [(15, ⟨statusChecksum, none⟩)] ∧
      (decAfter (digitFrame ns) d).pos = 0 := by
  obtain ⟨d', hbuf, hafter, hresults⟩ := run_digitFrame hlen h
  have hcompare : compareChecksum d' = emitError statusChecksum d' :=
    compareChecksum_of_mismatch (by rwa [xorData_of_spelled hbuf, hbuf 5 (by omega)])
  rw [hresults, hafter, hcompare, shownResult_emitError (by decide)]
  exact ⟨rfl, rfl⟩

/-- A frame whose checksum digits spell the exclusive-or gives OK with the spelled identifier. -/
theorem digitFrame_match {ns : List Nibble} (hlen : ns.length = 12)
    (heq : spelledXor ns = spelledByte ns 5) {d : Decoder} (h : d.pos = 0) :
    decResults 0 (digitFrame ns) d = [(15, ⟨statusOK, some (TagId.toField ⟨spelledByte ns 0,
        spelledByte ns 1, spelledByte ns 2, spelledByte ns 3, spelledByte ns 4⟩)⟩)] ∧
      (decAfter (digitFrame ns) d).pos = 0 := by
  obtain ⟨d', hbuf, hafter, hresults⟩ := run_digitFrame hlen h
  have hcompare : compareChecksum d' = emitOk (bufTag d'.buf) d' :=
    compareChecksum_of_match (by rwa [xorData_of_spelled hbuf, hbuf 5 (by omega)])
  have htag : bufTag d'.buf = ⟨spelledByte ns 0, spelledByte ns 1, spelledByte ns 2,
      spelledByte ns 3, spelledByte ns 4⟩ := by
    rw [bufTag, hbuf 0 (by omega), hbuf 1 (by omega), hbuf 2 (by omega), hbuf 3 (by omega),
      hbuf 4 (by omega)]
  rw [hresults, hafter, hcompare, shownResult_emitOk, htag]
  exact ⟨rfl, rfl⟩

/-- The digits of an identifier and its checksum byte. -/
def frameNibbles (t : TagId) (c : Byte) : List Nibble :=
  [t.b0, t.b1, t.b2, t.b3, t.b4, c].flatMap fun b => [b.extractLsb' 4 4, b.extractLsb' 0 4]

theorem frameOf_eq_digitFrame (t : TagId) (c : Byte) :
    frameOf t c = digitFrame (frameNibbles t c) := rfl

theorem spelledByte_frameNibbles (t : TagId) (c : Byte) :
    spelledByte (frameNibbles t c) 0 = t.b0 ∧ spelledByte (frameNibbles t c) 1 = t.b1 ∧
    spelledByte (frameNibbles t c) 2 = t.b2 ∧ spelledByte (frameNibbles t c) 3 = t.b3 ∧
    spelledByte (frameNibbles t c) 4 = t.b4 ∧ spelledByte (frameNibbles t c) 5 = c :=
  ⟨high_append_low _, high_append_low _, high_append_low _, high_append_low _, high_append_low _,
    high_append_low _⟩

theorem spelledXor_frameNibbles (t : TagId) (c : Byte) :
    spelledXor (frameNibbles t c) = tagXor t := by
  obtain ⟨h0, h1, h2, h3, h4, -⟩ := spelledByte_frameNibbles t c
  rw [spelledXor, h0, h1, h2, h3, h4]
  rfl

/-- Settles O13: the frame's digits spell the identifier and its exclusive-or. -/
theorem validFrameGivesItsIdentifier : Obligations.ValidFrameGivesItsIdentifier := by
  intro t d h
  obtain ⟨h0, h1, h2, h3, h4, h5⟩ := spelledByte_frameNibbles t (tagXor t)
  have hmatch := digitFrame_match (ns := frameNibbles t (tagXor t)) rfl
    ((spelledXor_frameNibbles t _).trans h5.symm) h
  rwa [h0, h1, h2, h3, h4] at hmatch

/-- Settles O14: the frame's digits spell another checksum than the identifier's exclusive-or. -/
theorem wrongChecksumGivesChecksum : Obligations.WrongChecksumGivesChecksum := by
  intro t c d h hne
  obtain ⟨-, -, -, -, -, h5⟩ := spelledByte_frameNibbles t c
  exact digitFrame_mismatch (ns := frameNibbles t c) rfl
    (by rw [spelledXor_frameNibbles, h5]; exact hne.symm) h

/-! ### One flipped bit (40_tag_decoder.md R121) -/

/-- Changing one digit changes the byte it stands in, and no other. -/
theorem spelledByte_set_ne {ns : List Nibble} {m j : Nat} (v : Nibble) (hj : j ≠ m / 2) :
    spelledByte (ns.set m v) j = spelledByte ns j := by
  simp only [spelledByte, List.getD_eq_getElem?_getD]
  rw [List.getElem?_set_ne (by omega), List.getElem?_set_ne (by omega)]

theorem append_nibbles_inj {a b c d : Nibble} (h : (a ++ b : BitVec (4 + 4)) = c ++ d) :
    a = c ∧ b = d := by
  have hhigh := congrArg (BitVec.extractLsb' 4 4) h
  have hlow := congrArg (BitVec.extractLsb' 0 4) h
  rw [BitVec.extractLsb'_append_eq_left, BitVec.extractLsb'_append_eq_left] at hhigh
  rw [BitVec.extractLsb'_append_eq_right, BitVec.extractLsb'_append_eq_right] at hlow
  exact ⟨hhigh, hlow⟩

theorem spelledByte_set_self {ns : List Nibble} {m : Nat} (hm : m < ns.length) {v : Nibble}
    (hv : v ≠ ns[m]) : spelledByte (ns.set m v) (m / 2) ≠ spelledByte ns (m / 2) := by
  intro heq
  obtain ⟨hhigh, hlow⟩ := append_nibbles_inj heq
  simp only [List.getD_eq_getElem?_getD, List.getElem?_set] at hhigh hlow
  by_cases hpar : m % 2 = 0
  · rw [show 2 * (m / 2) = m by omega] at hhigh
    simp [hm] at hhigh
    exact hv hhigh
  · rw [show 2 * (m / 2) + 1 = m by omega] at hlow
    simp [hm] at hlow
    exact hv hlow

/-- A changed digit spoils the checksum: it changes one of the six bytes whose exclusive-or is 0. -/
theorem spelledXor_set_ne {ns : List Nibble} {m : Nat} (hlen : ns.length = 12) (hm : m < 12)
    {v : Nibble} (hv : v ≠ ns[m]) (heq : spelledXor ns = spelledByte ns 5) :
    spelledXor (ns.set m v) ≠ spelledByte (ns.set m v) 5 := by
  intro hset
  have hother := fun j => spelledByte_set_ne (ns := ns) (m := m) (j := j) v
  refine spelledByte_set_self (by omega) hv ?_
  have hj : m / 2 < 6 := by omega
  generalize m / 2 = j at *
  simp only [spelledXor] at heq hset
  interval_cases j <;> simp (disch := decide) only [hother] at hset
  on_goal 6 => exact hset.symm.trans heq
  all_goals
    rw [← heq] at hset
    simpa only [BitVec.xor_left_inj, BitVec.xor_right_inj] using hset

theorem hexDigit_ne_markSTX (v : Nibble) : hexDigit v ≠ markSTX := by
  revert v
  decide

/-- The digits after a damaged one hold no start marker. -/
theorem ne_markSTX_of_mem_tail {ns : List Nibble} {b : Byte}
    (h : b ∈ ns.map hexDigit ++ [markCR, markLF, markETX]) : b ≠ markSTX := by
  rw [List.mem_append, List.mem_map] at h
  obtain ⟨v, -, rfl⟩ | htail := h
  · exact hexDigit_ne_markSTX v
  · revert b
    decide

/-- A digit of a frame, with what stands before it and after it. -/
theorem digits_eq_at {ns : List Nibble} {m : Nat} (hm : m < ns.length) :
    ns.map hexDigit = (ns.take m).map hexDigit ++ hexDigit ns[m] :: (ns.drop (m + 1)).map hexDigit := by
  rw [← List.map_cons, ← List.drop_eq_getElem_cons hm, ← List.map_append, List.take_append_drop]

theorem modify_append_cons (f : Byte → Byte) (x : Byte) (ys : List Byte) :
    ∀ {n : Nat} {xs : List Byte}, xs.length = n → (xs ++ x :: ys).modify n f = xs ++ f x :: ys
  | _, [], rfl => rfl
  | _, a :: _, rfl => congrArg (a :: ·) (modify_append_cons f x ys rfl)

/-- A frame with one digit's byte changed. -/
theorem modify_digitFrame {ns : List Nibble} {m : Nat} (hm : m < ns.length) (f : Byte → Byte) :
    (digitFrame ns).modify (m + 1) f =
      markSTX :: ((ns.take m).map hexDigit ++ f (hexDigit ns[m]) ::
        ((ns.drop (m + 1)).map hexDigit ++ [markCR, markLF, markETX])) := by
  have hlen : ((ns.take m).map hexDigit).length = m := by
    rw [List.length_map, List.length_take]
    omega
  rw [digitFrame, digits_eq_at hm, List.cons_append, List.modify_succ_cons, List.append_assoc,
    List.cons_append, modify_append_cons f _ _ hlen]

/-- A byte outside the alphabet at a digit position gives ENCODING there; without a start marker the rest
of the frame gives FRAMING for each byte. -/
theorem results_of_bad_digit {ns : List Nibble} {x : Byte} {rest : List Byte}
    (hlen : ns.length < 12) (hx : hexval x = none) (hrest : ∀ b ∈ rest, b ≠ markSTX)
    {d : Decoder} (h : d.pos = 0) :
    decResults 0 (markSTX :: (ns.map hexDigit ++ x :: rest)) d =
      (ns.length + 1, ⟨statusEncoding, none⟩) ::
        (List.range' (ns.length + 2) rest.length).map fun k => (k, ⟨statusFraming, none⟩) := by
  obtain ⟨hresults, hpos, -⟩ := run_digits ns 1 (goTo 1 d) le_rfl
    (show 1 + ns.length ≤ 13 by omega)
  generalize hd : decAfter (ns.map hexDigit) (goTo 1 d) = d1 at hpos
  have hpos1 : d1.pos.toNat = 1 + ns.length := hpos
  have hbad : rxByte x d1 = emitError statusEncoding d1 :=
    (rxByte_digit (by omega) (by omega) x).trans (rxDigit_of_none hx d1)
  obtain ⟨hframing, -, -⟩ := run_without_start rest (ns.length + 2) (emitError statusEncoding d1) rfl
    hrest
  rw [decResults, rxByte_markSTX h, decResults_append, hresults, hd, List.length_map, decResults,
    hbad, shownResult_emitError (by decide), show 0 + 1 + ns.length + 1 = ns.length + 2 by omega,
    hframing, show 0 + 1 + ns.length = ns.length + 1 by omega]
  rfl

theorem flipped_ne {b : Byte} {k : Nat} (hk : k < 8) : b ^^^ BitVec.twoPow 8 k ≠ b := by
  intro h
  have hbit := congrArg (fun c => BitVec.getLsbD c k) h
  simp [hk] at hbit

/-- Settles O15: a damaged digit is no digit, or it is another one and spoils the checksum. -/
theorem singleBitErrorIsNeverAccepted : Obligations.SingleBitErrorIsNeverAccepted := by
  intro t d p k h hlo hhi hk
  obtain ⟨m, rfl⟩ : ∃ m, p = m + 1 := ⟨p - 1, by omega⟩
  have hlen : (frameNibbles t (tagXor t)).length = 12 := rfl
  have hxor : spelledXor (frameNibbles t (tagXor t)) = spelledByte (frameNibbles t (tagXor t)) 5 := by
    obtain ⟨-, -, -, -, -, h5⟩ := spelledByte_frameNibbles t (tagXor t)
    rw [spelledXor_frameNibbles, h5]
  rw [frameOf_eq_digitFrame]
  generalize frameNibbles t (tagXor t) = ns at hlen hxor
  have hm : m < ns.length := by omega
  dsimp only
  rw [modify_digitFrame hm]
  have hne : hexDigit ns[m] ^^^ BitVec.twoPow 8 k ≠ hexDigit ns[m] := flipped_ne hk
  generalize hexDigit ns[m] ^^^ BitVec.twoPow 8 k = x at hne
  cases hx : hexval x with
  | none =>
    have htake : (ns.take m).length = m := by rw [List.length_take]; omega
    have hresults := results_of_bad_digit (ns := ns.take m) (by omega) hx
      (fun b => ne_markSTX_of_mem_tail (ns := ns.drop (m + 1))) h
    rw [hresults, htake]
    refine ⟨fun r hr => ?_, .inl rfl⟩
    rw [List.mem_cons, List.mem_map] at hr
    obtain rfl | ⟨i, -, rfl⟩ := hr
    · exact (by decide : statusEncoding ≠ statusOK)
    · exact (by decide : statusFraming ≠ statusOK)
  | some v =>
    obtain rfl := hexval_eq_some_iff.1 hx
    have hv : v ≠ ns[m] := fun heq => hne (by rw [heq])
    have hset : (ns.set m v).length = 12 := by rw [List.length_set, hlen]
    have hframe : markSTX :: ((ns.take m).map hexDigit ++ hexDigit v ::
        ((ns.drop (m + 1)).map hexDigit ++ [markCR, markLF, markETX])) = digitFrame (ns.set m v) := by
      rw [digitFrame, List.set_eq_take_append_cons_drop, if_pos hm, List.map_append, List.map_cons,
        List.cons_append, List.append_assoc, List.cons_append]
    obtain ⟨hresults, -⟩ := digitFrame_mismatch hset
      (spelledXor_set_ne hlen (by omega) hv hxor) h
    rw [hframe, hresults]
    refine ⟨fun r hr => ?_, .inr rfl⟩
    obtain rfl := List.mem_singleton.1 hr
    exact (by decide : statusChecksum ≠ statusOK)

/-! ### Frames are independent (40_tag_decoder.md R120) -/

/-- Two decoders at one position that agree on the digits of the frame taken so far. -/
def AgreeSoFar (d d' : Decoder) : Prop :=
  d.pos = d'.pos ∧ ∀ m, m < 12 → m + 1 < d.pos.toNat → nibbleAt d.buf m = nibbleAt d'.buf m

/-- The decoder's positions: the start, the digits, and the three end markers. -/
theorem pos_cases (d : Decoder) : d.pos = 0 ∨ (1 ≤ d.pos.toNat ∧ d.pos.toNat ≤ 12) ∨ d.pos = 13 ∨
    d.pos = 14 ∨ d.pos = 15 := by
  have hlt : d.pos.toNat < 16 := d.pos.isLt
  have hval : ∀ n : Nat, n < 16 → d.pos.toNat = n → d.pos = BitVec.ofNat 4 n := fun n hn h =>
    BitVec.eq_of_toNat_eq (by rw [h, BitVec.toNat_ofNat, Nat.mod_eq_of_lt hn])
  by_cases h12 : d.pos.toNat ≤ 12
  · by_cases h0 : d.pos.toNat = 0
    · exact .inl (hval 0 (by omega) h0)
    · exact .inr (.inl ⟨by omega, h12⟩)
  · rcases (by omega : d.pos.toNat = 13 ∨ d.pos.toNat = 14 ∨ d.pos.toNat = 15) with h | h | h
    · exact .inr (.inr (.inl (hval 13 (by omega) h)))
    · exact .inr (.inr (.inr (.inl (hval 14 (by omega) h))))
    · exact .inr (.inr (.inr (.inr (hval 15 (by omega) h))))

/-- At position 0 nothing has been taken. -/
theorem agreeSoFar_of_start {d d' : Decoder} (h : d.pos = 0) (h' : d'.pos = 0) : AgreeSoFar d d' :=
  ⟨h.trans h'.symm, fun m _ hm => by simp [h] at hm⟩

/-- A marker position shows the same result and goes on to the same position. -/
theorem agreeSoFar_rxMark {d d' : Decoder} (mark : Byte) {next : BitVec 4} (b : Byte)
    (h : ∀ m, m < 12 → m + 1 < next.toNat → nibbleAt d.buf m = nibbleAt d'.buf m) :
    shownResult (rxMark mark next b d) = shownResult (rxMark mark next b d') ∧
      AgreeSoFar (rxMark mark next b d) (rxMark mark next b d') := by
  by_cases hb : b = mark
  · subst hb
    rw [rxMark_self, rxMark_self]
    exact ⟨rfl, rfl, h⟩
  · rw [rxMark_of_ne hb, rxMark_of_ne hb, shownResult_emitError (by decide),
      shownResult_emitError (by decide)]
    exact ⟨rfl, agreeSoFar_of_start rfl rfl⟩

/-- One byte: what is shown, and what is agreed on, is the same. -/
theorem AgreeSoFar.rxByte {d d' : Decoder} (h : AgreeSoFar d d') (b : Byte) :
    shownResult (rxByte b d) = shownResult (rxByte b d') ∧
      AgreeSoFar (rxByte b d) (rxByte b d') := by
  obtain ⟨hpos, hbuf⟩ := h
  rcases pos_cases d with h0 | ⟨hlo, hhi⟩ | h13 | h14 | h15
  · rw [rxByte_start h0, rxByte_start (hpos ▸ h0)]
    exact agreeSoFar_rxMark markSTX b fun m _ hm => by simp at hm
  · rw [rxByte_digit hlo hhi, rxByte_digit (hpos ▸ hlo) (hpos ▸ hhi)]
    cases hv : hexval b with
    | none =>
      rw [rxDigit_of_none hv, rxDigit_of_none hv, shownResult_emitError (by decide),
        shownResult_emitError (by decide)]
      exact ⟨rfl, agreeSoFar_of_start rfl rfl⟩
    | some v =>
      rw [rxDigit_of_some hv, rxDigit_of_some hv, ← hpos]
      refine ⟨rfl, rfl, fun m hm hnext => ?_⟩
      have hsucc : (d.pos + 1).toNat = d.pos.toNat + 1 :=
        BitVec.toNat_add_of_lt (show d.pos.toNat + 1 < 2 ^ 4 by omega)
      have hnext : m + 1 < (d.pos + 1).toNat := hnext
      change nibbleAt (storeNibble _ v d.buf) m = nibbleAt (storeNibble _ v d'.buf) m
      rw [nibbleAt_storeNibble hlo hm, nibbleAt_storeNibble hlo hm]
      split
      · rfl
      · exact hbuf m hm (by omega)
  · rw [rxByte_return h13, rxByte_return (hpos ▸ h13)]
    exact agreeSoFar_rxMark markCR b fun m hm _ => hbuf m hm (by simp [h13]; omega)
  · rw [rxByte_feed h14, rxByte_feed (hpos ▸ h14)]
    exact agreeSoFar_rxMark markLF b fun m hm _ => hbuf m hm (by simp [h14]; omega)
  · rw [rxByte_end h15, rxByte_end (hpos ▸ h15)]
    have hbytes : ∀ j, j < 6 → bufByte d.buf j = bufByte d'.buf j := fun j hj => by
      rw [bufByte_eq_nibbles, bufByte_eq_nibbles, hbuf _ (by omega) (by simp [h15]; omega),
        hbuf _ (by omega) (by simp [h15]; omega)]
    by_cases hb : b = markETX
    · subst hb
      rw [rxLast_markETX, rxLast_markETX]
      have hxor : xorData d.buf = xorData d'.buf := by
        simp only [xorData, hbytes 0 (by omega), hbytes 1 (by omega), hbytes 2 (by omega),
          hbytes 3 (by omega), hbytes 4 (by omega)]
      have htag : bufTag d.buf = bufTag d'.buf := by
        simp only [bufTag, hbytes 0 (by omega), hbytes 1 (by omega), hbytes 2 (by omega),
          hbytes 3 (by omega), hbytes 4 (by omega)]
      by_cases hsum : xorData d.buf = bufByte d.buf 5
      · rw [compareChecksum_of_match hsum,
          compareChecksum_of_match (by rw [← hxor, hsum, hbytes 5 (by omega)]), shownResult_emitOk,
          shownResult_emitOk, htag]
        exact ⟨rfl, agreeSoFar_of_start rfl rfl⟩
      · rw [compareChecksum_of_mismatch hsum,
          compareChecksum_of_mismatch (by rwa [← hxor, ← hbytes 5 (by omega)]),
          shownResult_emitError (by decide), shownResult_emitError (by decide)]
        exact ⟨rfl, agreeSoFar_of_start rfl rfl⟩
    · rw [rxLast_of_ne hb, rxLast_of_ne hb, shownResult_emitError (by decide),
        shownResult_emitError (by decide)]
      exact ⟨rfl, agreeSoFar_of_start rfl rfl⟩

theorem AgreeSoFar.decResults (bs : List Byte) : ∀ {i : Nat} {d d' : Decoder}, AgreeSoFar d d' →
    decResults i bs d = decResults i bs d' := by
  induction bs with
  | nil => exact fun _ => rfl
  | cons b rest ih =>
    intro i d d' h
    obtain ⟨hshown, hnext⟩ := h.rxByte b
    rw [Machine.decResults, Machine.decResults, hshown, ih hnext]

/-- Settles O16: a result is an emit, which starts over; from there only the digits of the frame itself
are looked at. -/
theorem framesAreIndependent : Obligations.FramesAreIndependent := by
  refine ⟨fun b d hshown => ?_, fun bs d d' h h' => (agreeSoFar_of_start h h').decResults bs⟩
  rcases rxByte_cases b d with ⟨-, -, h⟩ | ⟨v, -, -, -, h⟩ | ⟨-, -, h⟩ | ⟨-, -, h⟩ |
    ⟨-, -, -, h⟩ | ⟨status, -, h⟩ <;> rw [h] at hshown ⊢
  · exact absurd rfl hshown
  · exact absurd rfl hshown
  · exact absurd rfl hshown
  · exact absurd rfl hshown
  · rfl
  · rfl

end Sys2Proof.Machine
end

section
/-! PROOFS. Cycles, reset edges and losses of power (70_reset_and_hazards.md R230-R241): what a step runs,
what it leaves alone, and that the two agents share no state. -/

namespace Sys2Proof.Machine

/-! ### What a cycle runs -/

/-- The decoder after its part of a cycle (40_tag_decoder.md R110). -/
def cycleDec : Option Byte → Decoder → Decoder
  | none => noResult
  | some b => rxByte b

theorem cycleDecoder_eq (rx : Option Byte) (s : State) :
    cycleDecoder rx s = .next { s with dec := cycleDec rx s.dec } := by
  cases rx <;> rfl

/-- A cycle of a machine that has seen a reset edge. -/
theorem step_of_cycle {s : State} {rx : Option Byte} {cmd : Option CmdWord} {rest : List Input}
    (hcfg : s.cfg.wellFormed = true) (hs : s.resetSeen = true)
    (hnext : NextInput s (.cycle rx cmd) rest) :
    step s = cycleStore cmd { s with inputs := rest, dec := cycleDec rx s.dec } := by
  rw [step_of_wellFormed hcfg, takeInput_of_nextInput hnext,
    applyInput_cycle (s := { s with inputs := rest }) hs, cycleDecoder_eq]
  rfl

/-- A cycle before the first reset edge. -/
theorem step_of_unpowered {s : State} {rx : Option Byte} {cmd : Option CmdWord} {rest : List Input}
    (hcfg : s.cfg.wellFormed = true) (hs : s.resetSeen = false)
    (hnext : NextInput s (.cycle rx cmd) rest) :
    step s = .next (unpoweredCycle { s with inputs := rest }) := by
  rw [step_of_wellFormed hcfg, takeInput_of_nextInput hnext,
    applyInput_cycle_unpowered (s := { s with inputs := rest }) (by simp [hs])]

theorem step_of_reset {s : State} {rx : Option Byte} {cmd : Option CmdWord} {landed : Bool}
    {rest : List Input} (hcfg : s.cfg.wellFormed = true)
    (hin : s.inputs = .reset rx cmd landed :: rest) :
    step s = .next (hardReset landed { s with inputs := rest }) := by
  rw [step_of_wellFormed hcfg, takeInput_of_nextInput (.inl hin)]
  rfl

theorem step_of_powerLoss {s : State} {landed : Bool} {rest : List Input}
    (hcfg : s.cfg.wellFormed = true) (hin : s.inputs = .powerLoss landed :: rest) :
    step s = .next (losePower landed { s with inputs := rest }) := by
  rw [step_of_wellFormed hcfg, takeInput_of_nextInput (.inl hin)]
  rfl

theorem cycleStore_ok {w : CmdWord} {i : Instr} (h : decodeCmd w = .ok i) (s : State) :
    cycleStore (some w) s = exec i s := by
  simp [cycleStore, decode, h]

/-- Settles O48: the decoder's part is RX or a tick, the store's part the command, the illegal word or a
tick. -/
theorem stepRunsTheDecodedOperation : Obligations.StepRunsTheDecodedOperation := by
  intro s rest hcfg hs
  refine ⟨fun b i hb hin => ?_, fun w i hw hin => ?_, fun b w i j hb hw hin => ?_, fun hin => ?_,
    fun hin => ?_, fun w e hw hin => ?_, fun b w i e hb hw hin => ?_⟩
  · injection hb with hb
    subst hb
    exact step_of_cycle hcfg hs (.inl hin)
  · exact (step_of_cycle hcfg hs (.inl hin)).trans (cycleStore_ok hw _)
  · injection hb with hb
    subst hb
    exact (step_of_cycle hcfg hs (.inl hin)).trans (cycleStore_ok hw _)
  · exact step_of_cycle hcfg hs (.inl hin)
  · refine (step_of_cycle hcfg hs (.inr ⟨hin, rfl, rfl⟩)).trans ?_
    rw [← hin]
    rfl
  · exact (step_of_cycle hcfg hs (.inl hin)).trans (cycleStore_illegal hw _)
  · injection hb with hb
    subst hb
    exact (step_of_cycle hcfg hs (.inl hin)).trans (cycleStore_illegal hw _)

/-- A busy store accepts no word (10_state.md R37). -/
theorem cycleStore_busy {s : State} (hb : s.store.busy = true) (cmd : Option CmdWord) :
    cycleStore cmd s = storeTick s := by
  cases cmd with
  | none => rfl
  | some w =>
    cases hw : decodeCmd w with
    | ok i =>
      rw [cycleStore_ok hw, exec_eq_accept (isCommand_of_decodeCmd hw)]
      exact accept_busy hb
    | error e =>
      rw [cycleStore_illegal hw]
      exact accept_busy hb

/-- Settles O20: with or without the word the store ticks. -/
theorem busyStoreAcceptsNoCommand : Obligations.BusyStoreAcceptsNoCommand := by
  intro s rx w rest hb hin
  by_cases hcfg : s.cfg.wellFormed = true
  · rcases Bool.eq_false_or_eq_true s.resetSeen with hs | hs
    · refine (step_of_cycle hcfg hs (.inl hin)).trans (Eq.trans (cycleStore_busy
        (s := { s with inputs := rest, dec := cycleDec rx s.dec }) hb _) ?_)
      exact (step_of_cycle (s := { s with inputs := .cycle rx none :: rest }) hcfg hs (.inl rfl)).symm
    · refine (step_of_unpowered hcfg hs (.inl hin)).trans ?_
      exact (step_of_unpowered (s := { s with inputs := .cycle rx none :: rest }) hcfg hs
        (.inl rfl)).symm
  · rw [step_of_not_wellFormed hcfg]
    exact (step_of_not_wellFormed (s := { s with inputs := .cycle rx none :: rest }) hcfg).symm

/-- Settles O60: the cycle is a tick of an idle store, which draws new free outputs and changes nothing
else. -/
theorem idleStoreShowsNoResponse : Obligations.IdleStoreShowsNoResponse := by
  intro s rest hcfg hs hb hin
  obtain ⟨rx, hnext⟩ : ∃ rx, NextInput s (.cycle rx none) rest := by
    obtain ⟨rx, hin⟩ | ⟨hin, hrest⟩ := hin
    · exact ⟨rx, .inl hin⟩
    · exact ⟨none, .inr ⟨hin, rfl, hrest⟩⟩
  have hstep := (step_of_cycle hcfg hs hnext).trans
    (storeTick_idle (s := { s with inputs := rest, dec := cycleDec rx s.dec }) hb)
  exact ⟨_, hstep, rfl, rfl, hb, rfl, rfl, rfl, ⟨rfl, rfl, rfl⟩, fun _ => rfl, rfl, rfl, rfl, hs,
    rfl⟩

/-- Settles O18: the acceptance checks stop the command, and fault entry touches nothing but the fault and
the response. -/
theorem commandBeforeInitRaisesNotInit : Obligations.CommandBeforeInitRaisesNotInit := by
  intro s i hready hinit hi
  have htrap : initTrap s = some codeNotInit := initTrap_uninitialized hinit
  have hexec : exec i s = .next (raiseFault codeNotInit (beginCommand s)) := by
    obtain ⟨now, rfl⟩ | ⟨id, rfl⟩ | ⟨id, h, rfl⟩ | rfl := hi
    all_goals
      refine (exec_eq_accept rfl s).trans ?_
      rw [commandTrap_eq_initTrap (by simp), htrap]
      exact accept_traps hready
  exact ⟨_, hexec, ⟨rfl, rfl, rfl, rfl⟩, rfl, hinit, rfl, rfl, rfl, fun _ => rfl, rfl,
    ⟨rfl, rfl, rfl, rfl, rfl⟩⟩

/-! ### Reset and power -/

/-- Settles O45, field by field. -/
theorem resetStateIsTheSpecs : Obligations.ResetStateIsTheSpecs := fun _ =>
  ⟨rfl, rfl, rfl, rfl, rfl, rfl, rfl, rfl, List.length_replicate, rfl, rfl, rfl, rfl, rfl,
    fun _ => rfl⟩

/-- What an abandoned access leaves in the NV byte space (20_memory.md R67). -/
theorem abandonAccess_frame {s : State} (h : Memory.wf s.cfg s.nv = true) (landed : Bool) :
    (∀ a, ¬ (writeOutstanding s = true ∧ a = s.store.port.addr) →
      readNv (abandonAccess landed s) a = readNv s a) ∧
    (writeOutstanding s = true → readNv (abandonAccess landed s) s.store.port.addr =
      if landed then s.store.port.wdata else readNv s s.store.port.addr) := by
  refine ⟨fun a ha => ?_, fun hw => ?_⟩
  · rw [readNv_abandonAccess h]
    refine if_neg fun ⟨hw, heq⟩ => ha ⟨?_, heq⟩
    rw [Bool.and_eq_true] at hw
    exact hw.1
  · rw [readNv_abandonAccess h, hw]
    cases landed <;> simp

/-- Before the first reset edge no write is outstanding (70_reset_and_hazards.md R231). -/
theorem abandonAccess_unpowered {s : State} (hs : s.resetSeen = false) (landed : Bool) :
    abandonAccess landed s = s := by
  simp [abandonAccess, writeOutstanding, hs]

/-- The registers after a reset edge (10_state.md R35). -/
theorem hardReset_registers (landed : Bool) (s : State) :
    (hardReset landed s).dec.pos = 0 ∧ (hardReset landed s).dec.valid = false ∧
    (hardReset landed s).store.initialized = false ∧ (hardReset landed s).store.fault = 0 ∧
    (hardReset landed s).store.busy = false ∧ (hardReset landed s).store.inFlight = none ∧
    (hardReset landed s).store.numEntries = 0 ∧ (hardReset landed s).store.rsp.valid = false ∧
    (hardReset landed s).store.port.req = false ∧
    (hardReset landed s).store.table.length = s.cfg.capacity :=
  ⟨rfl, rfl, rfl, rfl, rfl, rfl, rfl, rfl, rfl, by simp [resetStore]⟩

/-- Settles O46: the registers come from `resetStore` and `resetDecoder`, the NV byte space from the
abandoned access. -/
theorem resetEdgeDiscardsEverythingButNv : Obligations.ResetEdgeDiscardsEverythingButNv := by
  intro s rx cmd landed rest hcfg hwf hin
  obtain ⟨h1, h2, h3, h4, h5, h6, h7, h8, h9, h10⟩ :=
    hardReset_registers landed { s with inputs := rest }
  obtain ⟨hkept, hwritten⟩ := abandonAccess_frame (s := { s with inputs := rest }) hwf landed
  refine ⟨_, step_of_reset hcfg hin, h1, h2, h3, h4, h5, h6, h7, h8, h9, h10, rfl,
    hardReset_cfg _ _, hardReset_inputs _ _, hardReset_nvSamples _ _, hardReset_nvRest _ _, ?_, ?_⟩
  · exact hkept
  · exact hwritten

/-- Settles O47: only the NV byte space survives a loss of power; until the next reset edge nothing is
outstanding on the port. -/
theorem powerLossKeepsOnlyNv : Obligations.PowerLossKeepsOnlyNv := by
  refine ⟨fun s landed rest hcfg hwf hin => ?_, fun s rest hcfg hs => ⟨fun rx cmd hin => ?_,
    fun rx cmd landed hin => ?_⟩⟩
  · obtain ⟨hkept, hwritten⟩ := abandonAccess_frame (s := { s with inputs := rest }) hwf landed
    exact ⟨_, step_of_powerLoss hcfg hin, rfl, losePower_inputs _ _, losePower_cfg _ _,
      losePower_nvSamples _ _, losePower_nvRest _ _, hkept, hwritten⟩
  · exact ⟨_, step_of_unpowered hcfg hs (.inl hin), hs, fun _ => rfl, rfl, rfl, rfl, rfl⟩
  · obtain ⟨h1, h2, h3, h4, h5, h6, h7, h8, h9, h10⟩ :=
      hardReset_registers landed { s with inputs := rest }
    have hnv : NvKept s (hardReset landed { s with inputs := rest }) := fun a => by
      rw [readNv, hardReset_nv, hardReset_cfg,
        abandonAccess_unpowered (s := { s with inputs := rest }) hs]
      rfl
    exact ⟨_, step_of_reset hcfg hin, rfl, h1, h2, h3, h4, h5, h6, h7, h8, h9, h10, hnv,
      hardReset_cfg _ _, hardReset_inputs _ _, hardReset_nvSamples _ _, hardReset_nvRest _ _⟩

end Sys2Proof.Machine
end

section
/-! PROOFS. The two agents share no state (00_scope.md R2): the store's part of a cycle is the same
beside every decoder, and the decoder's beside every store. -/

namespace Sys2Proof.Machine

/-! ### The store beside another decoder -/

/-- The same store, NV byte space and responder beside another decoder and another schedule. -/
def beside (d : Decoder) (l : List Input) (s : State) : State := { s with dec := d, inputs := l }

/-- A result beside another decoder and schedule. -/
def mapNext (f : State → State) : Result → Result
  | .next s => .next (f s)
  | .fault e => .fault e
  | .refused e => .refused e

def mapAccessed (f : State → State) : Accessed → Accessed
  | .acked v s => .acked v (f s)
  | .waiting s => .waiting (f s)
  | .failed s => .failed (f s)
  | .absent => .absent

def mapDriven (f : State → State) : Driven → Driven
  | .done v s => .done v (f s)
  | .stopped r => .stopped (mapNext f r)

section

variable (d : Decoder) (l : List Input)

theorem issue_beside (a : Access) (s : State) : issue a (beside d l s) = beside d l (issue a s) := by
  unfold issue
  change (if s.store.port.req then _ else _) = _
  split <;> rfl

theorem performAccess_beside (a : Access) (s : State) :
    performAccess a (beside d l s) = beside d l (performAccess a s) := by
  cases a <;> rfl

theorem landAccess_beside (a : Access) (v : Byte) (s : State) :
    landAccess a v (beside d l s) = beside d l (landAccess a v s) := by
  cases a <;> rfl

theorem access_beside (a : Access) (s : State) :
    access a (beside d l s) = mapAccessed (beside d l) (access a s) := by
  have hsample : nextSample (beside d l (issue a s)) =
      ((nextSample (issue a s)).1, beside d l (nextSample (issue a s)).2) := rfl
  unfold access
  rw [issue_beside, hsample]
  generalize nextSample (issue a s) = p
  obtain ⟨x, u⟩ := p
  change (if accessAddr a < s.cfg.totalBytes then _ else _) = _
  split
  · simp only [performAccess_beside]
    cases x.err with
    | true => cases x.landed <;> rfl
    | false => cases x.ack <;> rfl
  · rfl

theorem drive_beside (job : Job) (todo : List Access) : ∀ (last : Byte) (s : State),
    drive job todo last (beside d l s) = mapDriven (beside d l) (drive job todo last s) := by
  induction todo with
  | nil => exact fun _ _ => rfl
  | cons a rest ih =>
    intro last s
    rw [drive, drive, access_beside]
    cases access a s with
    | acked v u =>
      simp only [mapAccessed]
      rw [landAccess_beside, ih]
    | waiting u => rfl
    | failed u => rfl
    | absent => rfl

theorem runJob_beside (job : Job) (todo : List Access) (s : State) :
    runJob job todo (beside d l s) = mapNext (beside d l) (runJob job todo s) := by
  unfold runJob
  rw [drive_beside]
  cases drive job todo 0 s with
  | stopped r => rfl
  | done last u =>
    cases job with
    | initCount now =>
      simp only [mapDriven, conclude, loadEntries]
      change (if u.cfg.capacity < last.toNat then _ else _) = _
      split
      · rfl
      · rw [drive_beside]
        cases drive (.initEntries now last) (loadReads 0 last.toNat) 0 u <;> rfl
    | initEmpty _ | initEntries _ _ | add _ _ | clear => rfl

theorem storeTick_beside (s : State) :
    storeTick (beside d l s) = mapNext (beside d l) (storeTick s) := by
  unfold storeTick resume
  change (if s.store.busy then match s.store.inFlight with | some f => _ | none => _ else _) = _
  split
  · cases s.store.inFlight with
    | none => rfl
    | some f => exact runJob_beside d l f.job f.todo s
  · rfl

theorem commandBody_beside (i : Instr) (s : State) :
    commandBody i (beside d l s) = mapNext (beside d l) (commandBody i s) := by
  cases i with
  | rx _ | advance _ => rfl
  | init r now => cases r <;> exact runJob_beside d l _ _ s
  | check id =>
    simp only [commandBody, runCheck]
    change (match lookup s.store id with | none => _ | some k => _) = _
    cases lookup s.store id with
    | none => rfl
    | some k =>
      simp only
      change (if required s.cfg s.store k ≤ elapsed s.store k then _ else _) = _
      split <;> rfl
  | add id interval =>
    exact runJob_beside d l _ _
      { s with store := addToTable (placeTag s.cfg s.store id) id interval s.store }
  | clear => exact runJob_beside d l _ _ { s with store := { s.store with numEntries := 0 } }

theorem accept_beside {trap : Option (BitVec 4)} {body : State → Result}
    (hbody : ∀ s, body (beside d l s) = mapNext (beside d l) (body s)) (s : State) :
    accept trap body (beside d l s) = mapNext (beside d l) (accept trap body s) := by
  unfold accept
  change (if s.store.busy then _ else if s.store.fault ≠ 0 then _ else _) = _
  split
  · exact storeTick_beside d l s
  · split
    · rfl
    · cases trap with
      | some code => rfl
      | none => exact hbody (beginCommand s)

/-- The store's part of a cycle looks at neither the decoder nor the schedule. -/
theorem cycleStore_beside (cmd : Option CmdWord) (s : State) :
    cycleStore cmd (beside d l s) = mapNext (beside d l) (cycleStore cmd s) := by
  cases cmd with
  | none => exact storeTick_beside d l s
  | some w =>
    cases hw : decodeCmd w with
    | error e =>
      rw [cycleStore_illegal hw, cycleStore_illegal hw]
      exact accept_beside d l (fun _ => rfl) s
    | ok i =>
      have hi := isCommand_of_decodeCmd hw
      rw [cycleStore_ok hw, cycleStore_ok hw, exec_eq_accept hi, exec_eq_accept hi]
      have htrap : commandTrap i (beside d l s) = commandTrap i s := by cases i <;> rfl
      rw [htrap]
      exact accept_beside d l (commandBody_beside d l i) s

end

/-! ### Two machines -/

/-- Settles O49: the decoder's part is a function of the decoder and the byte, the store's part is the
same beside both decoders. -/
theorem agentsDoNotInfluenceEachOther : Obligations.AgentsDoNotInfluenceEachOther := by
  intro s s' t t' rx rx' cmd cmd' rest rest' hin hin' hseen ht ht'
  have hcfg := wellFormed_of_step ht
  have hcfg' := wellFormed_of_step ht'
  rcases Bool.eq_false_or_eq_true s.resetSeen with hs | hs
  · rw [step_of_cycle hcfg hs (.inl hin)] at ht
    rw [step_of_cycle hcfg' (hseen ▸ hs) (.inl hin')] at ht'
    refine ⟨fun hdec hrx => ?_, fun hstore hnv hcfg hsamples hrest hcmd => ?_⟩
    · obtain ⟨-, hd, -⟩ := cycleStore_outside ht
      obtain ⟨-, hd', -⟩ := cycleStore_outside ht'
      rw [hd, hd', hdec, hrx]
    · have hbeside : ({ s' with inputs := rest', dec := cycleDec rx' s'.dec } : State) =
          beside (cycleDec rx' s'.dec) rest' { s with inputs := rest, dec := cycleDec rx s.dec } := by
        rw [beside, hstore, hnv, hcfg, hsamples, hrest, hseen]
      rw [hbeside, ← hcmd, cycleStore_beside, ht] at ht'
      injection ht' with ht'
      subst ht'
      exact ⟨rfl, rfl, rfl⟩
  · rw [step_of_unpowered hcfg hs (.inl hin)] at ht
    rw [step_of_unpowered hcfg' (hseen ▸ hs) (.inl hin')] at ht'
    injection ht with ht
    injection ht' with ht'
    subst ht ht'
    refine ⟨fun hdec _ => ?_, fun hstore hnv hcfg hsamples _ _ => ⟨?_, hnv, hsamples⟩⟩
    · exact congrArg unpoweredDecoder hdec
    · exact congrArg₂ unpoweredStore hcfg hstore

end Sys2Proof.Machine
end

section
/-! PROOFS. ADVANCE and CHECK, which make no NV access (41_store_commands.md R141-R143, R155-R161). -/

namespace Sys2Proof.Machine

theorem exec_serving {i : Instr} {s : State} (hi : isCommand i = true)
    (hinit : ∀ r now, i ≠ .init r now) (h : Serving s) :
    exec i s = commandBody i (beginCommand s) := by
  rw [exec_eq_accept hi, commandTrap_eq_initTrap hinit]
  exact accept_serving h

/-! ### ADVANCE -/

/-- The state ADVANCE leaves (41_store_commands.md R155). -/
def advanced (now : Millis) (s : State) : State :=
  respond codeOK s.store.numEntries (wraps now s.store)
    { beginCommand s with store := { (beginCommand s).store with
      table := advanceTable now s.store, nowReg := now } }

theorem exec_advance {s : State} (h : Serving s) (now : Millis) :
    exec (.advance now) s = .next (advanced now s) :=
  exec_serving rfl (by simp) h

theorem slot_advanced (now : Millis) (s : State) (k : Nat) :
    slot (advanced now s).store k =
      if wraps now s.store = true ∧ k < s.store.numEntries.toNat ∧ k < s.store.table.length then
        foldEntry s.store.nowReg now (slot s.store k)
      else slot s.store k := slot_advanceTable s.store now now k

theorem slot_advanced_of_wrap {now : Millis} {s : State} {k : Nat}
    (hw : now.toNat < s.store.nowReg.toNat) (hk : k < s.store.numEntries.toNat)
    (hlen : k < s.store.table.length) :
    slot (advanced now s).store k = foldEntry s.store.nowReg now (slot s.store k) := by
  rw [slot_advanced, if_pos ⟨decide_eq_true hw, hk, hlen⟩]

theorem toNat_sat32 (x : Nat) : (sat32 x).toNat = min x 0xFFFFFFFF := by
  rw [sat32, BitVec.toNat_ofNat]
  omega

theorem toNat_foldEntry_carry (prev new : Millis) (e : Entry) :
    (foldEntry prev new e).carry.toNat =
      min (e.carry.toNat + (prev - e.lastGrant).toNat) 0xFFFFFFFF := toNat_sat32 _

/-- Settles O25: the fold is `foldEntry` on every occupied slot, at a wrap only. -/
theorem advanceTakesTheReadingAndFoldsAtAWrap :
    Obligations.AdvanceTakesTheReadingAndFoldsAtAWrap := by
  intro s now h
  have hexec := exec_advance h now
  obtain ⟨⟨-, hfault⟩, hinit⟩ := h
  refine ⟨_, hexec, ⟨rfl, rfl, rfl, rfl⟩, rfl, hinit, hfault, rfl, length_advanceTable _ _,
    fun hle => ?_, fun hw => ⟨fun k hk hlen => ?_, fun k hk => ?_⟩, fun _ => rfl, rfl,
    ⟨rfl, rfl, rfl, rfl, rfl⟩⟩
  · have hno : wraps now s.store = false := decide_eq_false (Nat.not_lt.2 hle)
    change advanceTable now s.store = s.store.table
    simp [advanceTable, hno]
  · rw [slot_advanced_of_wrap hw hk hlen]
    exact ⟨rfl, rfl, rfl, by rw [toNat_foldEntry_carry, toNat_millis_sub]⟩
  · rw [slot_advanced, if_neg fun hc => Nat.not_lt.2 hk hc.2.1]

/-- At a wrap a slot's banked total is all of its elapsed time. -/
theorem elapsed_advanced_of_wrap {now : Millis} {s : State} {k : Nat}
    (hw : now.toNat < s.store.nowReg.toNat) (hk : k < s.store.numEntries.toNat)
    (hlen : k < s.store.table.length) :
    elapsed (advanced now s).store k =
      min ((slot s.store k).carry.toNat + (s.store.nowReg - (slot s.store k).lastGrant).toNat)
        0xFFFFFFFF / 1000 := by
  have hclock : (advanced now s).store.nowReg = now := rfl
  have hbase : (foldEntry s.store.nowReg now (slot s.store k)).lastGrant = now := rfl
  rw [elapsed, hclock, slot_advanced_of_wrap hw hk hlen, elapsedOf, toNat_foldEntry_carry, hbase,
    BitVec.sub_self]
  simp

theorem required_advanced (now : Millis) (s : State) (k : Nat) :
    required (advanced now s).cfg (advanced now s).store k = required s.cfg s.store k := by
  have hinterval : (slot (advanced now s).store k).interval = (slot s.store k).interval := by
    rw [slot_advanced]
    split <;> rfl
  rw [required, hinterval]
  rfl

/-- Settles O26: without saturation the total is banked whole; with it both elapsed times are above every
interval. -/
theorem foldKeepsElapsedOrStaysEligible : Obligations.FoldKeepsElapsedOrStaysEligible := by
  intro s t now k h hcfg hk hlen hw ht
  rw [exec_advance h now] at ht
  injection ht with ht
  subst ht
  have hbefore : elapsed s.store k = (s.store.nowReg - (slot s.store k).lastGrant).toNat / 1000 +
    (slot s.store k).carry.toNat / 1000 := rfl
  have hreq := required_le hcfg s.store k
  rw [required_advanced, elapsed_advanced_of_wrap hw hk hlen, hbefore]
  constructor <;> omega

/-! ### CHECK -/

/-- The state CHECK leaves when it answers without a grant (41_store_commands.md R160). -/
def checkedOnly (code : BitVec 4) (info : Byte) (s : State) : State :=
  respond code info false (beginCommand s)

/-- The state CHECK leaves when it grants slot `k` (41_store_commands.md R160). -/
def granted (k : Nat) (s : State) : State :=
  respond codeAllowed (BitVec.ofNat 8 k) false
    { beginCommand s with store := grantSlot k (beginCommand s).store }

theorem exec_check_unknown {s : State} {id : TagId} (h : Serving s) (hl : lookup s.store id = none) :
    exec (.check id) s = .next (checkedOnly codeUnknown 0 s) := by
  refine (exec_serving rfl (by simp) h).trans ?_
  rw [commandBody, runCheck, lookup_beginCommand, hl]
  rfl

theorem exec_check_allowed {s : State} {id : TagId} {k : Nat} (h : Serving s)
    (hl : lookup s.store id = some k) (hle : required s.cfg s.store k ≤ elapsed s.store k) :
    exec (.check id) s = .next (granted k s) := by
  refine (exec_serving rfl (by simp) h).trans ?_
  rw [commandBody, runCheck, lookup_beginCommand, hl]
  exact if_pos hle

theorem exec_check_denied {s : State} {id : TagId} {k : Nat} (h : Serving s)
    (hl : lookup s.store id = some k) (hlt : ¬ required s.cfg s.store k ≤ elapsed s.store k) :
    exec (.check id) s = .next (checkedOnly codeDenied (BitVec.ofNat 8 k) s) := by
  refine (exec_serving rfl (by simp) h).trans ?_
  rw [commandBody, runCheck, lookup_beginCommand, hl]
  exact if_neg hlt

theorem slot_granted {s : State} {k : Nat} (hk : k < s.store.table.length) (j : Nat) :
    slot (granted k s).store j =
      if j = k then { slot s.store k with carry := 0, lastGrant := s.store.nowReg }
      else slot s.store j := slot_grantSlot (st := (beginCommand s).store) hk j

theorem length_granted (k : Nat) (s : State) :
    (granted k s).store.table.length = s.store.table.length := by
  simp [granted, grantSlot]

/-- Settles O29: CHECK's three outcomes. -/
theorem checkDecides : Obligations.CheckDecides := by
  intro s id h
  cases hl : lookup s.store id with
  | none =>
    exact ⟨_, exec_check_unknown h hl, ⟨rfl, rfl, rfl⟩, rfl, fun _ => rfl, rfl,
      ⟨rfl, rfl, rfl, rfl, rfl⟩, ⟨rfl, rfl, rfl, rfl⟩, rfl⟩
  | some k =>
    by_cases hle : required s.cfg s.store k ≤ elapsed s.store k
    · have hslot := slot_granted (lookup_lt hl).2
      refine ⟨_, exec_check_allowed h hl hle, ⟨rfl, rfl, rfl⟩, rfl, fun _ => rfl, rfl,
        ⟨rfl, rfl, rfl, rfl, rfl⟩, ?_⟩
      simp only [if_pos hle]
      exact ⟨⟨rfl, rfl, rfl, rfl⟩, ⟨length_granted k s, fun j hj => by rw [hslot, if_neg hj]⟩,
        by rw [hslot, if_pos rfl]⟩
    · refine ⟨_, exec_check_denied h hl hle, ⟨rfl, rfl, rfl⟩, rfl, fun _ => rfl, rfl,
        ⟨rfl, rfl, rfl, rfl, rfl⟩, ?_⟩
      simp only [if_neg hle]
      exact ⟨⟨rfl, rfl, rfl, rfl⟩, rfl⟩

/-- Lookup looks at the count, the number of slots and the identifiers only (41_store_commands.md
R143). -/
theorem lookup_congr {st st' : Store} (hn : st'.numEntries = st.numEntries)
    (hlen : st'.table.length = st.table.length) (hid : ∀ k, (slot st' k).id = (slot st k).id)
    (id : TagId) : lookup st' id = lookup st id := by
  cases hl : lookup st id with
  | none =>
    rw [lookup_eq_none] at hl ⊢
    intro k hk hk'
    rw [hid]
    exact hl k (hn ▸ hk) (hlen ▸ hk')
  | some k =>
    rw [lookup_eq_some] at hl ⊢
    simpa only [hn, hlen, hid] using hl

theorem lookup_granted {s : State} {k : Nat} (hk : k < s.store.table.length) (id : TagId) :
    lookup (granted k s).store id = lookup s.store id := by
  refine lookup_congr (st := s.store) (st' := (granted k s).store) rfl (length_granted k s)
    (fun j => ?_) id
  rw [slot_granted hk]
  split
  · rename_i hj
    rw [hj]
  · rfl

/-- No time has passed since a grant. -/
theorem elapsed_granted {s : State} {k : Nat} (hk : k < s.store.table.length) :
    elapsed (granted k s).store k = 0 := by
  have hclock : (granted k s).store.nowReg = s.store.nowReg := rfl
  rw [elapsed, hclock, slot_granted hk, if_pos rfl, elapsedOf, BitVec.sub_self]
  simp

theorem serving_granted {s : State} (h : Serving s) (k : Nat) : Serving (granted k s) :=
  ⟨⟨rfl, h.1.2⟩, h.2⟩

/-- Settles O30: a grant leaves no elapsed time, and a nonzero interval asks for some. -/
theorem grantIsFollowedByDenial : Obligations.GrantIsFollowedByDenial := by
  intro s t id k h hcfg ht hl hcode hinterval
  by_cases hle : required s.cfg s.store k ≤ elapsed s.store k
  · rw [exec_check_allowed h hl hle] at ht
    injection ht with ht
    subst ht
    have hk := (lookup_lt hl).2
    have hunit : 0 < s.cfg.timeUnitS := by
      obtain ⟨-, hunit, -⟩ := wellFormed_iff.1 hcfg
      omega
    have hpos : 0 < (slot s.store k).interval.toNat :=
      Nat.pos_of_ne_zero fun h0 => hinterval (BitVec.eq_of_toNat_eq h0)
    have hreq : required (granted k s).cfg (granted k s).store k =
        (slot s.store k).interval.toNat * s.cfg.timeUnitS := by
      rw [required, slot_granted hk, if_pos rfl]
      rfl
    refine ⟨_, exec_check_denied (serving_granted h k) ((lookup_granted hk id).trans hl) ?_,
      ⟨rfl, rfl, rfl, rfl⟩⟩
    rw [hreq, elapsed_granted hk]
    exact Nat.not_le.2 (Nat.mul_pos hpos hunit)
  · rw [exec_check_denied h hl hle] at ht
    injection ht with ht
    subst ht
    exact absurd (show codeDenied = codeAllowed from hcode) (by decide)

/-! ### The sentinel (41_store_commands.md R144, R152) -/

/-- A slot with the sentinel carry satisfies every interval. -/
theorem required_le_elapsed_of_sentinel {cfg : Config} (hcfg : cfg.wellFormed = true) {st : Store}
    {k : Nat} (hcarry : (slot st k).carry = sentinelMax) : required cfg st k ≤ elapsed st k := by
  have hreq := required_le hcfg st k
  have helapsed : elapsed st k = (st.nowReg - (slot st k).lastGrant).toNat / 1000 +
    (slot st k).carry.toNat / 1000 := rfl
  have hsentinel : sentinelMax.toNat = 4294967295 := rfl
  rw [helapsed, hcarry, hsentinel]
  omega

theorem check_allowed_of_sentinel {s : State} {id : TagId} {k : Nat} (h : Serving s)
    (hcfg : s.cfg.wellFormed = true) (hl : lookup s.store id = some k)
    (hcarry : (slot s.store k).carry = sentinelMax) :
    ∃ u, exec (.check id) s = .next u ∧ Responded codeAllowed (BitVec.ofNat 8 k) false u :=
  ⟨_, exec_check_allowed h hl (required_le_elapsed_of_sentinel hcfg hcarry), rfl, rfl, rfl, rfl⟩

/-- A fold keeps the sentinel: the total saturates again. -/
theorem foldEntry_sentinel {e : Entry} (h : e.carry = sentinelMax) (prev new : Millis) :
    (foldEntry prev new e).carry = sentinelMax := by
  apply BitVec.eq_of_toNat_eq
  have hsentinel : sentinelMax.toNat = 4294967295 := rfl
  rw [toNat_foldEntry_carry, h, hsentinel]
  omega

/-- ADVANCE keeps what a first CHECK needs. -/
theorem advanced_keeps_sentinel {s : State} {id : TagId} {k : Nat} (h : Serving s)
    (hl : lookup s.store id = some k) (hcarry : (slot s.store k).carry = sentinelMax)
    (now : Millis) : Serving (advanced now s) ∧ lookup (advanced now s).store id = some k ∧
      (slot (advanced now s).store k).carry = sentinelMax := by
  refine ⟨⟨⟨rfl, h.1.2⟩, h.2⟩, ?_, ?_⟩
  · refine (lookup_congr (st := s.store) (st' := (advanced now s).store) rfl
      (length_advanceTable _ _) (fun j => ?_) id).trans hl
    rw [slot_advanced]
    split <;> rfl
  · rw [slot_advanced]
    split
    · exact foldEntry_sentinel hcarry _ _
    · exact hcarry

end Sys2Proof.Machine
end

section
/-! PROOFS. A command's phase by what the responder answers (20_memory.md R58-R60): acknowledged to the end,
failed, or waiting; and what the accesses done so far leave in the NV byte space and the table. -/

namespace Sys2Proof.Machine

/-- The one state a command goes to. -/
theorem eq_of_next {r : Result} {t u : State} (ht : r = .next t) (hu : r = .next u) : t = u := by
  have heq := ht.symm.trans hu
  injection heq

/-! ### What accesses leave in the NV byte space and the table -/

/-- The NV byte space and the table of `t` are what the accesses `l`, acknowledged, make of those of
`s`. -/
structure Leaves (l : List Access) (s t : State) : Prop where
  table : t.store.table = (applyAll l s).store.table
  cfg : t.cfg = s.cfg
  nv : t.nv = (applyAll l s).nv

theorem leaves_of_same {l : List Access} {s t : State} (h : SameButPort (applyAll l s) t) :
    Leaves l s t := ⟨h.table, (sameRegisters_of_applied h).cfg, h.nv⟩

theorem Leaves.congr {l : List Access} {s t u : State} (h : Leaves l s t)
    (htable : u.store.table = t.store.table) (hcfg : u.cfg = t.cfg) (hnv : u.nv = t.nv) :
    Leaves l s u :=
  ⟨htable.trans h.table, hcfg.trans h.cfg, hnv.trans h.nv⟩

theorem Leaves.read {l : List Access} {s t : State} (h : Leaves l s t) (a : Nat) :
    readNv t a = readNv (applyAll l s) a := by
  simp only [readNv, h.nv, h.cfg, (sameRegisters_applyAll l s).cfg]

/-- Accesses within the NV byte space keep its canonical form (20_memory.md R57). -/
theorem Leaves.wf {l : List Access} {s t : State} (h : Leaves l s t)
    (hwf : Memory.wf s.cfg s.nv = true) (hr : ∀ a ∈ l, accessAddr a < s.cfg.totalBytes) :
    Memory.wf t.cfg t.nv = true := by
  have happlied := (readNv_applyAll hwf hr 0).2
  rwa [← h.nv, ← h.cfg] at happlied

theorem Leaves.kept {s t : State} (h : Leaves [] s t) :
    t.store.table = s.store.table ∧ NvKept s t := ⟨h.table, h.read⟩

/-- The write of byte 0. -/
theorem Leaves.writeCount {s t : State} {v : Byte} (h : Leaves [.write countAddr v] s t)
    (hwf : Memory.wf s.cfg s.nv = true) : t.store.table = s.store.table ∧
      readNv t countAddr = v ∧ NvKeptOutside (fun a => a = countAddr) s t := by
  have hread (a : Nat) : readNv t a = if a = countAddr then v else readNv s a :=
    (h.read a).trans (readNv_writeNv hwf countAddr a v)
  exact ⟨h.table, (hread _).trans (if_pos rfl), fun a ha => (hread a).trans (if_neg ha)⟩

/-- Some of PersistEntry's writes, one after the other (41_store_commands.md R145). -/
theorem Leaves.persisted {s t : State} {k d m : Nat} {e : Entry} {count : Byte}
    (h : Leaves (((persistWrites k e count).drop d).take m) s t)
    (hwf : Memory.wf s.cfg s.nv = true) (hcfg : s.cfg.wellFormed = true) (hk : k < s.cfg.capacity)
    (hm : d + m ≤ 7) :
    t.store.table = s.store.table ∧ PersistedWithin d (d + m) k e count s t := by
  have hwrites : ∀ a ∈ ((persistWrites k e count).drop d).take m, ∃ b v, a = .write b v :=
    fun a ha => persistWrites_are_writes k e count a
      (List.mem_of_mem_drop (List.mem_of_mem_take ha))
  obtain ⟨hbytes, hcount, hkept⟩ := persistedWithin_drop_take hwf hcfg hk hm e count
  refine ⟨h.table.trans (by rw [(applyAll_writes_keep hwrites s).1]), fun i hi => ?_, ?_,
    fun a ha => ?_⟩
  · rw [h.read, hbytes i hi]
  · rw [h.read, hcount]
  · rw [h.read, hkept a ha]

/-- Reads of entry bytes, as a load makes them (41_store_commands.md R150, R152). -/
theorem Leaves.loaded {s t : State} {l : List Access} (h : Leaves l s t)
    (hl : ∀ a ∈ l, ∃ k i, a = .readEntry k i ∧ k < s.store.table.length ∧ i < 6) :
    LoadedBy l s t ∧ NvKept s t := by
  obtain ⟨hloaded, table, happ⟩ := loadedBy_applyAll hl
  refine ⟨hloaded.congr_right h.table, fun a => ?_⟩
  rw [h.read, happ]
  rfl

/-! ### Acknowledged to the end -/

theorem runJob_acked {job : Job} {todo : List Access} {s : State}
    (hr : ∀ a ∈ todo, accessAddr a < s.cfg.totalBytes) (ha : acksNext todo.length s = true) :
    ∃ t, runJob job todo s = conclude job (lastRead todo 0 s) t ∧
      SameButPort (applyAll todo s) t ∧ t.nvSamples = s.nvSamples.drop todo.length := by
  obtain ⟨t, hdrive, hsame, hsamples, -⟩ := drive_acked (job := job) (last := 0) hr ha
  exact ⟨t, by rw [runJob, hdrive], hsame, hsamples⟩

/-- The command has answered; the control registers and the count are as before. -/
structure Answered (code : BitVec 4) (info : Byte) (flag : Bool) (s t : State) : Prop where
  responded : Responded code info flag t
  control : ControlKept s t
  numEntries : t.store.numEntries = s.store.numEntries
  outside : OutsideStoreKept s t

theorem answered_respond {s u : State} (h : SameRegisters s u) (code : BitVec 4) (info : Byte)
    (flag : Bool) : Answered code info flag s (respond code info flag u) :=
  ⟨⟨rfl, rfl, rfl, rfl⟩, h.control, h.numEntries, h.outside⟩

/-- An INIT has completed (41_store_commands.md R150). -/
structure Initialized (n : Byte) (now : Millis) (r : Bool) (s t : State) : Prop where
  responded : Responded codeOK n r t
  initialized : t.store.initialized = true
  fault : t.store.fault = s.store.fault
  nowReg : t.store.nowReg = now
  numEntries : t.store.numEntries = n
  outside : OutsideStoreKept s t

theorem initialized_commitInit {s u : State} (h : SameRegisters s u) (n : Byte) (now : Millis)
    (r : Bool) : Initialized n now r s (commitInit n now r u) :=
  ⟨⟨rfl, rfl, rfl, rfl⟩, rfl, h.fault, rfl, rfl, h.outside⟩

/-- A command has ended with a fault; the other control registers and the count are as before
(60_exceptions.md R203). -/
structure Faulted (code : BitVec 4) (s t : State) : Prop where
  responded : Responded code 0 false t
  fault : t.store.fault = code
  initialized : t.store.initialized = s.store.initialized
  nowReg : t.store.nowReg = s.store.nowReg
  numEntries : t.store.numEntries = s.store.numEntries
  outside : OutsideStoreKept s t

theorem faulted_raiseFault {s u : State} (h : SameRegisters s u) (code : BitVec 4) :
    Faulted code s (raiseFault code u) :=
  ⟨⟨rfl, rfl, rfl, rfl⟩, rfl, h.initialized, h.nowReg, h.numEntries, h.outside⟩

/-- A command waits with the accesses `todo` still to make, the first of them on the port. -/
structure Parked (job : Job) (todo : List Access) (s t : State) : Prop where
  inProgress : InProgress t
  inFlight : t.store.inFlight = some ⟨job, todo⟩
  shows : ∀ a, todo.head? = some a → PortShows t.store.port a
  control : ControlKept s t
  numEntries : t.store.numEntries = s.store.numEntries
  outside : OutsideStoreKept s t

theorem parked_park {job : Job} {todo : List Access} {s u : State} (h : SameRegisters s u)
    (hshows : ∀ a, todo.head? = some a → PortShows u.store.port a) :
    Parked job todo s (park job todo u) :=
  ⟨⟨rfl, rfl⟩, rfl, hshows, h.control, h.numEntries, h.outside⟩

/-! ### A failure -/

theorem runJob_failed {job : Job} {todo : List Access} {j : Nat} {x : NvSample}
    {rest : List NvSample} {s : State} (hr : ∀ a ∈ todo, accessAddr a < s.cfg.totalBytes)
    (hj : j < todo.length) (hA : AnswersThen j x rest s) (he : x.err = true) :
    ∃ t, runJob job todo s = .next t ∧ Faulted codeNvFault s t ∧ t.nvSamples = rest ∧
      ∃ u, SameButPort (if x.landed then performAccess todo[j] (applyAll (todo.take j) s)
        else applyAll (todo.take j) s) u ∧ t.store.table = u.store.table ∧ t.cfg = u.cfg ∧
        t.nv = u.nv := by
  obtain ⟨u, hdrive, hsamples, hsame⟩ := drive_failed (job := job) (last := 0) hr hA he hj
  have hfails : FailsAt todo j x.landed s u := ⟨todo[j], List.getElem?_eq_getElem hj, hsame⟩
  exact ⟨raiseFault codeNvFault u, by rw [runJob, hdrive], faulted_raiseFault hfails.registers _,
    hsamples, u, hsame, rfl, rfl, rfl⟩

/-- The accesses that have had their effect when access `j` of a list of writes fails: a landed write has
(20_memory.md R60). -/
theorem runJob_failed_of_writes {job : Job} {todo : List Access} {j : Nat} {x : NvSample}
    {rest : List NvSample} {s : State} (hr : ∀ a ∈ todo, accessAddr a < s.cfg.totalBytes)
    (hw : ∀ a ∈ todo, ∃ b v, a = .write b v) (hj : j < todo.length) (hA : AnswersThen j x rest s)
    (he : x.err = true) :
    ∃ t, runJob job todo s = .next t ∧ Faulted codeNvFault s t ∧ t.nvSamples = rest ∧
      Leaves (todo.take (if x.landed then j + 1 else j)) s t := by
  obtain ⟨t, hrun, hfault, hsamples, u, hsame, htable, hcfg, hnv⟩ :=
    runJob_failed (job := job) hr hj hA he
  refine ⟨t, hrun, hfault, hsamples, Leaves.congr (leaves_of_same ?_) htable hcfg hnv⟩
  cases hl : x.landed with
  | false =>
    rw [hl] at hsame
    exact hsame
  | true =>
    obtain ⟨b, v, hb⟩ := hw _ (List.getElem_mem hj)
    have htake : applyAll (todo.take (j + 1)) s =
        performAccess todo[j] (applyAll (todo.take j) s) := by
      rw [List.take_succ_eq_append_getElem hj, applyAll_append, hb]
      rfl
    rw [hl] at hsame
    rw [if_pos rfl, htake]
    exact hsame

/-- A failed read has no effect. -/
theorem runJob_failed_of_reads {job : Job} {todo : List Access} {j : Nat} {x : NvSample}
    {rest : List NvSample} {s : State} (hr : ∀ a ∈ todo, accessAddr a < s.cfg.totalBytes)
    (hreads : ∀ a ∈ todo, ∀ b v, a ≠ .write b v) (hj : j < todo.length)
    (hA : AnswersThen j x rest s) (he : x.err = true) :
    ∃ t, runJob job todo s = .next t ∧ Faulted codeNvFault s t ∧ t.nvSamples = rest ∧
      Leaves (todo.take j) s t := by
  obtain ⟨t, hrun, hfault, hsamples, u, hsame, htable, hcfg, hnv⟩ :=
    runJob_failed (job := job) hr hj hA he
  have hnone : performAccess todo[j] (applyAll (todo.take j) s) = applyAll (todo.take j) s := by
    cases ha : todo[j] with
    | write b v => exact absurd ha (hreads _ (List.getElem_mem hj) b v)
    | readCount => rfl
    | readEntry k i => rfl
  rw [hnone, ite_self] at hsame
  exact ⟨t, hrun, hfault, hsamples, Leaves.congr (leaves_of_same hsame) htable hcfg hnv⟩

/-! ### Waiting -/

theorem head?_drop_of_lt {todo : List Access} {j : Nat} (hj : j < todo.length) :
    (todo.drop j).head? = some todo[j] := by
  rw [List.drop_eq_getElem_cons hj, List.head?_cons]

theorem runJob_waiting {job : Job} {todo : List Access} {j : Nat} {x : NvSample}
    {rest : List NvSample} {s : State} (hr : ∀ a ∈ todo, accessAddr a < s.cfg.totalBytes)
    (hport : PortReady s.store.port todo) (hj : j < todo.length) (hA : AnswersThen j x rest s)
    (hk : x.ack = false) (he : x.err = false) :
    ∃ t, runJob job todo s = .next t ∧ Parked job (todo.drop j) s t ∧ t.nvSamples = rest ∧
      Leaves (todo.take j) s t := by
  obtain ⟨u, hdrive, hsamples, hsame, hshows⟩ : ∃ u,
      drive job todo 0 s = .stopped (.next (park job (todo.drop j) u)) ∧ u.nvSamples = rest ∧
        SameButPort (applyAll (todo.take j) s) u ∧ PortShows u.store.port todo[j] := by
    obtain hfree | ⟨a, l, rfl, hshown⟩ := hport
    · obtain ⟨u, hdrive, hsamples, hsame, d, hd⟩ :=
        drive_waiting (job := job) (last := 0) hr hA he hk hj fun _ => hfree
      exact ⟨u, hdrive, hsamples, hsame, hd ▸ portShows_drivenPort d _⟩
    · exact drive_waiting_resumed hr hA he hk hj fun b hb => Option.some.inj hb ▸ hshown
  refine ⟨park job (todo.drop j) u, by rw [runJob, hdrive],
    parked_park (sameRegisters_of_applied hsame) fun a ha => ?_, hsamples,
    Leaves.congr (leaves_of_same hsame) rfl rfl rfl⟩
  rw [head?_drop_of_lt hj] at ha
  exact Option.some.inj ha ▸ hshows

end Sys2Proof.Machine
end

section
/-! PROOFS. INIT (41_store_commands.md R150-R152): its phases by what the responder answers, the same for
an INIT just accepted and for one in progress. -/

namespace Sys2Proof.Machine

theorem exec_init {s : State} (h : Ready s) (r : Bool) (now : Millis) :
    exec (.init r now) s = runInit r now (beginCommand s) := accept_runs h

/-- Byte 0 exists in every build (20_memory.md R50, R51). -/
theorem countAddr_lt {c : Config} (h : c.wellFormed = true) : countAddr < c.totalBytes := by
  have := capacity_bounds h
  simp only [countAddr]
  omega

theorem writeCount_range {c : Config} (h : c.wellFormed = true) (v : Byte) :
    ∀ a ∈ [Access.write countAddr v], accessAddr a < c.totalBytes := by
  simpa [accessAddr] using countAddr_lt h

theorem readCount_range {c : Config} (h : c.wellFormed = true) :
    ∀ a ∈ [Access.readCount], accessAddr a < c.totalBytes := by
  simpa [accessAddr] using countAddr_lt h

theorem eq_zero_of_lt_one {j : Nat} (h : j < 1) : j = 0 := Nat.lt_one_iff.1 h

/-! ### R = 1: the empty-table marker -/

/-- The write of byte 0 is acknowledged (41_store_commands.md R150). -/
theorem runEmpty_acked {s : State} {now : Millis} (hs : Sound s) (hf : s.store.fault = 0)
    (ha : acksNext 1 s = true) :
    ∃ t, runJob (.initEmpty now) [.write countAddr 0] s = .next t ∧ Responded codeOK 0 true t ∧
      t.store.initialized = true ∧ t.store.fault = 0 ∧ t.store.nowReg = now ∧
      t.store.numEntries = 0 ∧ t.store.table = s.store.table ∧ readNv t countAddr = 0 ∧
      NvKeptOutside (fun a => a = countAddr) s t ∧ t.nvSamples = s.nvSamples.drop 1 ∧
      OutsideStoreKept s t := by
  obtain ⟨⟨hcfg, -⟩, hwf⟩ := hs
  obtain ⟨u, hrun, hsame, hsamples⟩ :=
    runJob_acked (job := .initEmpty now) (writeCount_range hcfg 0) ha
  have hinit := initialized_commitInit (sameRegisters_of_applied hsame) 0 now true
  have hleaves : Leaves [.write countAddr 0] s (commitInit 0 now true u) :=
    (leaves_of_same hsame).congr rfl rfl rfl
  obtain ⟨htable, hzero, hkept⟩ := hleaves.writeCount hwf
  exact ⟨_, hrun, hinit.responded, rfl, hinit.fault.trans hf, rfl, rfl, htable, hzero, hkept,
    hsamples, hinit.outside⟩

/-- The one write of an INIT with R = 1 or of a CLEAR fails (41_store_commands.md R146). -/
theorem runWriteCount_failed {job : Job} {s : State} {x : NvSample} {rest : List NvSample}
    (hs : Sound s) (hA : AnswersThen 0 x rest s) (he : x.err = true) :
    ∃ t, runJob job [.write countAddr 0] s = .next t ∧ Faulted codeNvFault s t ∧
      t.nvSamples = rest ∧ t.store.table = s.store.table ∧
      readNv t countAddr = (if x.landed then 0 else readNv s countAddr) ∧
      NvKeptOutside (fun a => a = countAddr) s t := by
  obtain ⟨⟨hcfg, -⟩, hwf⟩ := hs
  obtain ⟨t, hrun, hfault, hsamples, hleaves⟩ :=
    runJob_failed_of_writes (job := job) (j := 0) (writeCount_range hcfg 0) (writeCount_is_write 0)
      Nat.one_pos hA he
  refine ⟨t, hrun, hfault, hsamples, ?_⟩
  cases hl : x.landed with
  | false =>
    rw [hl] at hleaves
    obtain ⟨htable, hkept⟩ := hleaves.kept
    exact ⟨htable, hkept _, fun a _ => hkept a⟩
  | true =>
    rw [hl] at hleaves
    exact hleaves.writeCount hwf

/-- The one access of a phase is not answered (20_memory.md R58). -/
theorem runSingle_waiting {job : Job} {a : Access} {s : State} {x : NvSample}
    {rest : List NvSample} (ha : accessAddr a < s.cfg.totalBytes)
    (hport : PortReady s.store.port [a]) (hA : AnswersThen 0 x rest s) (hk : x.ack = false)
    (he : x.err = false) :
    ∃ t, runJob job [a] s = .next t ∧ Parked job [a] s t ∧ t.nvSamples = rest ∧
      t.store.table = s.store.table ∧ NvKept s t := by
  obtain ⟨t, hrun, hparked, hsamples, hleaves⟩ :=
    runJob_waiting (job := job) (todo := [a]) (j := 0) (by simpa using ha) hport Nat.one_pos hA hk he
  obtain ⟨htable, hkept⟩ := hleaves.kept
  exact ⟨t, hrun, hparked, hsamples, htable, hkept⟩

/-! ### R = 0: the read of the count -/

/-- The read of the count is acknowledged: the load goes on with it. -/
theorem runCount_acked {s : State} {now : Millis} (hcfg : s.cfg.wellFormed = true)
    (ha : acksNext 1 s = true) :
    ∃ u, runJob (.initCount now) [.readCount] s = loadEntries now (readNv s countAddr) u ∧
      SameButPort s u ∧ u.nvSamples = s.nvSamples.tail ∧ u.store.port.req = false := by
  obtain ⟨herr, hack, -⟩ := acksNext_succ ha
  obtain ⟨u, hdrive, hsame, hsamples, -, hfree⟩ :=
    drive_step (job := .initCount now) (a := .readCount) (todo := []) (last := 0)
      (countAddr_lt hcfg) herr hack
  exact ⟨u, by rw [runJob, hdrive]; rfl, hsame, hsamples, hfree⟩

/-- A count above CAPACITY (41_store_commands.md R151). -/
theorem runCount_refused {s : State} {now : Millis} (hcfg : s.cfg.wellFormed = true)
    (hn : s.cfg.capacity < (readNv s countAddr).toNat) (ha : acksNext 1 s = true) :
    ∃ t, runJob (.initCount now) [.readCount] s = .next t ∧ Faulted codeLoadFault s t ∧
      t.store.table = s.store.table ∧ NvKept s t ∧ t.nvSamples = s.nvSamples.drop 1 := by
  obtain ⟨u, hrun, hsame, hsamples, -⟩ := runCount_acked (now := now) hcfg ha
  rw [loadEntries_eq, hsame.cfg, if_pos hn] at hrun
  exact ⟨_, hrun, faulted_raiseFault hsame.registers _, hsame.table, hsame.readNv,
    hsamples.trans List.drop_one.symm⟩

/-- The read of the count fails (41_store_commands.md R146). -/
theorem runCount_failed {s : State} {now : Millis} {x : NvSample} {rest : List NvSample}
    (hcfg : s.cfg.wellFormed = true) (hA : AnswersThen 0 x rest s) (he : x.err = true) :
    ∃ t, runJob (.initCount now) [.readCount] s = .next t ∧ Faulted codeNvFault s t ∧
      t.nvSamples = rest ∧ t.store.table = s.store.table ∧ NvKept s t := by
  obtain ⟨t, hrun, hfault, hsamples, hleaves⟩ :=
    runJob_failed_of_reads (job := .initCount now) (j := 0) (readCount_range hcfg) (by simp)
      Nat.one_pos hA he
  obtain ⟨htable, hkept⟩ := hleaves.kept
  exact ⟨t, hrun, hfault, hsamples, htable, hkept⟩

/-! ### R = 0: the reads of the entries -/

/-- The accesses are reads of entry bytes below a count (41_store_commands.md R150). -/
def ReadsBelow (n : Nat) (todo : List Access) : Prop :=
  ∀ a ∈ todo, ∃ k i, a = .readEntry k i ∧ k < n ∧ i < 6

theorem readsBelow_loadReads (n : Nat) : ReadsBelow n (loadReads 0 n) := by
  intro a ha
  obtain ⟨k, i, -, hk, hi, rfl⟩ := mem_loadReads.1 ha
  exact ⟨k, i, rfl, by omega, hi⟩

theorem ReadsBelow.take {n : Nat} {todo : List Access} (h : ReadsBelow n todo) (j : Nat) :
    ReadsBelow n (todo.take j) := fun a ha => h a (List.mem_of_mem_take ha)

theorem ReadsBelow.range {c : Config} {n : Nat} {todo : List Access} (h : ReadsBelow n todo)
    (hcfg : c.wellFormed = true) (hn : n ≤ c.capacity) :
    ∀ a ∈ todo, accessAddr a < c.totalBytes := by
  intro a ha
  obtain ⟨k, i, rfl, hk, hi⟩ := h a ha
  have := capacity_bounds hcfg
  simp only [accessAddr, entryAddr]
  omega

theorem ReadsBelow.not_write {n : Nat} {todo : List Access} (h : ReadsBelow n todo) :
    ∀ a ∈ todo, ∀ b v, a ≠ .write b v := by
  intro a ha b v
  obtain ⟨k, i, rfl, -⟩ := h a ha
  simp

/-- What reads below a count leave (41_store_commands.md R150). -/
theorem Leaves.loadedBelow {s t : State} {l : List Access} {n : Nat} (h : Leaves l s t)
    (hs : Sound s) (hl : ReadsBelow n l) (hn : n ≤ s.cfg.capacity) :
    LoadedBy l s t ∧ (∀ k, n ≤ k → slot t.store k = slot s.store k) ∧ NvKept s t := by
  have hlen : s.store.table.length = s.cfg.capacity := hs.1.2
  obtain ⟨hloaded, hkept⟩ := h.loaded fun a ha => by
    obtain ⟨k, i, rfl, hk, hi⟩ := hl a ha
    exact ⟨k, i, rfl, by omega, hi⟩
  refine ⟨hloaded, fun k hk => hloaded.slot_eq fun i hmem => ?_, hkept⟩
  obtain ⟨k', i', heq, hk', -⟩ := hl _ hmem
  injection heq with hkk
  omega

theorem runEntries_acked {s : State} {now : Millis} {n : Byte} {todo : List Access} (hs : Sound s)
    (hl : ReadsBelow n.toNat todo) (hn : n.toNat ≤ s.cfg.capacity)
    (ha : acksNext todo.length s = true) :
    ∃ t, runJob (.initEntries now n) todo s = .next t ∧ Initialized n now false s t ∧
      t.nvSamples = s.nvSamples.drop todo.length ∧ LoadedBy todo s t ∧
      (∀ k, n.toNat ≤ k → slot t.store k = slot s.store k) ∧ NvKept s t := by
  obtain ⟨u, hrun, hsame, hsamples⟩ :=
    runJob_acked (job := .initEntries now n) (hl.range hs.1.1 hn) ha
  have hleaves : Leaves todo s (commitInit n now false u) :=
    (leaves_of_same hsame).congr rfl rfl rfl
  exact ⟨_, hrun, initialized_commitInit (sameRegisters_of_applied hsame) n now false, hsamples,
    hleaves.loadedBelow hs hl hn⟩

theorem runEntries_failed {s : State} {now : Millis} {n : Byte} {todo : List Access} {j : Nat}
    {x : NvSample} {rest : List NvSample} (hs : Sound s) (hl : ReadsBelow n.toNat todo)
    (hn : n.toNat ≤ s.cfg.capacity) (hj : j < todo.length) (hA : AnswersThen j x rest s)
    (he : x.err = true) :
    ∃ t, runJob (.initEntries now n) todo s = .next t ∧ Faulted codeNvFault s t ∧
      t.nvSamples = rest ∧ LoadedBy (todo.take j) s t ∧
      (∀ k, n.toNat ≤ k → slot t.store k = slot s.store k) ∧ NvKept s t := by
  obtain ⟨t, hrun, hfault, hsamples, hleaves⟩ :=
    runJob_failed_of_reads (job := .initEntries now n) (hl.range hs.1.1 hn) hl.not_write hj hA he
  exact ⟨t, hrun, hfault, hsamples, hleaves.loadedBelow hs (hl.take j) hn⟩

theorem runEntries_waiting {s : State} {now : Millis} {n : Byte} {todo : List Access} {j : Nat}
    {x : NvSample} {rest : List NvSample} (hs : Sound s) (hl : ReadsBelow n.toNat todo)
    (hn : n.toNat ≤ s.cfg.capacity) (hport : PortReady s.store.port todo) (hj : j < todo.length)
    (hA : AnswersThen j x rest s) (hk : x.ack = false) (he : x.err = false) :
    ∃ t, runJob (.initEntries now n) todo s = .next t ∧
      Parked (.initEntries now n) (todo.drop j) s t ∧ t.nvSamples = rest ∧
      LoadedBy (todo.take j) s t ∧ (∀ k, n.toNat ≤ k → slot t.store k = slot s.store k) ∧
      NvKept s t := by
  obtain ⟨t, hrun, hparked, hsamples, hleaves⟩ :=
    runJob_waiting (job := .initEntries now n) (hl.range hs.1.1 hn) hport hj hA hk he
  exact ⟨t, hrun, hparked, hsamples, hleaves.loadedBelow hs (hl.take j) hn⟩

/-! ### R = 0: the count, then the entries -/

theorem Faulted.after {code : BitVec 4} {s u t : State} (h : SameRegisters s u)
    (ht : Faulted code u t) : Faulted code s t :=
  ⟨ht.responded, ht.fault, ht.initialized.trans h.initialized, ht.nowReg.trans h.nowReg,
    ht.numEntries.trans h.numEntries, h.outside.trans ht.outside⟩

theorem Initialized.after {n : Byte} {now : Millis} {r : Bool} {s u t : State}
    (h : SameRegisters s u) (ht : Initialized n now r u t) : Initialized n now r s t :=
  ⟨ht.responded, ht.initialized, ht.fault.trans h.fault, ht.nowReg, ht.numEntries,
    h.outside.trans ht.outside⟩

theorem Parked.after {job : Job} {todo : List Access} {s u t : State} (h : SameRegisters s u)
    (ht : Parked job todo u t) : Parked job todo s t := by
  obtain ⟨hinit, hfault, hnow⟩ := ht.control
  exact ⟨ht.inProgress, ht.inFlight, ht.shows,
    ⟨hinit.trans h.initialized, hfault.trans h.fault, hnow.trans h.nowReg⟩,
    ht.numEntries.trans h.numEntries, h.outside.trans ht.outside⟩

theorem LoadedBy.after {l : List Access} {s u t : State} (h : SameButPort s u)
    (ht : LoadedBy l u t) : LoadedBy l s t := by
  refine ⟨ht.1.trans (congrArg List.length h.table), fun k => ?_⟩
  have hk := ht.2 k
  simp only [h.readNv, h.slot] at hk
  exact hk

theorem Sound.congr {s u : State} (h : SameButPort s u) (hs : Sound s) : Sound u := by
  obtain ⟨⟨hcfg, hlen⟩, hwf⟩ := hs
  exact ⟨⟨by rw [h.cfg]; exact hcfg, by rw [h.cfg, h.table]; exact hlen⟩,
    by rw [h.cfg, h.nv]; exact hwf⟩

/-- After an acknowledged read of a count within CAPACITY the load is a phase of its own. -/
theorem runCount_loads {s : State} {now : Millis} (hs : Sound s)
    (hn : (readNv s countAddr).toNat ≤ s.cfg.capacity) (ha : acksNext 1 s = true) :
    ∃ u, runJob (.initCount now) [.readCount] s = runJob (.initEntries now (readNv s countAddr))
        (loadReads 0 (readNv s countAddr).toNat) u ∧
      SameButPort s u ∧ u.nvSamples = s.nvSamples.tail ∧ u.store.port.req = false := by
  obtain ⟨u, hrun, hsame, hsamples, hfree⟩ := runCount_acked (now := now) hs.1.1 ha
  refine ⟨u, ?_, hsame, hsamples, hfree⟩
  rw [hrun, loadEntries_eq, hsame.cfg, if_neg (Nat.not_lt.2 hn)]

/-- A slot all of whose bytes were read holds the persisted entry (41_store_commands.md R152). -/
theorem LoadedBy.slot_loaded {l : List Access} {s t : State} {k : Nat} (h : LoadedBy l s t)
    (hk : ∀ i, i < 6 → Access.readEntry k i ∈ l) : slot t.store k = loadedEntry s k := by
  obtain ⟨hbytes, hcarry, hgrant⟩ := h.2 k
  refine entry_ext (fun i hi => ?_) ?_ ?_
  · rw [hbytes i hi, if_pos (hk i hi), persistedByte_loadedEntry s k hi]
  · rw [hcarry, if_pos (hk 5 (by omega))]
    rfl
  · rw [hgrant, if_pos (hk 5 (by omega))]
    rfl

/-- INIT with R = 0 completes (41_store_commands.md R150, R152). -/
theorem runCount_loaded {s : State} {now : Millis} (hs : Sound s) (hf : s.store.fault = 0)
    (hn : (readNv s countAddr).toNat ≤ s.cfg.capacity)
    (ha : acksNext (1 + 6 * (readNv s countAddr).toNat) s = true) :
    ∃ t, runJob (.initCount now) [.readCount] s = .next t ∧
      Responded codeOK (readNv s countAddr) false t ∧
      t.store.initialized = true ∧ t.store.fault = 0 ∧ t.store.nowReg = now ∧
      t.store.numEntries = readNv s countAddr ∧
      t.store.table.length = s.store.table.length ∧
      (∀ k, k < (readNv s countAddr).toNat → slot t.store k = loadedEntry s k) ∧
      (∀ k, (readNv s countAddr).toNat ≤ k → slot t.store k = slot s.store k) ∧
      NvKept s t ∧ t.nvSamples = s.nvSamples.drop (1 + 6 * (readNv s countAddr).toNat) ∧
      OutsideStoreKept s t := by
  obtain ⟨u, hrun, hsame, hsamples, -⟩ :=
    runCount_loads (now := now) hs hn (acksNext_mono ha (by omega))
  have hacks : acksNext (loadReads 0 (readNv s countAddr).toNat).length u = true := by
    rw [length_loadReads]
    exact acksNext_add ha (hsamples.trans List.drop_one.symm) hsame.nvRest
  obtain ⟨t, ht, hinit, htsamples, hloaded, hslots, hkept⟩ :=
    runEntries_acked (now := now) (hs.congr hsame) (readsBelow_loadReads _)
      (by rw [hsame.cfg]; exact hn) hacks
  have hinit := hinit.after hsame.registers
  have hloaded := hloaded.after hsame
  refine ⟨t, hrun.trans ht, hinit.responded, hinit.initialized, hinit.fault.trans hf, hinit.nowReg,
    hinit.numEntries, hloaded.1, fun k hk => hloaded.slot_loaded fun i hi => ?_,
    fun k hk => (hslots k hk).trans (hsame.slot k), fun a => (hkept a).trans (hsame.readNv a), ?_,
    hinit.outside⟩
  · exact mem_loadReads.2 ⟨k, i, by omega, by omega, hi, rfl⟩
  · rw [htsamples, hsamples, length_loadReads, List.drop_tail, Nat.add_comm]

/-- The samples left once the read of the count has been acknowledged. -/
theorem AnswersThen.afterCount {j : Nat} {x : NvSample} {rest : List NvSample} {s u : State}
    (hA : AnswersThen (1 + j) x rest s) (hsame : SameButPort s u)
    (hsamples : u.nvSamples = s.nvSamples.tail) :
    acksNext 1 s = true ∧ AnswersThen j x rest u := by
  have hacks : acksNext 1 s = true := acksNext_mono hA.1 (by omega)
  rw [Nat.add_comm] at hA
  obtain ⟨-, -, hrest⟩ := hA.succ
  exact ⟨hacks, hrest u hsamples hsame.nvRest⟩

/-- A read of an entry byte fails after `1 + j` acknowledged reads (41_store_commands.md R146). -/
theorem runCount_failed_later {s : State} {now : Millis} {j : Nat} {x : NvSample}
    {rest : List NvSample} (hs : Sound s) (hn : (readNv s countAddr).toNat ≤ s.cfg.capacity)
    (hj : j < 6 * (readNv s countAddr).toNat) (hA : AnswersThen (1 + j) x rest s)
    (he : x.err = true) :
    ∃ t, runJob (.initCount now) [.readCount] s = .next t ∧ Responded codeNvFault 0 false t ∧
      t.store.fault = codeNvFault ∧ t.store.initialized = s.store.initialized ∧
      t.store.nowReg = s.store.nowReg ∧ t.store.numEntries = s.store.numEntries ∧
      LoadedBy ((loadReads 0 (readNv s countAddr).toNat).take j) s t ∧
      (∀ k, (readNv s countAddr).toNat ≤ k → slot t.store k = slot s.store k) ∧
      NvKept s t ∧ t.nvSamples = rest ∧ OutsideStoreKept s t := by
  obtain ⟨u, hrun, hsame, hsamples, -⟩ :=
    runCount_loads (now := now) hs hn (acksNext_mono hA.1 (by omega))
  obtain ⟨-, hA⟩ := hA.afterCount hsame hsamples
  obtain ⟨t, ht, hfault, htsamples, hloaded, hslots, hkept⟩ :=
    runEntries_failed (now := now) (hs.congr hsame) (readsBelow_loadReads _)
      (by rw [hsame.cfg]; exact hn) (by rw [length_loadReads]; exact hj) hA he
  have hfault := hfault.after hsame.registers
  exact ⟨t, hrun.trans ht, hfault.responded, hfault.fault, hfault.initialized, hfault.nowReg,
    hfault.numEntries, hloaded.after hsame, fun k hk => (hslots k hk).trans (hsame.slot k),
    fun a => (hkept a).trans (hsame.readNv a), htsamples, hfault.outside⟩

/-- A read of an entry byte is not answered after `1 + j` acknowledged reads (20_memory.md R58, R59). -/
theorem runCount_waiting_later {s : State} {now : Millis} {j : Nat} {x : NvSample}
    {rest : List NvSample} (hs : Sound s) (hn : (readNv s countAddr).toNat ≤ s.cfg.capacity)
    (hj : j < 6 * (readNv s countAddr).toNat) (hA : AnswersThen (1 + j) x rest s)
    (hk : x.ack = false) (he : x.err = false) :
    ∃ t, runJob (.initCount now) [.readCount] s = .next t ∧ InProgress t ∧
      t.store.inFlight = some ⟨.initEntries now (readNv s countAddr),
        (loadReads 0 (readNv s countAddr).toNat).drop j⟩ ∧
      (∀ a, (loadReads 0 (readNv s countAddr).toNat)[j]? = some a → PortShows t.store.port a) ∧
      LoadedBy ((loadReads 0 (readNv s countAddr).toNat).take j) s t ∧
      t.store.numEntries = s.store.numEntries ∧ ControlKept s t ∧ NvKept s t ∧
      t.nvSamples = rest ∧ OutsideStoreKept s t := by
  obtain ⟨u, hrun, hsame, hsamples, hfree⟩ :=
    runCount_loads (now := now) hs hn (acksNext_mono hA.1 (by omega))
  obtain ⟨-, hA⟩ := hA.afterCount hsame hsamples
  obtain ⟨t, ht, hparked, htsamples, hloaded, -, hkept⟩ :=
    runEntries_waiting (now := now) (hs.congr hsame) (readsBelow_loadReads _)
      (by rw [hsame.cfg]; exact hn) (.inl hfree) (by rw [length_loadReads]; exact hj) hA hk he
  have hparked := hparked.after hsame.registers
  exact ⟨t, hrun.trans ht, hparked.inProgress, hparked.inFlight,
    fun a ha => hparked.shows a (by rw [List.head?_drop]; exact ha), hloaded.after hsame,
    hparked.numEntries, hparked.control, fun a => (hkept a).trans (hsame.readNv a), htsamples,
    hparked.outside⟩

/-! ### INIT, just accepted -/

/-- Settles O21: the write of byte 0 is INIT's only access, then it commits. -/
theorem initWithResetEmptiesTheTable : Obligations.InitWithResetEmptiesTheTable := by
  intro s now hready hs ha
  rw [exec_init hready]
  exact runEmpty_acked (s := beginCommand s) hs hready.2 ha

/-- Settles O22: the load's reads are those of the entries below the count. -/
theorem initLoadsThePersistedEntries : Obligations.InitLoadsThePersistedEntries := by
  intro s now hready hs hn ha
  rw [exec_init hready]
  exact runCount_loaded (s := beginCommand s) hs hready.2 hn ha

/-- Settles O23: the count is refused after its one read. -/
theorem initRefusesACountAboveCapacity : Obligations.InitRefusesACountAboveCapacity := by
  intro s now hready hs hn ha
  rw [exec_init hready]
  obtain ⟨t, ht, hfault, htable, hkept, hsamples⟩ :=
    runCount_refused (s := beginCommand s) (now := now) hs.1.1 hn ha
  exact ⟨t, ht, hfault.responded, hfault.fault, hfault.initialized, hfault.nowReg,
    hfault.numEntries, htable, hkept, hsamples, hfault.outside⟩

/-- Settles O24: a loaded slot has the sentinel carry, which satisfies every interval and which ADVANCE
keeps. -/
theorem loadedTagsAreAllowedAtFirstCheck : Obligations.LoadedTagsAreAllowedAtFirstCheck := by
  refine ⟨fun s t now id hready hs hn ha ht ⟨k₀, hk₀, hid₀⟩ => ?_, fun s id k h hcfg hl hcarry =>
    ⟨check_allowed_of_sentinel h hcfg hl hcarry, fun later => ?_⟩⟩
  · rw [exec_init hready] at ht
    obtain ⟨t', ht', ⟨-, hidle, -, -⟩, hinit, hfault, -, hcount, hlen, hslots, -, -, -, houtside⟩ :=
      runCount_loaded (s := beginCommand s) (now := now) hs hready.2 hn ha
    obtain rfl := eq_of_next ht' ht
    have hserving : Serving t' := ⟨⟨hidle, hfault⟩, hinit⟩
    have hcfg : t'.cfg.wellFormed = true := houtside.1 ▸ hs.1.1
    have hcount : t'.store.numEntries = readNv s countAddr := hcount
    have hslots : ∀ k, k < (readNv s countAddr).toNat → slot t'.store k = loadedEntry s k := hslots
    have hlen : t'.store.table.length = s.cfg.capacity := hlen.trans hs.1.2
    obtain ⟨k, hk⟩ : ∃ k, lookup t'.store id = some k := by
      rw [← Option.ne_none_iff_exists']
      intro hnone
      refine lookup_eq_none.1 hnone k₀ (by rwa [hcount]) (by omega) ?_
      rw [hslots k₀ hk₀, hid₀]
    obtain ⟨⟨hlt, -⟩, hid, -⟩ := lookup_eq_some.1 hk
    rw [hcount] at hlt
    rw [hslots k hlt] at hid
    have hcarry : (slot t'.store k).carry = sentinelMax := by rw [hslots k hlt]; rfl
    refine ⟨k, hlt, hid, check_allowed_of_sentinel hserving hcfg hk hcarry, fun later => ?_⟩
    obtain ⟨hserving', hk', hcarry'⟩ := advanced_keeps_sentinel hserving hk hcarry later
    obtain ⟨u, hu, hresponded⟩ := check_allowed_of_sentinel hserving' hcfg hk' hcarry'
    exact ⟨_, u, exec_advance hserving later, hu, hresponded⟩
  · obtain ⟨hserving, hk, hcarry'⟩ := advanced_keeps_sentinel h hl hcarry later
    exact ⟨_, exec_advance h later, hserving, hcfg, hk, hcarry'⟩

end Sys2Proof.Machine
end

section
/-! PROOFS. ADD (41_store_commands.md R144-R146, R170, R171): PersistEntry's writes by what the responder
answers, the same for an ADD just accepted and for one in progress; and what an accepted ADD leaves. -/

namespace Sys2Proof.Machine

/-! ### PersistEntry's writes, from the one numbered `d` on -/

section
variable {s : State} {k d : Nat} {e : Entry} {count : Byte} {evicted : Bool}

theorem persistWrites_drop_are_writes (k d : Nat) (e : Entry) (count : Byte) :
    ∀ a ∈ (persistWrites k e count).drop d, ∃ b v, a = .write b v :=
  fun a ha => persistWrites_are_writes k e count a (List.mem_of_mem_drop ha)

theorem persistWrites_drop_range (hs : Sound s) (hk : k < s.cfg.capacity) :
    ∀ a ∈ (persistWrites k e count).drop d, accessAddr a < s.cfg.totalBytes :=
  fun a ha => persistWrites_range hs.1.1 hk e count a (List.mem_of_mem_drop ha)

theorem runPersist_acked (hs : Sound s) (hk : k < s.cfg.capacity) (hd : d ≤ 7)
    (ha : acksNext (7 - d) s = true) :
    ∃ t, runJob (.add k evicted) ((persistWrites k e count).drop d) s = .next t ∧
      Answered codeOK (BitVec.ofNat 8 k) evicted s t ∧ t.nvSamples = s.nvSamples.drop (7 - d) ∧
      t.store.table = s.store.table ∧ PersistedWithin d 7 k e count s t ∧
      Memory.wf t.cfg t.nv = true := by
  have hlen : ((persistWrites k e count).drop d).length = 7 - d := List.length_drop
  obtain ⟨u, hrun, hsame, hsamples⟩ := runJob_acked (job := .add k evicted)
    (persistWrites_drop_range (e := e) (count := count) (d := d) hs hk) (by rwa [hlen])
  have hleaves : Leaves (((persistWrites k e count).drop d).take (7 - d)) s
      (respond codeOK (BitVec.ofNat 8 k) evicted u) := by
    rw [List.take_of_length_le hlen.le]
    exact (leaves_of_same hsame).congr rfl rfl rfl
  obtain ⟨htable, hpersisted⟩ := hleaves.persisted hs.2 hs.1.1 hk (by omega)
  rw [Nat.add_sub_cancel' hd] at hpersisted
  exact ⟨_, hrun, answered_respond (sameRegisters_of_applied hsame) _ _ _, by rw [← hlen]; exact hsamples,
    htable, hpersisted, hleaves.wf hs.2 fun a ha =>
      persistWrites_drop_range hs hk a (List.mem_of_mem_take ha)⟩

theorem runPersist_failed {j : Nat} {x : NvSample} {rest : List NvSample} (hs : Sound s)
    (hk : k < s.cfg.capacity) (hj : d + j < 7) (hA : AnswersThen j x rest s) (he : x.err = true) :
    ∃ t, runJob (.add k evicted) ((persistWrites k e count).drop d) s = .next t ∧
      Faulted codeNvFault s t ∧ t.nvSamples = rest ∧ t.store.table = s.store.table ∧
      PersistedWithin d (d + if x.landed then j + 1 else j) k e count s t := by
  obtain ⟨t, hrun, hfault, hsamples, hleaves⟩ := runJob_failed_of_writes (job := .add k evicted)
    (persistWrites_drop_range hs hk) (persistWrites_drop_are_writes k d e count)
    (by rw [List.length_drop, length_persistWrites]; omega) hA he
  exact ⟨t, hrun, hfault, hsamples, hleaves.persisted hs.2 hs.1.1 hk (by split <;> omega)⟩

theorem runPersist_waiting {j : Nat} {x : NvSample} {rest : List NvSample} (hs : Sound s)
    (hk : k < s.cfg.capacity) (hport : PortReady s.store.port ((persistWrites k e count).drop d))
    (hj : d + j < 7) (hA : AnswersThen j x rest s) (hack : x.ack = false) (he : x.err = false) :
    ∃ t, runJob (.add k evicted) ((persistWrites k e count).drop d) s = .next t ∧
      Parked (.add k evicted) ((persistWrites k e count).drop (d + j)) s t ∧ t.nvSamples = rest ∧
      Leaves (((persistWrites k e count).drop d).take j) s t := by
  obtain ⟨t, hrun, hparked, hsamples, hleaves⟩ := runJob_waiting (job := .add k evicted)
    (persistWrites_drop_range hs hk) hport
    (by rw [List.length_drop, length_persistWrites]; omega) hA hack he
  rw [List.drop_drop] at hparked
  exact ⟨t, hrun, hparked, hsamples, hleaves⟩

end

/-! ### ADD, just accepted -/

/-- The state in which an accepted ADD begins its writes: the table has the entry (41_store_commands.md
R170). -/
def placed (id : TagId) (interval : Byte) (s : State) : State :=
  { beginCommand s with
    store := addToTable (placeTag s.cfg s.store id) id interval (beginCommand s).store }

theorem exec_add {s : State} (h : Serving s) (id : TagId) (interval : Byte) :
    exec (.add id interval) s =
      runJob (.add (placeTag s.cfg s.store id).slot (placeTag s.cfg s.store id).evicted)
        (persistWrites (placeTag s.cfg s.store id).slot ⟨id, interval, 0xFFFFFFFF, s.store.nowReg⟩
          (placeTag s.cfg s.store id).count) (placed id interval s) :=
  exec_serving rfl (by simp) h

/-- What an ADD leaves in the table and, of its first `m` writes, in the NV byte space. -/
structure AddedUpTo (m : Nat) (id : TagId) (interval : Byte) (s t : State) : Prop where
  added : slot t.store (placeTag s.cfg s.store id).slot =
    ⟨id, interval, 0xFFFFFFFF, s.store.nowReg⟩
  others : SlotsKeptBut (placeTag s.cfg s.store id).slot s t
  persisted : PersistedUpTo m (placeTag s.cfg s.store id).slot
    ⟨id, interval, 0xFFFFFFFF, s.store.nowReg⟩ (placeTag s.cfg s.store id).count s t

section
variable {s : State} (id : TagId) (interval : Byte) (hs : Sound s)
  (hn : s.store.numEntries.toNat ≤ s.cfg.capacity)
include hs

theorem sound_placed : Sound (placed id interval s) := by
  obtain ⟨⟨hcfg, hlen⟩, hwf⟩ := hs
  exact ⟨⟨hcfg, (List.length_set).trans hlen⟩, hwf⟩

include hn

theorem placeTag_slot_lt : (placeTag s.cfg s.store id).slot < s.cfg.capacity := by
  obtain ⟨-, -, hslot, -⟩ := placeTag_bounds id hs.1.1 hn hs.1.2
  rwa [hs.1.2] at hslot

theorem addedUpTo_of_persisted {m : Nat} {t : State}
    (htable : t.store.table = (placed id interval s).store.table)
    (h : PersistedWithin 0 m (placeTag s.cfg s.store id).slot
      ⟨id, interval, 0xFFFFFFFF, s.store.nowReg⟩ (placeTag s.cfg s.store id).count
      (placed id interval s) t) : AddedUpTo m id interval s t := by
  obtain ⟨-, -, hslot, -⟩ := placeTag_bounds id hs.1.1 hn hs.1.2
  have hplaced (j : Nat) : slot t.store j = if j = (placeTag s.cfg s.store id).slot then
      ⟨id, interval, 0xFFFFFFFF, s.store.nowReg⟩ else slot s.store j := by
    rw [slot, htable]
    exact slot_addToTable hslot id interval j
  refine ⟨(hplaced _).trans (if_pos rfl), ⟨?_, fun j hj => (hplaced j).trans (if_neg hj)⟩, h⟩
  rw [htable]
  exact List.length_set

end

/-- An ADD that completes (41_store_commands.md R170). -/
theorem exec_add_acked {s : State} (h : Serving s) (hs : Sound s) (ha : acksNext 7 s = true)
    (hn : s.store.numEntries.toNat ≤ s.cfg.capacity) (id : TagId) (interval : Byte) :
    ∃ t, exec (.add id interval) s = .next t ∧
      Responded codeOK (BitVec.ofNat 8 (placeTag s.cfg s.store id).slot)
        (placeTag s.cfg s.store id).evicted t ∧
      t.store.numEntries = (placeTag s.cfg s.store id).count ∧ ControlKept s t ∧
      AddedUpTo 7 id interval s t ∧ t.nvSamples = s.nvSamples.drop 7 ∧ OutsideStoreKept s t ∧
      Memory.wf t.cfg t.nv = true := by
  obtain ⟨t, hrun, hans, hsamples, htable, hpersisted, hwf⟩ := runPersist_acked (d := 0)
    (k := (placeTag s.cfg s.store id).slot) (e := addedEntry id interval s.store)
    (count := (placeTag s.cfg s.store id).count) (evicted := (placeTag s.cfg s.store id).evicted)
    (sound_placed id interval hs) (placeTag_slot_lt id hs hn) (Nat.zero_le 7) ha
  exact ⟨t, (exec_add h id interval).trans hrun, hans.responded, hans.numEntries, hans.control,
    addedUpTo_of_persisted id interval hs hn htable hpersisted, hsamples, hans.outside, hwf⟩

/-- All seven bytes of a completed ADD stand in the NV byte space. -/
theorem AddedUpTo.stands {id : TagId} {interval : Byte} {s t : State}
    (h : AddedUpTo 7 id interval s t) :
    EntryPersisted t (placeTag s.cfg s.store id).slot ∧
      readNv t countAddr = (placeTag s.cfg s.store id).count ∧
      NvKeptOutside (entryOrCount (placeTag s.cfg s.store id).slot) s t := by
  obtain ⟨hadded, -, hbytes, hcount, hkept⟩ := h
  exact ⟨fun i hi => by rw [hbytes i hi, hadded, if_pos ⟨Nat.zero_le i, by omega⟩], hcount, hkept⟩

/-- Settles O32: the slot is the one at the old count, which rises without wrapping. -/
theorem addAppendsANewTag : Obligations.AddAppendsANewTag := by
  intro s id h hserving hs ha hl hn
  have hplace : placeTag s.cfg s.store id =
      ⟨s.store.numEntries.toNat, s.store.numEntries + 1, false⟩ := by
    simp [placeTag, hl, hn]
  obtain ⟨t, ht, hresponded, hcount, hcontrol, hadded, hsamples, houtside, -⟩ :=
    exec_add_acked hserving hs ha hn.le id h
  obtain ⟨hpersisted, hnv, hkept⟩ := hadded.stands
  obtain ⟨hslot, hothers, -⟩ := hadded
  rw [hplace] at hresponded hcount hslot hothers hpersisted hnv hkept
  have hsucc : (s.store.numEntries + 1).toNat = s.store.numEntries.toNat + 1 := by
    have := capacity_bounds hs.1.1
    rw [BitVec.toNat_add]
    simp
    omega
  refine ⟨t, ht, ?_, by rw [hcount, hsucc], hcontrol, hslot, hothers, hpersisted,
    hnv.trans hcount.symm, hkept, hsamples, houtside⟩
  simpa using hresponded

/-- Settles O33: the slot is the tag's own. -/
theorem addReregistersAPresentTag : Obligations.AddReregistersAPresentTag := by
  intro s id h k hserving hs ha hn hl
  have hplace : placeTag s.cfg s.store id = ⟨k, s.store.numEntries, false⟩ := by
    simp [placeTag, hl]
  obtain ⟨t, ht, hresponded, hcount, hcontrol, hadded, hsamples, houtside, -⟩ :=
    exec_add_acked hserving hs ha hn id h
  obtain ⟨hpersisted, hnv, hkept⟩ := hadded.stands
  obtain ⟨hslot, hothers, -⟩ := hadded
  rw [hplace] at hresponded hcount hslot hothers hpersisted hnv hkept
  exact ⟨t, ht, hresponded, hcount, hcontrol, hslot, hothers, hpersisted, hnv, hkept, hsamples,
    houtside⟩

/-- Settles O34: the slot is the arbiter's victim. -/
theorem addEvictsWhenFull : Obligations.AddEvictsWhenFull := by
  intro s id h hserving hs ha hl hn
  have hplace : placeTag s.cfg s.store id =
      ⟨selectVictim s.cfg.capacity s.store, s.store.numEntries, true⟩ := by
    simp [placeTag, hl, hn]
  obtain ⟨t, ht, hresponded, hcount, hcontrol, hadded, hsamples, houtside, -⟩ :=
    exec_add_acked hserving hs ha hn.le id h
  obtain ⟨hpersisted, hnv, hkept⟩ := hadded.stands
  obtain ⟨hslot, hothers, -⟩ := hadded
  rw [hplace] at hresponded hcount hslot hothers hpersisted hnv hkept
  exact ⟨t, ht, hresponded, hcount, hcontrol, hslot, hothers, hpersisted, hnv, hkept, hsamples,
    houtside⟩

/-- Below the slot ADD writes no occupied slot holds its identifier (41_store_commands.md R143, R170). -/
theorem id_ne_of_lt_placeTag {cfg : Config} {st : Store} {id : TagId} {j : Nat}
    (hj : j < (placeTag cfg st id).slot) (hocc : j < st.numEntries.toNat)
    (hlen : j < st.table.length) : (slot st j).id ≠ id := by
  rcases placeTag_cases cfg st id with ⟨k, hk, hplace⟩ | ⟨hnone, -, -⟩ | ⟨hnone, -, -⟩
  · obtain ⟨-, -, hleast⟩ := lookup_eq_some.1 hk
    rw [hplace] at hj
    exact hleast j hj
  · exact lookup_eq_none.1 hnone j hocc hlen
  · exact lookup_eq_none.1 hnone j hocc hlen

theorem lookup_added {s t : State} {m : Nat} {id : TagId} {interval : Byte} (hs : Sound s)
    (hn : s.store.numEntries.toNat ≤ s.cfg.capacity)
    (hcount : t.store.numEntries = (placeTag s.cfg s.store id).count)
    (h : AddedUpTo m id interval s t) :
    lookup t.store id = some (placeTag s.cfg s.store id).slot := by
  obtain ⟨hocc, -, hslot, hbelow⟩ := placeTag_bounds id hs.1.1 hn hs.1.2
  obtain ⟨hadded, ⟨hlen, hothers⟩, -⟩ := h
  refine lookup_eq_some.2 ⟨⟨by rwa [hcount], by rwa [hlen]⟩, by rw [hadded], fun j hj => ?_⟩
  rw [hothers j hj.ne]
  exact id_ne_of_lt_placeTag hj (hbelow j (hj.trans hocc) hj.ne) (hj.trans hslot)

/-- Settles O35: Lookup finds the slot ADD wrote, whose carry is the sentinel. -/
theorem addedTagIsAllowedAtOnce : Obligations.AddedTagIsAllowedAtOnce := by
  intro s t id h hserving hs ha hn ht
  obtain ⟨t', ht', ⟨-, hidle, -⟩, hcount, ⟨hinit, hfault, -⟩, hadded, -, houtside, -⟩ :=
    exec_add_acked hserving hs ha hn id h
  obtain rfl := eq_of_next ht' ht
  obtain ⟨⟨-, hnofault⟩, hserves⟩ := hserving
  have hserving' : Serving t' := ⟨⟨hidle, hfault.trans hnofault⟩, hinit.trans hserves⟩
  exact check_allowed_of_sentinel hserving' (houtside.1 ▸ hs.1.1) (lookup_added hs hn hcount hadded)
    (by rw [hadded.added]; rfl)

/-! ### ADD, failing or waiting -/

/-- Settles O37: PersistEntry's writes begin at its first byte. -/
theorem nvFailureEndsAdd : Obligations.NvFailureEndsAdd := by
  intro s id h j x rest hserving hs hn hj hA he
  obtain ⟨t, hrun, hfault, hsamples, htable, hpersisted⟩ := runPersist_failed (d := 0) (j := j)
    (k := (placeTag s.cfg s.store id).slot) (e := addedEntry id h s.store)
    (count := (placeTag s.cfg s.store id).count) (evicted := (placeTag s.cfg s.store id).evicted)
    (sound_placed id h hs) (placeTag_slot_lt id hs hn) (by omega) hA he
  rw [Nat.zero_add] at hpersisted
  obtain ⟨hslot, hothers, hwritten⟩ := addedUpTo_of_persisted id h hs hn htable hpersisted
  exact ⟨t, (exec_add hserving id h).trans hrun, hfault.responded, hfault.fault,
    hfault.initialized.trans hserving.2, hfault.nowReg, hfault.numEntries, hslot, hothers, hwritten,
    hsamples, hfault.outside⟩

/-- Write number `j` of PersistEntry's (41_store_commands.md R145). -/
theorem getElem_persistWrites {k j : Nat} {e : Entry} {count : Byte} (hj : j < 7) :
    (persistWrites k e count)[j]'hj =
      if j < 6 then .write (entryAddr k j) (persistedByte e j) else .write countAddr count := by
  interval_cases j <;> rfl

theorem readNv_hardReset {s : State} (hwf : Memory.wf s.cfg s.nv = true) (landed : Bool) (a : Nat) :
    readNv (hardReset landed s) a =
      if (writeOutstanding s && landed) = true ∧ a = s.store.port.addr then s.store.port.wdata
      else readNv s a := readNv_abandonAccess hwf landed a

/-- A reset edge while a write is on the port: if it lands the NV byte space is as after that write, else
as before it (20_memory.md R67). -/
theorem Leaves.readNv_hardReset {l : List Access} {s t : State} {b : Nat} {v : Byte}
    (h : Leaves l s t) (hwf : Memory.wf s.cfg s.nv = true)
    (hr : ∀ a ∈ l ++ [.write b v], accessAddr a < s.cfg.totalBytes) (hs : t.resetSeen = true)
    (hport : PortShows t.store.port (.write b v)) (landed : Bool) (a : Nat) :
    readNv (hardReset landed t) a =
      readNv (applyAll (if landed then l ++ [.write b v] else l) s) a := by
  obtain ⟨hreq, hwe, haddr, hdata⟩ := hport
  have hrl : ∀ a ∈ l, accessAddr a < s.cfg.totalBytes := fun a ha =>
    hr a (List.mem_append_left _ ha)
  have hb : b < s.cfg.totalBytes := hr (.write b v) (by simp)
  have hout : writeOutstanding t = true := by
    simp [writeOutstanding, hs, hreq, hwe, haddr, h.cfg, hb]
  rw [Machine.readNv_hardReset (h.wf hwf hrl), hout, Bool.true_and, haddr, hdata, h.read]
  cases landed with
  | false => rfl
  | true =>
    have hnow : Leaves l s (applyAll l s) := ⟨rfl, (sameRegisters_applyAll l s).cfg, rfl⟩
    rw [if_pos rfl, applyAll_append]
    simp only [true_and]
    exact (readNv_writeNv (hnow.wf hwf hrl) b a v).symm

theorem PersistedWithin.congr {lo hi k : Nat} {e : Entry} {count : Byte} {s t u : State}
    (h : PersistedWithin lo hi k e count s t) (hread : NvKept t u) :
    PersistedWithin lo hi k e count s u := by
  obtain ⟨hbytes, hcount, hkept⟩ := h
  exact ⟨fun i hi => (hread _).trans (hbytes i hi), (hread _).trans hcount,
    fun a ha => (hread a).trans (hkept a ha)⟩

/-- A reset edge while write number `j` of PersistEntry's is on the port (41_store_commands.md R145,
20_memory.md R67). -/
theorem Leaves.persisted_hardReset {s t : State} {k j : Nat} {e : Entry} {count : Byte}
    (h : Leaves ((persistWrites k e count).take j) s t) (hs : Sound s) (hk : k < s.cfg.capacity)
    (hj : j < 7) (hseen : t.resetSeen = true)
    (hport : PortShows t.store.port ((persistWrites k e count)[j]'hj)) (landed : Bool) :
    PersistedUpTo (if landed then j + 1 else j) k e count s (hardReset landed t) := by
  obtain ⟨b, v, hw⟩ := persistWrites_are_writes k e count _ (List.getElem_mem hj)
  have htake : (persistWrites k e count).take (j + 1) =
      (persistWrites k e count).take j ++ [.write b v] := by
    rw [List.take_succ_eq_append_getElem hj, hw]
  rw [hw] at hport
  have hread := h.readNv_hardReset hs.2 (fun a ha => persistWrites_range hs.1.1 hk e count a
    (List.mem_of_mem_take (htake ▸ ha))) hseen hport landed
  rw [← htake, ← apply_ite (fun m => (persistWrites k e count).take m)] at hread
  exact (persistedUpTo_take hs.2 hs.1.1 hk (by split <;> omega) e count).congr hread

/-- Settles O38: the port shows write number `j`, which a reset edge lands or not. -/
theorem interruptedAddLeavesAPrefixOfItsWrites :
    Obligations.InterruptedAddLeavesAPrefixOfItsWrites := by
  intro s id h j x rest hserving hseen hs hfree hn hj hA hack he
  have hplaced := sound_placed id h hs
  have hlt : (placeTag s.cfg s.store id).slot < (placed id h s).cfg.capacity :=
    placeTag_slot_lt id hs hn
  obtain ⟨t, hrun, hparked, hsamples, hleaves⟩ := runPersist_waiting (d := 0) (j := j)
    (e := addedEntry id h s.store)
    (count := (placeTag s.cfg s.store id).count) (evicted := (placeTag s.cfg s.store id).evicted)
    hplaced hlt (.inl hfree) (by omega) hA hack he
  rw [Nat.zero_add] at hparked
  obtain ⟨-, hfault, -⟩ := hparked.control
  obtain ⟨-, -, hstillSeen, -⟩ := hparked.outside
  obtain ⟨htable, hpersisted⟩ := hleaves.persisted hplaced.2 hplaced.1.1 hlt (by omega)
  rw [Nat.zero_add] at hpersisted
  obtain ⟨hslot, hothers, hwritten⟩ := addedUpTo_of_persisted id h hs hn htable hpersisted
  have hshows := hparked.shows _ (head?_drop_of_lt hj)
  have hreset (landed : Bool) : PersistedUpTo (if landed then j + 1 else j)
      (placeTag s.cfg s.store id).slot ⟨id, h, 0xFFFFFFFF, s.store.nowReg⟩
      (placeTag s.cfg s.store id).count s (hardReset landed t) :=
    hleaves.persisted_hardReset hplaced hlt hj (hstillSeen.trans hseen) hshows landed
  rw [getElem_persistWrites hj] at hshows
  refine ⟨t, (exec_add hserving id h).trans hrun, hparked.inProgress,
    hfault.trans hserving.1.2, hparked.inFlight, hshows, hparked.control,
    hparked.numEntries, hslot, hothers, hsamples, hparked.outside, hwritten, hreset,
    fun hj6 landed => ?_⟩
  obtain ⟨-, hcount, -⟩ := hreset landed
  rw [hcount, if_neg]
  split <;> omega

/-! ### ADD, then a restart -/

/-- With no access outstanding a reset edge keeps the NV byte space (70_reset_and_hazards.md R230). -/
theorem nvKept_hardReset {s : State} (hwf : Memory.wf s.cfg s.nv = true)
    (hreq : s.store.port.req = false) (landed : Bool) : NvKept s (hardReset landed s) := by
  intro a
  have hout : writeOutstanding s = false := by simp [writeOutstanding, hreq]
  rw [readNv_hardReset hwf, hout]
  exact if_neg fun h => Bool.false_ne_true h.1

theorem sound_hardReset {s : State} (hcfg : s.cfg.wellFormed = true)
    (hwf : Memory.wf s.cfg s.nv = true) (landed : Bool) : Sound (hardReset landed s) := by
  have hlen : (hardReset landed s).store.table.length = s.cfg.capacity := by
    simp [hardReset, resetStore]
  rw [Sound, Built, hardReset_cfg]
  exact ⟨⟨hcfg, hlen⟩, wf_abandonAccess hwf⟩

/-- What stands in a slot's bytes is what a load puts there (41_store_commands.md R145, R150). -/
theorem loadedEntry_of_bytes {s : State} {k : Nat} {e : Entry}
    (h : ∀ i, i < 6 → readNv s (entryAddr k i) = persistedByte e i) :
    loadedEntry s k = { e with carry := sentinelMax, lastGrant := 0 } :=
  entry_ext (fun i hi => (persistedByte_loadedEntry s k hi).trans (h i hi)) rfl rfl

/-- Settles O36: the count and the entry that ADD persisted are what the reload reads. -/
theorem addedTagSurvivesRestart : Obligations.AddedTagSurvivesRestart := by
  intro s t id h now landed hserving hs hn ha ht
  obtain ⟨t', ht', ⟨-, -, -, hreq⟩, -, -, hadded, hsamples, ⟨hcfg, -, -, -, hnvRest⟩, hwf⟩ :=
    exec_add_acked hserving hs (acksNext_mono ha (by omega)) hn id h
  obtain rfl := eq_of_next ht' ht
  obtain ⟨hocc, hcap, -⟩ := placeTag_bounds id hs.1.1 hn hs.1.2
  obtain ⟨hpersisted, hcount, -⟩ := hadded.stands
  have hkept := nvKept_hardReset hwf hreq landed
  have hbyte0 : readNv (hardReset landed t') countAddr = (placeTag s.cfg s.store id).count :=
    (hkept _).trans hcount
  have hacks : acksNext (1 + 6 * (readNv (hardReset landed t') countAddr).toNat)
      (hardReset landed t') = true := by
    rw [hbyte0]
    exact acksNext_add ha ((hardReset_nvSamples _ _).trans hsamples)
      ((hardReset_nvRest _ _).trans hnvRest)
  have hready : Ready (hardReset landed t') := ⟨rfl, rfl⟩
  obtain ⟨u, hu, ⟨hrsp, -⟩, -, -, -, hn', -, hslots, -⟩ :=
    initLoadsThePersistedEntries (hardReset landed t') now hready
      (sound_hardReset (hcfg ▸ hs.1.1) hwf landed)
      (by rw [hbyte0, hardReset_cfg, hcfg]; exact hcap) hacks
  have hslot : slot u.store (placeTag s.cfg s.store id).slot = ⟨id, h, sentinelMax, 0⟩ := by
    rw [hslots _ (by rwa [hbyte0]), loadedEntry_of_bytes fun i hi =>
      (hkept _).trans ((hpersisted i hi).trans (by rw [hadded.added]))]
  exact ⟨u, hu, by rw [hrsp], by rwa [hn', hbyte0], by rw [hslot], by rw [hslot]⟩

end Sys2Proof.Machine
end

section
/-! PROOFS. CLEAR (41_store_commands.md R175), and INIT and CLEAR whose accesses fail or are not answered
(41_store_commands.md R146, 20_memory.md R58-R60). -/

namespace Sys2Proof.Machine

/-! ### CLEAR -/

/-- CLEAR's write of byte 0 is acknowledged. -/
theorem runClearWrite_acked {s : State} (hs : Sound s) (ha : acksNext 1 s = true) :
    ∃ t, runJob .clear [.write countAddr 0] s = .next t ∧ Answered codeOK 0 false s t ∧
      t.store.table = s.store.table ∧ readNv t countAddr = 0 ∧
      NvKeptOutside (fun a => a = countAddr) s t ∧ t.nvSamples = s.nvSamples.drop 1 := by
  obtain ⟨u, hrun, hsame, hsamples⟩ :=
    runJob_acked (job := .clear) (writeCount_range hs.1.1 0) ha
  have hleaves : Leaves [.write countAddr 0] s (respond codeOK 0 false u) :=
    (leaves_of_same hsame).congr rfl rfl rfl
  obtain ⟨htable, hzero, hkept⟩ := hleaves.writeCount hs.2
  exact ⟨_, hrun, answered_respond (sameRegisters_of_applied hsame) _ _ _, htable, hzero, hkept,
    hsamples⟩

/-- The state in which an accepted CLEAR begins its write: the table is empty (41_store_commands.md
R175). -/
def emptied (s : State) : State :=
  { beginCommand s with store := { (beginCommand s).store with numEntries := 0 } }

theorem exec_clear {s : State} (h : Serving s) :
    exec .clear s = runJob .clear [.write countAddr 0] (emptied s) := exec_serving rfl (by simp) h

/-- Settles O40: the count is 0 before the one write. -/
theorem clearEmptiesTheTable : Obligations.ClearEmptiesTheTable := by
  intro s h hs ha
  obtain ⟨t, hrun, hans, htable, hzero, hkept, hsamples⟩ :=
    runClearWrite_acked (s := emptied s) hs ha
  exact ⟨t, (exec_clear h).trans hrun, hans.responded, hans.numEntries, hans.control, htable, hzero,
    hkept, hsamples, hans.outside⟩

theorem lookup_of_empty {st : Store} (h : st.numEntries = 0) (id : TagId) : lookup st id = none :=
  lookup_eq_none.2 fun k hk => by
    rw [h] at hk
    exact absurd hk k.not_lt_zero

/-- Settles O41: with count 0 Lookup finds nothing and there is room. -/
theorem afterClearNothingIsKnown : Obligations.AfterClearNothingIsKnown := by
  intro s t h hs ha ht
  obtain ⟨t', ht', ⟨-, hidle, -⟩, hcount, ⟨hinit, hfault, -⟩, -, -, -, -, houtside⟩ :=
    clearEmptiesTheTable s h hs ha
  obtain rfl := eq_of_next ht' ht
  obtain ⟨⟨-, hnofault⟩, hserves⟩ := h
  have hserving : Serving t' := ⟨⟨hidle, hfault.trans hnofault⟩, hinit.trans hserves⟩
  have hroom : 1 ≤ t'.cfg.capacity := (capacity_bounds (houtside.1 ▸ hs.1.1)).1
  refine ⟨fun id => ⟨_, exec_check_unknown hserving (lookup_of_empty hcount id), rfl, rfl, rfl, rfl⟩,
    fun id => ?_⟩
  simp [placeTag, lookup_of_empty hcount, hcount]
  omega

/-! ### An access fails -/

/-- Settles O42: the phases of INIT and CLEAR with a failing access. -/
theorem nvFailureEndsInitAndClear : Obligations.NvFailureEndsInitAndClear := by
  refine ⟨fun s now j x rest hready hs hn hj hA he => ?_, fun s now x rest hready hs hA he =>
    ⟨?_, ?_, fun hserves => ?_⟩⟩
  · rw [exec_init hready]
    exact runCount_failed_later (s := beginCommand s) hs hn hj hA he
  · obtain ⟨t, hrun, hfault, hsamples, htable, hzero, hkept⟩ :=
      runWriteCount_failed (job := .initEmpty now) (s := beginCommand s) hs hA he
    exact ⟨t, (exec_init hready true now).trans hrun, hfault.responded, hfault.fault,
      hfault.initialized, hfault.nowReg, hfault.numEntries, htable, hzero, hkept, hsamples,
      hfault.outside⟩
  · obtain ⟨t, hrun, hfault, hsamples, htable, hkept⟩ :=
      runCount_failed (now := now) (s := beginCommand s) hs.1.1 hA he
    exact ⟨t, (exec_init hready false now).trans hrun, hfault.responded, hfault.fault,
      hfault.initialized, hfault.nowReg, hfault.numEntries, htable, hkept, hsamples,
      hfault.outside⟩
  · obtain ⟨t, hrun, hfault, hsamples, htable, hzero, hkept⟩ :=
      runWriteCount_failed (job := .clear) (s := emptied s) hs hA he
    exact ⟨t, (exec_clear ⟨hready, hserves⟩).trans hrun, hfault.responded, hfault.fault,
      hfault.initialized.trans hserves, hfault.nowReg, hfault.numEntries, htable, hzero, hkept,
      hsamples, hfault.outside⟩

/-! ### An access is not answered -/

/-- Settles O59: the phases of INIT and CLEAR with an access that is not answered. -/
theorem unansweredInitAndClearStayInProgress : Obligations.UnansweredInitAndClearStayInProgress := by
  refine ⟨fun s now x rest hready hs hfree hA hk he => ⟨?_, ?_, fun hserves => ?_⟩,
    fun s now j x rest hready hs hn hj hA hk he => ?_⟩
  · obtain ⟨t, hrun, hparked, hsamples, htable, hkept⟩ :=
      runSingle_waiting (job := .initEmpty now) (a := .write countAddr 0) (s := beginCommand s)
        (countAddr_lt hs.1.1) (.inl hfree) hA hk he
    exact ⟨t, (exec_init hready true now).trans hrun, hparked.inProgress, hparked.inFlight,
      hparked.shows _ rfl, hparked.control, hparked.numEntries, htable, hkept, hsamples,
      hparked.outside⟩
  · obtain ⟨t, hrun, hparked, hsamples, htable, hkept⟩ :=
      runSingle_waiting (job := .initCount now) (a := .readCount) (s := beginCommand s)
        (countAddr_lt hs.1.1) (.inl hfree) hA hk he
    exact ⟨t, (exec_init hready false now).trans hrun, hparked.inProgress, hparked.inFlight,
      hparked.shows _ rfl, hparked.control, hparked.numEntries, htable, hkept, hsamples,
      hparked.outside⟩
  · obtain ⟨t, hrun, hparked, hsamples, htable, hkept⟩ :=
      runSingle_waiting (job := .clear) (a := .write countAddr 0) (s := emptied s)
        (countAddr_lt hs.1.1) (.inl hfree) hA hk he
    exact ⟨t, (exec_clear ⟨hready, hserves⟩).trans hrun, hparked.inProgress, hparked.inFlight,
      hparked.shows _ rfl, hparked.control, hparked.numEntries, htable, hkept, hsamples,
      hparked.outside⟩
  · rw [exec_init hready]
    exact runCount_waiting_later (s := beginCommand s) hs hn hj hA hk he

end Sys2Proof.Machine
end

section
/-! PROOFS. A command in progress: it completes, ends with NV_FAULT or goes on waiting
(20_memory.md R58-R61, 41_store_commands.md R146, R150-R152, R170, R175). -/

namespace Sys2Proof.Machine

/-! ### How a tick goes on with a command -/

theorem Inv.sound {s : State} (h : Inv s) : Sound s := ⟨⟨h.build, h.tableLength⟩, h.nvCanonical⟩

section
variable {s : State} {todo : List Access} (h : Inv s) (hs : s.resetSeen = true)
include h hs

theorem Inv.tick_resumes {job : Job} (hf : s.store.inFlight = some ⟨job, todo⟩) :
    Machine.storeTick s = runJob job todo s := (storeTick_resumes h hs hf).1

/-- A command whose phase is a single access still has that access to make. -/
theorem Inv.tick_single {job : Job} {a : Access} (hf : s.store.inFlight = some ⟨job, todo⟩)
    (hjob : jobAccesses s.store job = [a]) : todo = [a] ∧ Machine.storeTick s = runJob job [a] s := by
  have htodo : todo = [a] := todo_eq_single ((h.running hs).inFlight _ hf) hjob
  exact ⟨htodo, htodo ▸ h.tick_resumes hs hf⟩

/-- A load goes on with reads below its count. -/
theorem Inv.tick_load {now : Millis} {n : Byte}
    (hf : s.store.inFlight = some ⟨.initEntries now n, todo⟩) :
    ReadsBelow n.toNat todo ∧ n.toNat ≤ s.cfg.capacity :=
  ⟨todo_readEntry ((h.running hs).inFlight _ hf), (h.runs hs hf).jobOk.1⟩

/-- An ADD goes on with the last of PersistEntry's writes. -/
theorem Inv.tick_add {k : Nat} {evicted : Bool}
    (hf : s.store.inFlight = some ⟨.add k evicted, todo⟩) :
    todo = (persistWrites k (slot s.store k) s.store.numEntries).drop (7 - todo.length) ∧
      1 ≤ todo.length ∧ todo.length ≤ 7 ∧ k < s.cfg.capacity := by
  have hok := (h.running hs).inFlight _ hf
  obtain ⟨htodo, hlen⟩ := todo_eq_drop hok
  obtain ⟨-, ⟨-, hk⟩, a, rest, hcons, -⟩ := hok
  have hcount := (h.running hs).count
  have hcons : todo = a :: rest := hcons
  exact ⟨htodo, by simp [hcons], hlen, by omega⟩

theorem Inv.tick_add_eq {k : Nat} {evicted : Bool}
    (hf : s.store.inFlight = some ⟨.add k evicted, todo⟩) :
    Machine.storeTick s = runJob (.add k evicted)
      ((persistWrites k (slot s.store k) s.store.numEntries).drop (7 - todo.length)) s :=
  (h.tick_resumes hs hf).trans
    (congrArg (fun l => runJob (.add k evicted) l s) (h.tick_add hs hf).1)

end

/-! ### It completes -/

/-- Settles O56: what is left of an ADD are the last of PersistEntry's writes, and of a CLEAR its only
one. -/
theorem resumedAddAndClearComplete : Obligations.ResumedAddAndClearComplete := by
  intro s todo h hs ha
  refine ⟨fun k evicted hf => ?_, fun hf => ?_⟩
  · obtain ⟨-, hpos, hlen, hk⟩ := h.tick_add hs hf
    have hleft : 7 - (7 - todo.length) = todo.length := by omega
    obtain ⟨t, hrun, hans, hsamples, htable, hpersisted, -⟩ :=
      runPersist_acked (evicted := evicted) (e := slot s.store k) (count := s.store.numEntries)
        h.sound hk (Nat.sub_le 7 todo.length) (by rwa [hleft])
    rw [hleft] at hsamples
    have hcount : readNv t countAddr = s.store.numEntries :=
      hpersisted.2.1.trans (if_pos ⟨by omega, by omega⟩)
    exact ⟨t, (h.tick_add_eq hs hf).trans hrun, hans.responded, hans.control, hans.numEntries,
      htable, hpersisted, hcount, hsamples, hans.outside⟩
  · obtain ⟨rfl, htick⟩ := h.tick_single hs hf rfl
    obtain ⟨t, hrun, hans, htable, hzero, hkept, hsamples⟩ := runClearWrite_acked h.sound ha
    have hcount : s.store.numEntries = 0 := (h.runs hs hf).jobOk.2
    exact ⟨t, htick.trans hrun, hans.responded, hans.control, hans.numEntries.trans hcount, htable,
      hzero, hkept, hsamples, hans.outside⟩

/-- Every slot below a completed load's count has the timing fields INIT gives it: from this step's reads
or from earlier ones (41_store_commands.md R150, R152). -/
theorem LoadedBy.timing {s t : State} {todo : List Access} {k : Nat} (h : LoadedBy todo s t)
    (hearlier : Access.readEntry k 5 ∉ todo →
      (slot s.store k).carry = sentinelMax ∧ (slot s.store k).lastGrant = 0) :
    (slot t.store k).carry = sentinelMax ∧ (slot t.store k).lastGrant = 0 := by
  obtain ⟨-, hcarry, hgrant⟩ := h.2 k
  by_cases hmem : Access.readEntry k 5 ∈ todo
  · exact ⟨hcarry.trans (if_pos hmem), hgrant.trans (if_pos hmem)⟩
  · obtain ⟨hc, hg⟩ := hearlier hmem
    exact ⟨hcarry.trans ((if_neg hmem).trans hc), hgrant.trans ((if_neg hmem).trans hg)⟩

/-- Settles O57: each phase of INIT goes on as one just begun does; what earlier steps of a load have read
is what the mirror's invariant says. -/
theorem resumedInitCompletes : Obligations.ResumedInitCompletes := by
  intro s now todo h hs
  refine ⟨fun hf ha => ?_, fun hf hn ha => ?_, fun hf hn ha => ?_, fun n hf ha => ?_⟩
  · rw [(h.tick_single hs hf rfl).2]
    exact runEmpty_acked h.sound (h.runs hs hf).noFault ha
  · rw [(h.tick_single hs hf rfl).2]
    obtain ⟨t, hrun, hfault, htable, hkept, hsamples⟩ := runCount_refused (now := now) h.build hn ha
    exact ⟨t, hrun, hfault.responded, hfault.fault, hfault.initialized, hfault.nowReg,
      hfault.numEntries, htable, hkept, hsamples, hfault.outside⟩
  · rw [(h.tick_single hs hf rfl).2]
    exact runCount_loaded h.sound (h.runs hs hf).noFault hn ha
  · obtain ⟨hreads, hcap⟩ := h.tick_load hs hf
    obtain ⟨t, hrun, hinit, hsamples, hloaded, hslots, hkept⟩ :=
      runEntries_acked (now := now) h.sound hreads hcap ha
    have htiming : ∀ k, k < n.toNat →
        (slot t.store k).carry = sentinelMax ∧ (slot t.store k).lastGrant = 0 :=
      fun k hk => hloaded.timing ((h.runs hs hf).jobOk.2 k hk)
    refine ⟨t, (h.tick_resumes hs hf).trans hrun, hinit.responded, hinit.initialized,
      hinit.fault.trans (h.runs hs hf).noFault, hinit.nowReg, hinit.numEntries, hloaded, htiming,
      fun hm k hk => ?_, hslots, hkept, hsamples, hinit.outside⟩
    obtain ⟨hcarry, hgrant⟩ := htiming k hk
    obtain ⟨-, hread⟩ := hm.jobMirror hs (h.runs hs hf).noFault hf
    refine entry_ext (fun i hi => ?_) hcarry hgrant
    rw [persistedByte_loadedEntry s k hi, (hloaded.2 k).1 i hi]
    split
    · rfl
    · exact (hread k i hk hi ‹_›).symm

/-! ### It fails -/

theorem Faulted.ends {s t : State} {rest : List NvSample} {P : Prop} (h : Faulted codeNvFault s t)
    (hsamples : t.nvSamples = rest) (hP : P) :
    Responded codeNvFault 0 false t ∧ t.store.fault = codeNvFault ∧
      t.store.initialized = s.store.initialized ∧ t.store.nowReg = s.store.nowReg ∧
      t.store.numEntries = s.store.numEntries ∧ t.nvSamples = rest ∧ OutsideStoreKept s t ∧ P :=
  ⟨h.responded, h.fault, h.initialized, h.nowReg, h.numEntries, hsamples, h.outside, hP⟩

/-- Settles O58, job by job. -/
theorem nvFailureEndsAResumedCommand : Obligations.NvFailureEndsAResumedCommand := by
  refine ⟨fun s ⟨job, todo⟩ j x rest h hs hf hj hA he => ?_,
    fun s now todo j x rest h hs hf hn hj hA he => ?_⟩
  · have hj : j < todo.length := hj
    cases job with
    | initEmpty now =>
      obtain ⟨rfl, htick⟩ := h.tick_single hs hf rfl
      obtain rfl := eq_zero_of_lt_one hj
      obtain ⟨t, hrun, hfault, hsamples, hleft⟩ := runWriteCount_failed (job := .initEmpty now) h.sound hA he
      exact ⟨t, htick.trans hrun, hfault.ends hsamples hleft⟩
    | initCount now =>
      obtain ⟨rfl, htick⟩ := h.tick_single hs hf rfl
      obtain rfl := eq_zero_of_lt_one hj
      obtain ⟨t, hrun, hfault, hsamples, hleft⟩ := runCount_failed (now := now) h.build hA he
      exact ⟨t, htick.trans hrun, hfault.ends hsamples hleft⟩
    | initEntries now n =>
      obtain ⟨hreads, hcap⟩ := h.tick_load hs hf
      obtain ⟨t, hrun, hfault, hsamples, hleft⟩ :=
        runEntries_failed (now := now) h.sound hreads hcap hj hA he
      exact ⟨t, (h.tick_resumes hs hf).trans hrun, hfault.ends hsamples hleft⟩
    | add k evicted =>
      obtain ⟨-, -, hlen, hk⟩ := h.tick_add hs hf
      obtain ⟨t, hrun, hfault, hsamples, hleft⟩ := runPersist_failed (d := 7 - todo.length)
        (e := slot s.store k) (count := s.store.numEntries) (evicted := evicted) h.sound hk (by omega) hA he
      exact ⟨t, (h.tick_add_eq hs hf).trans hrun, hfault.ends hsamples hleft⟩
    | clear =>
      obtain ⟨rfl, htick⟩ := h.tick_single hs hf rfl
      obtain rfl := eq_zero_of_lt_one hj
      obtain ⟨t, hrun, hfault, hsamples, hleft⟩ := runWriteCount_failed (job := .clear) h.sound hA he
      exact ⟨t, htick.trans hrun, hfault.ends hsamples hleft⟩
  · obtain ⟨rfl, htick⟩ := h.tick_single hs hf rfl
    rw [htick]
    obtain ⟨t, hrun, hresponded, hfault, hinit, hnow, hcount, hloaded, hslots, hkept, hsamples,
      houtside⟩ := runCount_failed_later (now := now) h.sound hn hj hA he
    exact ⟨t, hrun, hresponded, hfault, hinit, hnow, hcount, hloaded, hslots, hkept, hsamples,
      houtside⟩

/-! ### It waits -/

/-- The state a store goes to whose outstanding access is not answered (20_memory.md R58). -/
def held (f : InFlight) (s : State) : State :=
  park f.job f.todo { s with nvSamples := s.nvSamples.tail }

theorem access_unanswered {a : Access} {s : State} (ha : accessAddr a < s.cfg.totalBytes)
    (hport : PortShows s.store.port a) (hk : (sampleAt 0 s).ack = false)
    (he : (sampleAt 0 s).err = false) :
    access a s = .waiting { s with nvSamples := s.nvSamples.tail } := by
  have hissue : issue a s = s := by simp [issue, hport.req]
  simp [access, ha, hissue, nextSample, hk, he]

theorem Inv.tick_held {s : State} {f : InFlight} (h : Inv s) (hs : s.resetSeen = true)
    (hf : s.store.inFlight = some f) (hk : (sampleAt 0 s).ack = false)
    (he : (sampleAt 0 s).err = false) : Machine.storeTick s = .next (held f s) := by
  obtain ⟨htick, ⟨-, -, a, rest, htodo, hport⟩, hr, -⟩ := storeTick_resumes h hs hf
  have haccess := access_unanswered (hr a (htodo ▸ List.mem_cons_self)) hport hk he
  rw [htick, held, htodo, runJob, drive, haccess]

/-- A busy store goes on holding: no register that a command or a response writes has changed. -/
structure Holds (s t : State) : Prop where
  busy : t.store.busy = true
  port : t.store.port = s.store.port
  inFlight : t.store.inFlight = s.store.inFlight
  table : t.store.table = s.store.table
  numEntries : t.store.numEntries = s.store.numEntries
  control : ControlKept s t
  nvKept : NvKept s t

theorem Holds.refl {s : State} (hb : s.store.busy = true) : Holds s s :=
  ⟨hb, rfl, rfl, rfl, rfl, ⟨rfl, rfl, rfl⟩, fun _ => rfl⟩

theorem Holds.trans {s t u : State} (h : Holds s t) (h' : Holds t u) : Holds s u := by
  obtain ⟨hinit, hfault, hnow⟩ := h.control
  obtain ⟨hinit', hfault', hnow'⟩ := h'.control
  exact ⟨h'.busy, h'.port.trans h.port, h'.inFlight.trans h.inFlight, h'.table.trans h.table,
    h'.numEntries.trans h.numEntries,
    ⟨hinit'.trans hinit, hfault'.trans hfault, hnow'.trans hnow⟩,
    fun a => (h'.nvKept a).trans (h.nvKept a)⟩

theorem Inv.exists_inFlight {s : State} (h : Inv s) (hs : s.resetSeen = true)
    (hb : s.store.busy = true) : ∃ f, s.store.inFlight = some f := by
  rw [(h.running hs).busyIff] at hb
  exact Option.isSome_iff_exists.1 hb

theorem NeverAnswers.tail {s t : State} (h : NeverAnswers s)
    (ht : t.nvSamples = s.nvSamples.tail) (hr : t.nvRest = s.nvRest) : NeverAnswers t := by
  intro i
  rw [← sampleAt_succ ht hr]
  exact h (i + 1)

/-- A cycle of a machine whose responder never answers. -/
theorem Inv.step_held {s : State} (h : Inv s) (hs : s.resetSeen = true)
    (hb : s.store.busy = true) (hnever : NeverAnswers s)
    (hin : ∀ i ∈ s.inputs, ∃ rx cmd, i = .cycle rx cmd) :
    ∃ u, step s = .next u ∧ Holds s u ∧ u.store.rsp.valid = false ∧ u.resetSeen = true ∧
      NeverAnswers u ∧ ∀ i ∈ u.inputs, ∃ rx cmd, i = .cycle rx cmd := by
  obtain ⟨f, hf⟩ := h.exists_inFlight hs hb
  obtain ⟨i, rest, hnext⟩ := exists_nextInput s
  obtain ⟨⟨rx, cmd, rfl⟩, hrest⟩ : (∃ rx cmd, i = .cycle rx cmd) ∧
      ∀ i ∈ rest, ∃ rx cmd, i = .cycle rx cmd := by
    obtain hcons | ⟨-, rfl, rfl⟩ := hnext
    · rw [hcons] at hin
      exact List.forall_mem_cons.1 hin
    · exact ⟨⟨_, _, rfl⟩, nofun⟩
  obtain ⟨hk, he⟩ := hnever 0
  have h' := h.of_dec_inputs (cycleDec rx s.dec) rest
  refine ⟨_, (step_of_cycle h.build hs hnext).trans
    ((cycleStore_busy (s := { s with inputs := rest, dec := cycleDec rx s.dec }) hb cmd).trans
      (h'.tick_held hs hf hk he)), ?_, rfl, hs, hnever.tail rfl rfl, hrest⟩
  exact ⟨rfl, rfl, hf.symm, rfl, rfl, ⟨rfl, rfl, rfl⟩, fun _ => rfl⟩

theorem run_succ {s u : State} (h : step s = .next u) (n : Nat) :
    Host.Core.run Sys2Proof.core (n + 1) s = Host.Core.run Sys2Proof.core n u := by
  have hstep : Sys2Proof.core.step s = .next u := h
  simp only [Host.Core.run, hstep]

theorem Inv.run_held (n : Nat) : ∀ {s : State}, Inv s → s.resetSeen = true →
    s.store.busy = true → NeverAnswers s → (∀ i ∈ s.inputs, ∃ rx cmd, i = .cycle rx cmd) →
    ∃ t, Host.Core.run Sys2Proof.core n s = .next t ∧ Holds s t ∧
      (0 < n ∨ s.store.rsp.valid = false → t.store.rsp.valid = false) := by
  induction n with
  | zero => exact fun {s} _ _ hb _ _ => ⟨s, rfl, .refl hb, fun hrsp => hrsp.resolve_left (Nat.lt_irrefl 0)⟩
  | succ n ih =>
    intro s h hs hb hnever hin
    obtain ⟨u, hu, hholds, hrsp, hs', hnever', hin'⟩ := h.step_held hs hb hnever hin
    obtain ⟨t, ht, hholds', hrsp'⟩ := ih (everyStepKeepsInv s u h hu) hs' hholds.busy hnever' hin'
    exact ⟨t, (run_succ hu n).trans ht, hholds.trans hholds', fun _ => hrsp' (.inr hrsp)⟩

/-- Settles O39: the tick of a store whose access is not answered is `held`; over more cycles the
invariant lets that go on; after acknowledged accesses the command waits with the rest. -/
theorem unansweredAccessHoldsTheStore : Obligations.UnansweredAccessHoldsTheStore := by
  refine ⟨fun s x rest h hs hb hA hk he => ?_, fun n s h hs hb hnever hin => ?_,
    fun s ⟨job, todo⟩ j x rest h hs hf hj hA hk he => ?_,
    fun s now todo j x rest h hs hf hn hj hA hk he => ?_⟩
  · obtain ⟨f, hf⟩ := h.exists_inFlight hs hb
    obtain ⟨hx, hrest⟩ := hA.zero
    obtain rfl : sampleAt 0 s = x := hx
    exact ⟨_, h.tick_held hs hf hk he, ⟨rfl, rfl⟩, rfl, hf.symm, rfl, rfl, ⟨rfl, rfl, rfl⟩,
      fun _ => rfl, hrest, ⟨rfl, rfl, rfl, rfl, rfl⟩⟩
  · obtain ⟨t, ht, hholds, hrsp⟩ := h.run_held n hs hb hnever hin
    exact ⟨t, ht, hholds.busy, fun hn => hrsp (.inl hn), hholds.port, hholds.inFlight, hholds.table,
      hholds.numEntries, hholds.control, hholds.nvKept⟩
  · have hj : j < todo.length := hj
    obtain ⟨htick, hok, hr, -⟩ := storeTick_resumes h hs hf
    obtain ⟨t, hrun, hparked, hsamples, hleaves⟩ :=
      runJob_waiting hr hok.portReady hj hA hk he
    refine ⟨t, htick.trans hrun, hparked.inProgress, hparked.inFlight,
      fun a ha => hparked.shows a (by rw [List.head?_drop]; exact ha), hparked.numEntries,
      hparked.control, hsamples, hparked.outside, ?_⟩
    cases job with
    | initEmpty now =>
      obtain ⟨rfl, -⟩ := h.tick_single hs hf rfl
      obtain rfl := eq_zero_of_lt_one hj
      exact hleaves.kept
    | initCount now =>
      obtain ⟨rfl, -⟩ := h.tick_single hs hf rfl
      obtain rfl := eq_zero_of_lt_one hj
      exact hleaves.kept
    | initEntries now n =>
      obtain ⟨hreads, hcap⟩ := h.tick_load hs hf
      obtain ⟨hloaded, -, hkept⟩ := hleaves.loadedBelow h.sound (hreads.take j) hcap
      exact ⟨hloaded, hkept⟩
    | add k evicted =>
      obtain ⟨htodo, -, hlen, hk⟩ := h.tick_add hs hf
      have hleaves : Leaves (todo.take j) s t := hleaves
      rw [htodo] at hleaves
      exact hleaves.persisted h.nvCanonical h.build hk (by omega)
    | clear =>
      obtain ⟨rfl, -⟩ := h.tick_single hs hf rfl
      obtain rfl := eq_zero_of_lt_one hj
      exact hleaves.kept
  · rw [(h.tick_single hs hf rfl).2]
    exact runCount_waiting_later h.sound hn hj hA hk he

end Sys2Proof.Machine
end
